-- ==== Sys2Proof/Word.lean ====
section
/-! DEFINITION. The two word types of the block: a host word of 32 bits and a byte of 8 bits (spec/00_scope.md R7). -/

namespace Sys2Proof

/-- A word of the host stream, an operand register, RESULT (R7, R53). -/
abbrev Word := BitVec 32

/-- A byte of the framebuffer, of the glyph ROM, of a bus frame (R7). -/
abbrev Byte := BitVec 8

end Sys2Proof
end

