-- ==== Sys2Proof/Config.lean ====
section
/-! DEFINITION. What is fixed when the block is built (spec/00_scope.md R6): the controller byte table CMD, the glyph
ROM, the framebuffer capacity; and the FREE VALUES, constants without a body, of what the spec leaves open. -/

namespace Sys2Proof

/-- The table CMD of controller command and parameter bytes, with its default values (30_encoding R85). The defaults are
the spec's own passage from general knowledge (93 G1, G2); every meaning uses the names only. -/
structure Cmd where
  displayOff : Byte := 0xAE
  setDisplayClockDiv : Byte := 0xD5
  clockDivValue : Byte := 0x80
  setMultiplex : Byte := 0xA8
  setDisplayOffset : Byte := 0xD3
  setStartLine0 : Byte := 0x40
  chargePump : Byte := 0x8D
  chargePumpExt : Byte := 0x10
  chargePumpInt : Byte := 0x14
  memoryMode : Byte := 0x20
  memoryModeHoriz : Byte := 0x00
  segRemapInv : Byte := 0xA1
  comScanDec : Byte := 0xC8
  setComPins : Byte := 0xDA
  comPinsSmall : Byte := 0x02
  comPinsOther : Byte := 0x12
  setContrast : Byte := 0x81
  contrastExt : Byte := 0x9F
  contrastInt : Byte := 0xCF
  setPrecharge : Byte := 0xD9
  prechargeExt : Byte := 0x22
  prechargeInt : Byte := 0xF1
  setVcomDetect : Byte := 0xDB
  vcomDetectValue : Byte := 0x40
  displayAllOnResume : Byte := 0xA4
  normalDisplay : Byte := 0xA6
  invertDisplay : Byte := 0xA7
  deactivateScroll : Byte := 0x2E
  activateScroll : Byte := 0x2F
  displayOn : Byte := 0xAF
  columnAddr : Byte := 0x21
  pageAddr : Byte := 0x22
  rightHScroll : Byte := 0x26
  leftHScroll : Byte := 0x27
  vRightHScroll : Byte := 0x29
  vLeftHScroll : Byte := 0x2A
  setVScrollArea : Byte := 0xA3
  scrollDummy00 : Byte := 0x00
  scrollDummyFF : Byte := 0xFF
  scrollVOffset : Byte := 0x01
deriving DecidableEq, Repr

/-- The glyph ROM: 95 entries of 5 column bytes, character 32 first (20_memory R52). -/
abbrev GlyphRom := Vector Byte 475

/-- The configuration of one block (00_scope R6). State carries it and no step changes it (log 6). -/
structure Config where
  /-- `FB_CAPACITY`: the largest framebuffer in bytes, or unbounded (`none`), which R6 and D37 allow. -/
  fbCapacity : Option Nat
  glyph : GlyphRom
  cmd : Cmd
deriving DecidableEq, Repr

/-- What R85 asks of any override of CMD. No meaning depends on it (log 17). -/
abbrev Config.wf (cfg : Config) : Prop := cfg.cmd.contrastExt < cfg.cmd.contrastInt

/-- How the environment answers one bus primitive (40_lifecycle R100 to R102). -/
inductive BusAnswer where
  /-- The primitive succeeds whole. -/
  | ok
  /-- It fails; `reached` bytes of its frame, if it has so many, arrived at the controller (R101, D35). -/
  | fail (reached : Nat)
  /-- It never completes (R102). -/
  | never
deriving DecidableEq, Repr, Inhabited

/-- FREE VALUE (log 4): the environment's answer to the `n`-th draw that State.answers does not give (R100, U7). -/
opaque Config.busAnswer : Nat → BusAnswer

/-- FREE VALUE (log 1, 3): the contents at draw `n` of unspecified register number `k` (10_state R34, R40). -/
opaque Config.freeWord : Nat → Nat → Word

/-- FREE VALUE (log 1): the contents at draw `n` of a framebuffer that has been freed (40_lifecycle R104, 10_state R40). -/
opaque Config.freeCells : Nat → List Host.Cell

/-- FREE VALUE (log 6): column byte `i` of glyph `c` in the ROM of the block that State.reset describes (R52, D38). -/
opaque Config.glyphByte : Nat → Nat → Byte

/-- The configuration of the block right after power-on: CMD at its defaults, no capacity bound, a glyph table of which
nothing is known but its shape (log 6). -/
def Config.atReset : Config where
  fbCapacity := none
  glyph := Vector.ofFn fun k : Fin 475 => Config.glyphByte (32 + k.val / 5) (k.val % 5)
  cmd := {}

end Sys2Proof
end

