-- ==== Sys2Proof/Syntax.lean ====
section
/-! DEFINITION. The host commands (spec/30_encoding.md R74), one constructor for each row of spec/opcode_table.json, and the
pseudo-commands of R83, which are commands already. Operands are the raw words; a meaning reads them signed or unsigned. -/

namespace Sys2Proof

/-- A colour: "color ∈ {off, on, inverse}" (00_scope R11). -/
inductive Color where
  | off
  | on
  | inverse
deriving DecidableEq, Repr

/-- One host command (R74). `c` is the colour field, `b` the background field (R71). -/
inductive Instr where
  /-- BEGIN (40_lifecycle R104). -/
  | beginInst (bus addr width height vcc : Word)
  /-- END (R111). -/
  | endInst
  /-- GETWIDTH (R113). -/
  | getWidth
  /-- GETHEIGHT (R114). -/
  | getHeight
  /-- SETPIXEL (41_pixel R133). -/
  | setPixel (c : Color) (x y : Word)
  /-- GETPIXEL (R134). -/
  | getPixel (x y : Word)
  /-- CLEAR (R135). -/
  | clear
  /-- DRAWLINE (42_raster R150). -/
  | drawLine (c : Color) (x0 y0 x1 y1 : Word)
  /-- DRAWRECT (R152). -/
  | drawRect (c : Color) (x y w h : Word)
  /-- FILLRECT (R153). -/
  | fillRect (c : Color) (x y w h : Word)
  /-- DRAWCIRCLE (R155). -/
  | drawCircle (c : Color) (x0 y0 r : Word)
  /-- FILLCIRCLE (R156). -/
  | fillCircle (c : Color) (x0 y0 r : Word)
  /-- DRAWGLYPH (43_glyph_text R182). -/
  | drawGlyph (c b : Color) (x y ch scale : Word)
  /-- SETCURSOR (R185). -/
  | setCursor (x y : Word)
  /-- SETTEXTSIZE (R186). -/
  | setTextSize (size : Word)
  /-- SETTEXTCOLOR (R187). -/
  | setTextColor (c b : Color)
  /-- PRINT (R189): the byte count and the payload words, padding included (30_encoding R76). -/
  | print (n : Word) (payload : List Word)
  /-- FLUSH (44_display_sync R210). -/
  | flush
  /-- INVERT (R212). -/
  | invert (flag : Word)
  /-- DIM (R214). -/
  | dim (flag : Word)
  /-- SETCONTRAST (R216). -/
  | setContrast (v : Word)
  /-- SCROLLRIGHT (R218). -/
  | scrollRight (start stop : Word)
  /-- SCROLLLEFT (R219). -/
  | scrollLeft (start stop : Word)
  /-- SCROLLDIAGRIGHT (R220). -/
  | scrollDiagRight (start stop : Word)
  /-- SCROLLDIAGLEFT (R221). -/
  | scrollDiagLeft (start stop : Word)
  /-- STOPSCROLL (R222). -/
  | stopScroll
deriving DecidableEq, Repr

/-- The pseudo-command TEXTCOLOR.c (R83). -/
abbrev Instr.textColor (c : Color) : Instr := .setTextColor c c

/-- The pseudo-command DISPLAY (R83). -/
abbrev Instr.display : Instr := .flush

/-- The pseudo-command HLINE.c (R83). -/
abbrev Instr.hLine (c : Color) (x y w : Word) : Instr := .fillRect c x y w 1

/-- The pseudo-command VLINE.c (R83). -/
abbrev Instr.vLine (c : Color) (x y h : Word) : Instr := .fillRect c x y 1 h

end Sys2Proof
end

