-- ==== Sys2Proof/Machine/State.lean ====
section
/-! DEFINITION. The state of one FRE-SSD1306 block (spec/10_state.md R20), the histories that a model keeps (R39), the inputs
and parameters of a run, the reasons a step can stop, and the state right after power-on (R41, 70_reset R271). -/

namespace Sys2Proof.Machine

/-- The bytes of an address space that differ from what an unlisted address reads as: addresses strictly rising. -/
abbrev Memory := List Host.Cell

/-- The power-supply configuration (10_state R26, D9). -/
inductive Vcc where
  /-- Code 1: external supply. -/
  | external
  /-- Code 2: internal charge pump. -/
  | internal
deriving DecidableEq, Repr

/-- The instance registers: the document's DisplayHandle (10_state R25 to R33). While ACTIVE = 0 their contents are
unspecified and no command observes them (R40). -/
structure DisplayHandle where
  /-- `W` (R25). -/
  width : Nat
  /-- `H` (R25). -/
  height : Nat
  /-- `VCC_MODE` (R26). -/
  vcc : Vcc
  /-- `BUS_ID` (R27). -/
  busId : Word
  /-- `DEV_ADDR` (R27). -/
  devAddr : BitVec 7
  /-- `FB` (R28), by byte address (20_memory R50). -/
  fb : Memory
  /-- `CONTRAST` (R29). -/
  contrast : Byte
  /-- `CURSOR_X`, a signed register (R30). -/
  cursorX : Word
  /-- `CURSOR_Y`, a signed register (R30). -/
  cursorY : Word
  /-- `TEXT_SCALE` (R31). -/
  textScale : Nat
  /-- `TEXT_COLOR` (R32). -/
  textColor : Color
  /-- `TEXT_BG` (R32). -/
  textBg : Color
  /-- `WRAP` (R33). -/
  wrap : Bool
deriving DecidableEq, Repr

/-- The command latch: `HDR` and `x[0]` to `x[4]` (10_state R34). -/
structure Latch where
  hdr : Word
  x0 : Word
  x1 : Word
  x2 : Word
  x3 : Word
  x4 : Word
deriving DecidableEq, Repr

/-- The status of a command (60_exceptions R240). -/
inductive Status where
  | ok
  | notInitialized
  | ioError
  | invalidArgument
  | illegalCommand
deriving DecidableEq, Repr

/-- A transport primitive with its arguments (40_lifecycle R100). -/
inductive BusPrim where
  /-- `BusOpen(bus)`. -/
  | openBus (bus : Word)
  /-- `BusBind(addr)`. -/
  | bindAddr (addr : BitVec 7)
  /-- `BusCmd(b)`: one command frame. -/
  | cmdFrame (b : Byte)
  /-- `BusData(bytes)`: one data frame. -/
  | dataFrame (bytes : List Byte)
  /-- `BusClose()`. -/
  | closeBus
deriving DecidableEq, Repr

/-- The outcome of a primitive: Ok, or Fail after `reached` bytes of its frame arrived (R100, R101). -/
inductive BusOutcome where
  | ok
  | fail (reached : Nat)
deriving DecidableEq, Repr

/-- One entry of the bus trace (10_state R39, 40_lifecycle R100). -/
structure BusEvent where
  prim : BusPrim
  outcome : BusOutcome
deriving DecidableEq, Repr

/-- What the host has written to the command port. -/
structure HostStream where
  /-- The words, indexed from 0 (20_memory R53). -/
  words : List Word
  /-- The index of the first word that breaks the one-host discipline, if one does (R60, 70_reset R279; log 11). -/
  interleaveAt : Option Nat
deriving DecidableEq, Repr

/-- The state of the model. -/
structure State where
  /-- `CP` (10_state R21). -/
  cp : Nat
  /-- `FAULT` (R22). -/
  faulted : Bool
  /-- `ACTIVE` (R23). -/
  active : Bool
  /-- `BUS_OPEN` (R24). -/
  busOpen : Bool
  /-- The instance registers (R25 to R33). -/
  handle : DisplayHandle
  /-- `HDR`, `x[0..4]` (R34). -/
  latch : Latch
  /-- `STATUS` (R35). -/
  status : Status
  /-- `RESULT` (R35). -/
  result : Word
  /-- The bus trace, oldest first (R39). -/
  busTrace : List BusEvent
  /-- The response trace, oldest first (R39). -/
  responses : List (Status × Word)
  /-- The configuration, which no step changes (00_scope R6; log 6). -/
  cfg : Config
  /-- Input: the host stream (20_memory R53; log 7). -/
  host : HostStream
  /-- Input: the reset input asserted at this command boundary, with the stream the host writes after it (70_reset R270;
  log 12). -/
  resetInput : Option HostStream
  /-- Input: the environment's answers to the coming primitives, after which answers are free draws (log 4). -/
  answers : List BusAnswer
  /-- The model's own count of the answers drawn freely (log 4, 21). -/
  busDraws : Nat
  /-- The model's own count of the times that unspecified registers were drawn (log 1, 3, 21). -/
  draws : Nat
deriving DecidableEq, Repr

/-- Why a step does not happen. The block goes on in none of these cases, so each is the spec's "no step" under a name of the
model's (log 8); all are safe: a run that would wait only stops. -/
inductive Fault where
  /-- Raised by `step` while FAULT = 1: the engine takes no step until the reset input (10_state R22). Safe. -/
  | engineHalted
  /-- Raised by `step` when the stream holds fewer than Len words from CP: the engine waits (30_encoding R80). Safe. -/
  | streamIncomplete
  /-- Raised by BEGIN, END, the display-sync commands and the reset input when a bus primitive never completes: the engine
  is held for ever (40_lifecycle R102, 60_exceptions R249). Safe. -/
  | transferStalled
deriving DecidableEq, Repr

/-- Why a step has no meaning. Refusing never makes a false claim provable. -/
inductive Refusal where
  /-- Raised by `exec` for an instruction without a meaning: none is left. Safe. -/
  | notModelled (mnemonic : String)
  /-- CURSOR_RANGE, raised by PRINT when an exact cursor value leaves the signed 32-bit range (43_glyph_text R190,
  60_exceptions R248). Safe. -/
  | cursorRange
  /-- HOST_INTERLEAVE, raised by `step` when a word it reads breaks the one-host discipline (20_memory R60,
  60_exceptions R248). Safe. -/
  | hostInterleave
deriving DecidableEq, Repr

/-- What a step or an instruction answers. -/
abbrev Result := Host.Outcome State Fault Refusal

/-- The block at power-on (10_state R41, 70_reset R271): no instance, CP = 0, no bus primitive issued, no word written. The
registers the spec leaves unspecified hold the values that log 2 and log 3 name. -/
def State.reset : State where
  cp := 0
  faulted := false
  active := false
  busOpen := false
  handle :=
    { width := 1, height := 8, vcc := .external, busId := 0, devAddr := 0, fb := [], contrast := 0, cursorX := 0,
      cursorY := 0, textScale := 1, textColor := .off, textBg := .off, wrap := false }
  latch := { hdr := 0, x0 := 0, x1 := 0, x2 := 0, x3 := 0, x4 := 0 }
  status := .ok
  result := 0
  busTrace := []
  responses := []
  cfg := Config.atReset
  host := { words := [], interleaveAt := none }
  resetInput := none
  answers := []
  busDraws := 0
  draws := 0

end Sys2Proof.Machine
end

