-- ==== Sys2Proof/Machine/Flags.lean ====
section
/-! DEFINITION. The block has no condition flags (spec/10_state.md R36); STATUS and RESULT stand in their place. Their codes
and the rule for RESULT. -/

namespace Sys2Proof.Machine

/-- The 3-bit code of a status; codes 5, 6 and 7 are never written (60_exceptions R240, D28). -/
def Status.code : Status → BitVec 3
  | .ok => 0
  | .notInitialized => 1
  | .ioError => 2
  | .invalidArgument => 3
  | .illegalCommand => 4

/-- "A command with a status other than OK writes RESULT = 0" (10_state R35). -/
def resultFor (st : Status) (r : Word) : Word :=
  if st = .ok then r else 0

end Sys2Proof.Machine
end

