-- ==== Sys2Proof/WellFormed.lean ====
section
/-! DEFINITION. Which terms of Instr are commands of the stream. Every operand is a 32-bit word and every colour one of the
three by its type; what is left to check is the length of PRINT's payload (spec/30_encoding.md R76). -/

namespace Sys2Proof

/-- `PayloadWords(x[0]) = (n + 3) div 4` (R76). -/
abbrev payloadWords (n : Word) : Nat := (n.toNat + 3) / 4

/-- A command that the stream can hold. -/
def Instr.wf : Instr → Bool
  | .print n payload => payload.length == payloadWords n
  | _ => true

end Sys2Proof
end

