-- ==== Sys2Proof/Decode.lean ====
section
/-! DEFINITION. The decoder of host commands (spec/30_encoding.md R70 to R81), total on every list of words, which rejects by
name; after it the encoder, from the same table; and the byte order of a byte-serial carrier (20_memory R53). -/

namespace Sys2Proof

/-! ## Colour codes -/

/-- The 2-bit code of a colour (00_scope R11). -/
def Color.code : Color → BitVec 2
  | .off => 0
  | .on => 1
  | .inverse => 2

/-- The colour of a code; code 3 is reserved (R11, R73). -/
def Color.ofCode (f : BitVec 2) : Option Color :=
  if f = 0 then some .off else if f = 1 then some .on else if f = 2 then some .inverse else none

/-! ## The opcode map -/

/-- The 26 assigned opcodes (R74). -/
inductive Opcode where
  | beginInst | endInst | getWidth | getHeight
  | setPixel | getPixel | clear
  | drawLine | drawRect | fillRect | drawCircle | fillCircle
  | drawGlyph | setCursor | setTextSize | setTextColor | print
  | flush | invert | dim | setContrast
  | scrollRight | scrollLeft | scrollDiagRight | scrollDiagLeft | stopScroll
deriving DecidableEq, Repr

/-- One row of the opcode map: the opcode number, whether the fields C and B are used (R75), and NOps (R74). -/
structure OpRow where
  code : Byte
  usesC : Bool
  usesB : Bool
  nops : Nat
deriving DecidableEq, Repr

/-- The table of R74, row by row. -/
def Opcode.row : Opcode → OpRow
  | .beginInst       => ⟨0x01, false, false, 5⟩
  | .endInst         => ⟨0x02, false, false, 0⟩
  | .getWidth        => ⟨0x03, false, false, 0⟩
  | .getHeight       => ⟨0x04, false, false, 0⟩
  | .setPixel        => ⟨0x10, true,  false, 2⟩
  | .getPixel        => ⟨0x11, false, false, 2⟩
  | .clear           => ⟨0x12, false, false, 0⟩
  | .drawLine        => ⟨0x20, true,  false, 4⟩
  | .drawRect        => ⟨0x21, true,  false, 4⟩
  | .fillRect        => ⟨0x22, true,  false, 4⟩
  | .drawCircle      => ⟨0x23, true,  false, 3⟩
  | .fillCircle      => ⟨0x24, true,  false, 3⟩
  | .drawGlyph       => ⟨0x30, true,  true,  4⟩
  | .setCursor       => ⟨0x31, false, false, 2⟩
  | .setTextSize     => ⟨0x32, false, false, 1⟩
  | .setTextColor    => ⟨0x33, true,  true,  0⟩
  | .print           => ⟨0x34, false, false, 1⟩
  | .flush           => ⟨0x40, false, false, 0⟩
  | .invert          => ⟨0x41, false, false, 1⟩
  | .dim             => ⟨0x42, false, false, 1⟩
  | .setContrast     => ⟨0x43, false, false, 1⟩
  | .scrollRight     => ⟨0x44, false, false, 2⟩
  | .scrollLeft      => ⟨0x45, false, false, 2⟩
  | .scrollDiagRight => ⟨0x46, false, false, 2⟩
  | .scrollDiagLeft  => ⟨0x47, false, false, 2⟩
  | .stopScroll      => ⟨0x48, false, false, 0⟩

/-- Every assigned opcode. -/
def Opcode.all : List Opcode :=
  [.beginInst, .endInst, .getWidth, .getHeight, .setPixel, .getPixel, .clear,
   .drawLine, .drawRect, .fillRect, .drawCircle, .fillCircle,
   .drawGlyph, .setCursor, .setTextSize, .setTextColor, .print,
   .flush, .invert, .dim, .setContrast,
   .scrollRight, .scrollLeft, .scrollDiagRight, .scrollDiagLeft, .stopScroll]

/-- The opcode of a number; the map is complete, every other number is illegal (R74). -/
def Opcode.ofCode (op : Byte) : Option Opcode :=
  Opcode.all.find? fun o => o.row.code == op

/-! ## The header word -/

/-- Field `OP`, bits 7..0 (R71). -/
def headerOp (h : Word) : Byte := h.extractLsb' 0 8

/-- Field `C`, bits 9..8 (R71). -/
def headerC (h : Word) : BitVec 2 := h.extractLsb' 8 2

/-- Field `B`, bits 11..10 (R71). -/
def headerB (h : Word) : BitVec 2 := h.extractLsb' 10 2

/-- Field `RSV`, bits 31..12 (R71). -/
def headerRsv (h : Word) : BitVec 20 := h.extractLsb' 12 20

/-- Why a header is illegal (R78). -/
inductive Illegal where
  /-- `OP` is not in the table. -/
  | unassignedOpcode
  /-- `RSV != 0`. -/
  | reservedBits
  /-- A field that the opcode does not use is not 0. -/
  | unusedField
  /-- A colour field that the opcode uses holds 3. -/
  | reservedColor
deriving DecidableEq, Repr

/-- A colour field of a header: an unused field must be 0, a used one must not be 3 (R73, R75, R78). An unused field that
is 0 reads as code 0. -/
def colorField (used : Bool) (f : BitVec 2) : Except Illegal Color :=
  if used then
    match Color.ofCode f with
    | some c => .ok c
    | none => .error .reservedColor
  else if f = 0 then .ok .off else .error .unusedField

/-- A legal header: its opcode and its two colour fields. -/
structure Header where
  op : Opcode
  c : Color
  b : Color
deriving DecidableEq, Repr

/-- `Decode(HDR)` (R70, R78). -/
def decodeHeader (h : Word) : Except Illegal Header :=
  match Opcode.ofCode (headerOp h) with
  | none => .error .unassignedOpcode
  | some op =>
    if headerRsv h = 0 then
      match colorField op.row.usesC (headerC h), colorField op.row.usesB (headerB h) with
      | .ok c, .ok b => .ok ⟨op, c, b⟩
      | .error e, _ => .error e
      | .ok _, .error e => .error e
    else .error .reservedBits

/-! ## Whole commands -/

/-- What a decoder finds at the front of a stream. -/
inductive Decoded where
  /-- A whole command, and the words after it. -/
  | command (i : Instr) (rest : List Word)
  /-- An illegal header (R78). -/
  | illegal (why : Illegal)
  /-- Fewer words than the command has (R80). -/
  | incomplete
deriving DecidableEq, Repr

/-- A command without operand words. -/
def operands0 (i : Instr) (ws : List Word) : Decoded := .command i ws

/-- A command with one operand word. -/
def operands1 (f : Word → Instr) : List Word → Decoded
  | x0 :: rest => .command (f x0) rest
  | _ => .incomplete

/-- A command with two operand words. -/
def operands2 (f : Word → Word → Instr) : List Word → Decoded
  | x0 :: x1 :: rest => .command (f x0 x1) rest
  | _ => .incomplete

/-- A command with three operand words. -/
def operands3 (f : Word → Word → Word → Instr) : List Word → Decoded
  | x0 :: x1 :: x2 :: rest => .command (f x0 x1 x2) rest
  | _ => .incomplete

/-- A command with four operand words. -/
def operands4 (f : Word → Word → Word → Word → Instr) : List Word → Decoded
  | x0 :: x1 :: x2 :: x3 :: rest => .command (f x0 x1 x2 x3) rest
  | _ => .incomplete

/-- A command with five operand words. -/
def operands5 (f : Word → Word → Word → Word → Word → Instr) : List Word → Decoded
  | x0 :: x1 :: x2 :: x3 :: x4 :: rest => .command (f x0 x1 x2 x3 x4) rest
  | _ => .incomplete

/-- PRINT: the count, then `PayloadWords` payload words (R76). -/
def operandsPrint : List Word → Decoded
  | n :: rest =>
    if payloadWords n ≤ rest.length then
      .command (.print n (rest.take (payloadWords n))) (rest.drop (payloadWords n))
    else .incomplete
  | [] => .incomplete

/-- The operand words of a legal header, in the order of R74 (R70). -/
def decodeOperands (h : Header) (ws : List Word) : Decoded :=
  match h.op with
  | .beginInst => operands5 .beginInst ws
  | .endInst => operands0 .endInst ws
  | .getWidth => operands0 .getWidth ws
  | .getHeight => operands0 .getHeight ws
  | .setPixel => operands2 (.setPixel h.c) ws
  | .getPixel => operands2 .getPixel ws
  | .clear => operands0 .clear ws
  | .drawLine => operands4 (.drawLine h.c) ws
  | .drawRect => operands4 (.drawRect h.c) ws
  | .fillRect => operands4 (.fillRect h.c) ws
  | .drawCircle => operands3 (.drawCircle h.c) ws
  | .fillCircle => operands3 (.fillCircle h.c) ws
  | .drawGlyph => operands4 (.drawGlyph h.c h.b) ws
  | .setCursor => operands2 .setCursor ws
  | .setTextSize => operands1 .setTextSize ws
  | .setTextColor => operands0 (.setTextColor h.c h.b) ws
  | .print => operandsPrint ws
  | .flush => operands0 .flush ws
  | .invert => operands1 .invert ws
  | .dim => operands1 .dim ws
  | .setContrast => operands1 .setContrast ws
  | .scrollRight => operands2 .scrollRight ws
  | .scrollLeft => operands2 .scrollLeft ws
  | .scrollDiagRight => operands2 .scrollDiagRight ws
  | .scrollDiagLeft => operands2 .scrollDiagLeft ws
  | .stopScroll => operands0 .stopScroll ws

/-- The command at the front of a stream. The header is decoded before any operand is read (R70, R78). -/
def decode : List Word → Decoded
  | [] => .incomplete
  | h :: ws =>
    match decodeHeader h with
    | .error why => .illegal why
    | .ok hd => decodeOperands hd ws

/-! ## The encoder -/

/-- The row of the opcode map that a command is an instance of (R74). -/
def Instr.opcode : Instr → Opcode
  | .beginInst _ _ _ _ _ => .beginInst
  | .endInst => .endInst
  | .getWidth => .getWidth
  | .getHeight => .getHeight
  | .setPixel _ _ _ => .setPixel
  | .getPixel _ _ => .getPixel
  | .clear => .clear
  | .drawLine _ _ _ _ _ => .drawLine
  | .drawRect _ _ _ _ _ => .drawRect
  | .fillRect _ _ _ _ _ => .fillRect
  | .drawCircle _ _ _ _ => .drawCircle
  | .fillCircle _ _ _ _ => .fillCircle
  | .drawGlyph _ _ _ _ _ _ => .drawGlyph
  | .setCursor _ _ => .setCursor
  | .setTextSize _ => .setTextSize
  | .setTextColor _ _ => .setTextColor
  | .print _ _ => .print
  | .flush => .flush
  | .invert _ => .invert
  | .dim _ => .dim
  | .setContrast _ => .setContrast
  | .scrollRight _ _ => .scrollRight
  | .scrollLeft _ _ => .scrollLeft
  | .scrollDiagRight _ _ => .scrollDiagRight
  | .scrollDiagLeft _ _ => .scrollDiagLeft
  | .stopScroll => .stopScroll

/-- The colour field `C` of a command, code 0 where it is unused (R75). -/
def Instr.fieldC : Instr → Color
  | .setPixel c _ _ => c
  | .drawLine c _ _ _ _ => c
  | .drawRect c _ _ _ _ => c
  | .fillRect c _ _ _ _ => c
  | .drawCircle c _ _ _ => c
  | .fillCircle c _ _ _ => c
  | .drawGlyph c _ _ _ _ _ => c
  | .setTextColor c _ => c
  | .beginInst _ _ _ _ _ | .endInst | .getWidth | .getHeight | .getPixel _ _ | .clear | .setCursor _ _ | .setTextSize _
  | .print _ _ | .flush | .invert _ | .dim _ | .setContrast _ | .scrollRight _ _ | .scrollLeft _ _
  | .scrollDiagRight _ _ | .scrollDiagLeft _ _ | .stopScroll => .off

/-- The background field `B` of a command, code 0 where it is unused (R75). -/
def Instr.fieldB : Instr → Color
  | .drawGlyph _ b _ _ _ _ => b
  | .setTextColor _ b => b
  | .beginInst _ _ _ _ _ | .endInst | .getWidth | .getHeight | .setPixel _ _ _ | .getPixel _ _ | .clear
  | .drawLine _ _ _ _ _ | .drawRect _ _ _ _ _ | .fillRect _ _ _ _ _ | .drawCircle _ _ _ _ | .fillCircle _ _ _ _
  | .setCursor _ _ | .setTextSize _ | .print _ _ | .flush | .invert _ | .dim _ | .setContrast _ | .scrollRight _ _
  | .scrollLeft _ _ | .scrollDiagRight _ _ | .scrollDiagLeft _ _ | .stopScroll => .off

/-- The words after the header: the operands, and PRINT's payload (R74, R76). -/
def Instr.operands : Instr → List Word
  | .beginInst bus addr width height vcc => [bus, addr, width, height, vcc]
  | .setPixel _ x y => [x, y]
  | .getPixel x y => [x, y]
  | .drawLine _ x0 y0 x1 y1 => [x0, y0, x1, y1]
  | .drawRect _ x y w h => [x, y, w, h]
  | .fillRect _ x y w h => [x, y, w, h]
  | .drawCircle _ x0 y0 r => [x0, y0, r]
  | .fillCircle _ x0 y0 r => [x0, y0, r]
  | .drawGlyph _ _ x y ch scale => [x, y, ch, scale]
  | .setCursor x y => [x, y]
  | .setTextSize size => [size]
  | .print n payload => n :: payload
  | .invert flag => [flag]
  | .dim flag => [flag]
  | .setContrast v => [v]
  | .scrollRight start stop => [start, stop]
  | .scrollLeft start stop => [start, stop]
  | .scrollDiagRight start stop => [start, stop]
  | .scrollDiagLeft start stop => [start, stop]
  | .endInst | .getWidth | .getHeight | .clear | .setTextColor _ _ | .flush | .stopScroll => []

/-- "A header is `OP | (C << 8) | (B << 10)`" (R71). -/
def encodeHeader (op : Byte) (c b : BitVec 2) : Word :=
  op.setWidth 32 ||| (c.setWidth 32 <<< 8) ||| (b.setWidth 32 <<< 10)

/-- The words of a command. -/
def encode (i : Instr) : List Word :=
  encodeHeader i.opcode.row.code i.fieldC.code i.fieldB.code :: i.operands

/-- `Len = 1 + NOps(OP) + (OP = PRINT ? PayloadWords(x[0]) : 0)` (R77). -/
def Instr.len (i : Instr) : Nat :=
  1 + i.opcode.row.nops + (match i with | .print n _ => payloadWords n | _ => 0)

/-! ## Byte-serial carriers -/

/-- The four bytes of a word, least significant first (20_memory R53; also the packing of PRINT, R76). -/
def wordBytes (w : Word) : List Byte :=
  [w.extractLsb' 0 8, w.extractLsb' 8 8, w.extractLsb' 16 8, w.extractLsb' 24 8]

/-- The word that four bytes carry, least significant first (R53). -/
def bytesWord (b0 b1 b2 b3 : Byte) : Word :=
  b0.setWidth 32 ||| (b1.setWidth 32 <<< 8) ||| (b2.setWidth 32 <<< 16) ||| (b3.setWidth 32 <<< 24)

/-- The whole words that a byte-serial link has delivered (R53); the engine sees only whole words. -/
def serialWords : List Byte → List Word
  | b0 :: b1 :: b2 :: b3 :: rest => bytesWord b0 b1 b2 b3 :: serialWords rest
  | _ => []

/-- Decoding on any bytes: the command at the front of a byte-serial stream. -/
def decodeBytes (bytes : List Byte) : Decoded := decode (serialWords bytes)

/-! ## Words of the opcode table -/

/-- The words of an instruction whose `nbits` low bits are those of `w`, bit 0 the least significant bit of the first word,
and whose bits above are 0: six words (the longest command but for a payload), and after a PRINT header the payload that its
count asks for. -/
def tableWords (nbits w : Nat) : List Word :=
  let v := w % 2 ^ nbits
  let word (k : Nat) : Word := BitVec.ofNat 32 (v / 2 ^ (32 * k))
  let extra := if Opcode.ofCode (headerOp (word 0)) = some .print then payloadWords (word 1) else 0
  (List.range (6 + extra)).map word

/-- The instruction that the decoder reads from an instruction whose bits are `w` (see `tableWords`). -/
def decodeTableWord (nbits w : Nat) : Option Instr :=
  match decode (tableWords nbits w) with
  | .command i _ => some i
  | _ => none

end Sys2Proof
end

