-- ==== Sys2Proof/Machine/Operands.lean ====
section
/-! DEFINITION. How operands are read (spec/00_scope.md R8, 30_encoding R72): signed or unsigned, as a byte parameter, as a
scale, as text, as a geometry; and how an exact cursor value goes back into its register. -/

namespace Sys2Proof.Machine

/-- `zext_32(w)`, in `[0, 2^32)` (R8). -/
def zext32 (w : Word) : Nat := w.toNat

/-- `sext_32(w)`, in `[-2^31, 2^31)` (R8). -/
def sext32 (w : Word) : Int := w.toInt

/-- `Byte(v) = v mod 256` (30_encoding R86). -/
def byteOf (v : Int) : Byte := BitVec.ofInt 8 v

/-- `EffScale(s) = (s < 1) ? 1 : s` (43_glyph_text R183). -/
def effScale (s : Int) : Nat := if s < 1 then 1 else s.toNat

/-- `Cur(v)`: the register that holds `v`, or none where `v` leaves `[-2^31, 2^31)` (R189, R190). -/
def cur (v : Int) : Option Word :=
  if -2147483648 ≤ v ∧ v < 2147483648 then some (BitVec.ofInt 32 v) else none

/-- `TextByte(0) .. TextByte(n-1)`: the first `n` bytes of the payload, each word least significant byte first
(30_encoding R76, R188). -/
def textBytes (n : Word) (payload : List Word) : List Byte :=
  (payload.flatMap wordBytes).take (zext32 n)

/-- The power mode of the operand `vcc`: "`vcc` is 1 or 2" (40_lifecycle R105; D9). -/
def vccOf (v : Int) : Option Vcc :=
  if v = 1 then some .external else if v = 2 then some .internal else none

/-- The bounds of `ValidGeometry` but for `vcc` (R105). -/
def geometryFits (cap : Option Nat) (w h addr : Int) : Bool :=
  decide (1 ≤ w) && decide (8 ≤ h) && decide (h % 8 = 0) && decide (0 ≤ addr) && decide (addr ≤ 127) &&
    (match cap with
      | none => true
      | some c => decide (w * (h / 8) ≤ (c : Int)))

/-- `ValidGeometry(w, h, addr, vcc)` (R105): the power mode if the operands are valid. -/
def validGeometry (cap : Option Nat) (w h addr vcc : Int) : Option Vcc :=
  if geometryFits cap w h addr then vccOf vcc else none

end Sys2Proof.Machine
end

