-- ==== Sys2Proof/Machine/Ops.lean ====
section
/-! DEFINITION. The named operations over memory and registers: framebuffer bytes and pixels (spec/20_memory.md R50, R51,
41_pixel R130 to R132), the glyph ROM (R52), free values, the end of a command and `raise` (00_scope R9, 60_exceptions R241),
the illegal-header fault (30_encoding R78), the bus primitives (40_lifecycle R100 to R103), teardown (R111) and the reset
input (70_reset R270). No error transfers control, so there is no return from one (60_exceptions R251). -/

namespace Sys2Proof.Machine

/-! ## Bytes of an address space -/

/-- What an unlisted address reads as: BEGIN makes the framebuffer all zero (10_state R28, D10; log 13). -/
def unlistedByte : Byte := 0

/-- `MemRead(a, 1)` (20_memory R50). -/
def Memory.read : Memory → Nat → Byte
  | [], _ => unlistedByte
  | (k, v) :: m, a => if k = a then v else Memory.read m a

/-- `MemWrite(a, 1, v)` (20_memory R50), keeping the list in its canonical form. -/
def Memory.write : Memory → Nat → Byte → Memory
  | [], a, v => if v = unlistedByte then [] else [(a, v)]
  | (k, w) :: m, a, v =>
    if a < k then (if v = unlistedByte then (k, w) :: m else (a, v) :: (k, w) :: m)
    else if a = k then (if v = unlistedByte then m else (a, v) :: m)
    else (k, w) :: Memory.write m a v

/-- The canonical form: addresses strictly rising, and no entry equal to what an unlisted address reads as. -/
abbrev Memory.wf (m : Memory) : Prop :=
  m.Pairwise (fun p q => p.1 < q.1) ∧ ∀ p ∈ m, p.2 ≠ unlistedByte

/-- The memory that results from writing a list of cells, first to last, over an empty one. -/
def Memory.ofCells (cells : List Host.Cell) : Memory :=
  cells.foldl (fun m p => m.write p.1 p.2) []

/-! ## Pixels -/

/-- `PAGES = H div 8` (00_scope R12, 10_state R25). -/
def DisplayHandle.pages (h : DisplayHandle) : Nat := h.height / 8

/-- The size of the framebuffer address space, `W * PAGES` bytes (20_memory R50). -/
def DisplayHandle.fbSize (h : DisplayHandle) : Nat := h.width * h.pages

/-- `FB[0], FB[1], ..., FB[W*PAGES-1]` (20_memory R55). -/
def DisplayHandle.fbBytes (h : DisplayHandle) : List Byte := (List.range h.fbSize).map h.fb.read

/-- `InBounds(x, y)` (41_pixel R130). -/
abbrev DisplayHandle.InBounds (h : DisplayHandle) (x y : Int) : Prop :=
  0 ≤ x ∧ x < h.width ∧ 0 ≤ y ∧ y < h.height

/-- `PixIndex(x, y) = x + (y div 8) * W`, for a pixel of the panel (20_memory R51). -/
def DisplayHandle.pixIndex (h : DisplayHandle) (x y : Int) : Nat := x.toNat + (y.toNat / 8) * h.width

/-- `PixBit(y) = y mod 8` (20_memory R51). -/
def pixBit (y : Int) : Nat := y.toNat % 8

/-- The 8-bit mask `1 << (y mod 8)` (41_pixel R131). -/
def pixMask (y : Int) : Byte := 1 <<< pixBit y

/-- What a colour does to a byte under a mask (41_pixel R131): clear, set or toggle. -/
def Color.paint (c : Color) (v m : Byte) : Byte :=
  match c with
  | .off => v &&& ~~~m
  | .on => v ||| m
  | .inverse => v ^^^ m

/-- `Plot(x, y, c)` (41_pixel R131); out of bounds it is a silent no-op. -/
def DisplayHandle.plot (h : DisplayHandle) (x y : Int) (c : Color) : DisplayHandle :=
  if h.InBounds x y then
    { h with fb := h.fb.write (h.pixIndex x y) (Color.paint c (h.fb.read (h.pixIndex x y)) (pixMask y)) }
  else h

/-- Whether pixel `(x, y)` is lit; out of bounds it reads "off" (41_pixel R134). -/
def DisplayHandle.pixel (h : DisplayHandle) (x y : Int) : Bool :=
  if h.InBounds x y then (h.fb.read (h.pixIndex x y) >>> pixBit y) &&& 1 = 1 else false

/-- A pixel set, listed without repeats (00_scope R10). -/
abbrev PixelSet := List (Int × Int)

/-- `Apply(S, c)`: `Plot` once for each pixel of the set (41_pixel R132). -/
def DisplayHandle.apply (h : DisplayHandle) (S : PixelSet) (c : Color) : DisplayHandle :=
  S.foldl (fun h p => h.plot p.1 p.2 c) h

/-! ## The glyph ROM -/

/-- `Glyph(ch, i)`: column `i` of the glyph, blank outside 32..126 (43_glyph_text R180); inside it is `GlyphRead(ch, i)`
(20_memory R52). -/
def glyphColumn (rom : GlyphRom) (ch i : Nat) : Byte :=
  if h : 32 ≤ ch ∧ ch ≤ 126 ∧ i ≤ 4 then rom[(ch - 32) * 5 + i]'(by omega) else 0

/-! ## Free values -/

/-- The instance registers with unspecified contents (10_state R40, 93 U2), drawn at `n`; the ranges of the registers' types
are kept (R20, R25, R31; log 1). -/
def freeHandle (n : Nat) : DisplayHandle where
  width := 1 + (Config.freeWord n 0).toNat % 2147483647
  height := 8 * (1 + (Config.freeWord n 1).toNat % 268435455)
  vcc := if Config.freeWord n 2 = 0 then .external else .internal
  busId := Config.freeWord n 3
  devAddr := (Config.freeWord n 4).setWidth 7
  fb := Memory.ofCells (Config.freeCells n)
  contrast := (Config.freeWord n 5).setWidth 8
  cursorX := Config.freeWord n 6
  cursorY := Config.freeWord n 7
  textScale := 1 + (Config.freeWord n 8).toNat % 2147483647
  textColor := (Color.ofCode ((Config.freeWord n 9).setWidth 2)).getD .off
  textBg := (Color.ofCode ((Config.freeWord n 10).setWidth 2)).getD .off
  wrap := Config.freeWord n 11 = 0

/-- The command latch with unspecified contents (10_state R34, 93 U13), drawn at `n` (log 3). -/
def freeLatch (n : Nat) : Latch where
  hdr := Config.freeWord n 12
  x0 := Config.freeWord n 13
  x1 := Config.freeWord n 14
  x2 := Config.freeWord n 15
  x3 := Config.freeWord n 16
  x4 := Config.freeWord n 17

/-- The instance registers become unspecified (10_state R40). -/
def State.freeHandle (s : State) : State :=
  { s with handle := Machine.freeHandle s.draws, draws := s.draws + 1 }

/-- The command latch becomes unspecified (10_state R34). -/
def State.freeLatch (s : State) : State :=
  { s with latch := Machine.freeLatch s.draws, draws := s.draws + 1 }

/-! ## The end of a command -/

/-- The response of a command: STATUS, RESULT, and its entry in the response trace (10_state R35, R39). -/
def State.respond (s : State) (st : Status) (r : Word) : State :=
  { s with status := st, result := resultFor st r, responses := s.responses ++ [(st, resultFor st r)] }

/-- A legal command completes: the response, then `pc <- CP + Len` (30_encoding R79); the latch's contents are unspecified
from then on (10_state R34). -/
def State.complete (s : State) (len : Nat) (st : Status) (r : Word) : State :=
  { (s.respond st r).freeLatch with cp := s.cp + len }

/-- `return r`: status OK and result `r` (00_scope R9). -/
def State.returns (s : State) (len : Nat) (r : Word) : State := s.complete len .ok r

/-- `done`: status OK and result 0 (00_scope R9). -/
def State.done (s : State) (len : Nat) : State := s.complete len .ok 0

/-- `raise E`, for an `E` other than ILLEGAL_COMMAND: effects performed before it stay, CP advances (60_exceptions R241). -/
def State.raiseError (s : State) (len : Nat) (e : Status) : State := s.complete len e 0

/-- The engine fault ILLEGAL_COMMAND (30_encoding R78, 60_exceptions R245): HDR holds the header, STATUS and RESULT are
written, FAULT is set, and CP stays. -/
def State.illegalHeader (s : State) (hdr : Word) : State :=
  { s.respond .illegalCommand 0 with faulted := true, latch := { s.latch with hdr := hdr } }

/-- "`if ACTIVE = 0: raise NOT_INITIALIZED`", which comes before every other check (60_exceptions R242, R247). -/
def State.whenActive (s : State) (len : Nat) (k : State → Result) : Result :=
  if s.active then k s else .next (s.raiseError len .notInitialized)

/-! ## The bus port -/

/-- The bytes of the frame that a primitive transfers (30_encoding R84); opening, binding and closing transfer none. -/
def BusPrim.frame : BusPrim → List Byte
  | .cmdFrame b => [0x00, b]
  | .dataFrame bytes => 0x40 :: bytes
  | .openBus _ => []
  | .bindAddr _ => []
  | .closeBus => []

/-- The bytes that reached the controller: the whole frame on Ok, some front part of it on Fail (40_lifecycle R101). -/
def BusEvent.delivered (e : BusEvent) : List Byte :=
  match e.outcome with
  | .ok => e.prim.frame
  | .fail reached => e.prim.frame.take reached

/-- One entry of the bus trace (10_state R39). -/
def State.record (s : State) (p : BusPrim) (o : BusOutcome) : State :=
  { s with busTrace := s.busTrace ++ [⟨p, o⟩] }

/-- The environment's answer to the primitive that comes after `k` further ones: the one given for it, else a free draw
(40_lifecycle R100, D35; log 4). -/
def State.answerAt (s : State) (k : Nat) : BusAnswer :=
  match s.answers[k]? with
  | some a => a
  | none => Config.busAnswer (s.busDraws + (k - s.answers.length))

/-- The state once the next answer has been taken. -/
def State.dropAnswer (s : State) : State :=
  match s.answers with
  | _ :: rest => { s with answers := rest }
  | [] => { s with busDraws := s.busDraws + 1 }

/-- How a bus primitive, or a sequence of them, ends. -/
inductive BusResult where
  /-- Every primitive succeeded. -/
  | ok (s : State)
  /-- A primitive failed, and no later one was issued. -/
  | fail (s : State)
  /-- A primitive never completed (R102). -/
  | stalled
deriving DecidableEq, Repr

/-- One primitive that has an outcome: `BusOpen`, `BusBind`, `BusCmd` or `BusData` (40_lifecycle R100, R101). A failed frame
delivers at most its own length. -/
def State.issue (s : State) (p : BusPrim) : BusResult :=
  match s.answerAt 0 with
  | .ok => .ok (s.dropAnswer.record p .ok)
  | .fail reached => .fail (s.dropAnswer.record p (.fail (min reached p.frame.length)))
  | .never => .stalled

/-- `BusClose(); BUS_OPEN <- 0`: it always completes (40_lifecycle R100, R111; D44). -/
def State.closeBus (s : State) : State :=
  { s.record .closeBus .ok with busOpen := false }

/-- Go on after success; a failure or a stall ends the sequence. -/
def BusResult.andThen (r : BusResult) (k : State → BusResult) : BusResult :=
  match r with
  | .ok s => k s
  | .fail s => .fail s
  | .stalled => .stalled

/-- `SendSeq(list)`: consecutive command frames, stopping at the first failure (40_lifecycle R103). -/
def State.sendSeq (s : State) : List Byte → BusResult
  | [] => .ok s
  | b :: bs =>
    match s.issue (.cmdFrame b) with
    | .ok s' => s'.sendSeq bs
    | .fail s' => .fail s'
    | .stalled => .stalled

/-- The end of a command that is done once its primitives have succeeded, and raises IO_ERROR at the first that fails
(60_exceptions R243). `k` is what it does on success. -/
def BusResult.conclude (r : BusResult) (len : Nat) (k : State → State) : Result :=
  match r with
  | .ok s => .next ((k s).done len)
  | .fail s => .next (s.raiseError len .ioError)
  | .stalled => .fault .transferStalled

/-! ## Teardown and the reset input -/

/-- `Release()`: close the bus, free the framebuffer (40_lifecycle R104, R108). -/
def State.release (s : State) : State := s.closeBus.freeHandle

/-- `Teardown()`: the power-off frame, its outcome ignored, then release and `ACTIVE <- 0` (40_lifecycle R111, D26). None
when the frame never completes. -/
def State.teardown (s : State) : Option State :=
  match s.issue (.cmdFrame s.cfg.cmd.displayOff) with
  | .ok s' => some { s'.release with active := false }
  | .fail s' => some { s'.release with active := false }
  | .stalled => none

/-- `if ACTIVE = 1: Teardown()` (40_lifecycle R104, R111; 70_reset R270). -/
def State.teardownIfActive (s : State) : Option State :=
  if s.active then s.teardown else some s

/-- The reset input (70_reset R270): teardown if an instance is active, the control registers at their reset values, every
other register unspecified (10_state R41). The host then writes a new stream from word 0 (R271; log 12). -/
def State.takeReset (s : State) (hs : HostStream) : Option State :=
  s.teardownIfActive.map fun s' =>
    { s'.freeHandle.freeLatch with
      cp := 0, faulted := false, active := false, busOpen := false, status := .ok, result := 0,
      host := hs, resetInput := none }

/-! ## The host's side of the command port -/

/-- The host writes further words (00_scope R2, 20_memory R53); the engine never does. -/
def State.hostWrites (s : State) (ws : List Word) : State :=
  { s with host := { s.host with words := s.host.words ++ ws } }

/-- The host asserts the reset input and writes `hs` after it (70_reset R270). -/
def State.assertReset (s : State) (hs : HostStream) : State := { s with resetInput := some hs }

end Sys2Proof.Machine
end

