-- ==== Sys2Proof/Machine/Lifecycle.lean ====
section
/-! DEFINITION. The instance lifecycle (spec/40_lifecycle.md): BEGIN with its initialization sequence, END, and the geometry
getters. -/

namespace Sys2Proof.Machine

/-- `InitSeq(h, vcc)`: the 26 controller bytes of the initialization (40_lifecycle R107). -/
def initSeq (cmd : Cmd) (h : Int) (vcc : Vcc) : List Byte :=
  [cmd.displayOff,
   cmd.setDisplayClockDiv, cmd.clockDivValue,
   cmd.setMultiplex, byteOf (h - 1),
   cmd.setDisplayOffset, 0x00,
   cmd.setStartLine0,
   cmd.chargePump, (match vcc with | .external => cmd.chargePumpExt | .internal => cmd.chargePumpInt),
   cmd.memoryMode, cmd.memoryModeHoriz,
   cmd.segRemapInv,
   cmd.comScanDec,
   cmd.setComPins, (if h = 16 ∨ h = 32 then cmd.comPinsSmall else cmd.comPinsOther),
   cmd.setContrast, (match vcc with | .external => cmd.contrastExt | .internal => cmd.contrastInt),
   cmd.setPrecharge, (match vcc with | .external => cmd.prechargeExt | .internal => cmd.prechargeInt),
   cmd.setVcomDetect, cmd.vcomDetectValue,
   cmd.displayAllOnResume,
   cmd.normalDisplay,
   cmd.deactivateScroll,
   cmd.displayOn]

/-- The contrast that the initialization sends and CONTRAST then holds (40_lifecycle R104, R110). -/
def defaultContrast (cmd : Cmd) : Vcc → Byte
  | .external => cmd.contrastExt
  | .internal => cmd.contrastInt

/-- The geometry, the bus identity and an all-zero framebuffer, before the bus is opened (40_lifecycle R104). -/
def State.allocate (s : State) (bus addr w h : Word) (vcc : Vcc) : State :=
  { s with handle :=
      { s.handle with
        width := (sext32 w).toNat, height := (sext32 h).toNat, vcc := vcc, busId := bus,
        devAddr := BitVec.ofInt 7 (sext32 addr), fb := [] } }

/-- The instance becomes live: contrast, text defaults and `ACTIVE <- 1` (40_lifecycle R104, R110). -/
def State.activate (s : State) (vcc : Vcc) : State :=
  { s with
    active := true
    handle :=
      { s.handle with
        contrast := defaultContrast s.cfg.cmd vcc, cursorX := 0, cursorY := 0, textScale := 1,
        textColor := .on, textBg := .on, wrap := true } }

/-- `BusOpen`, `BusBind` and the initialization sequence, with the releases of their failures (40_lifecycle R104, R108). -/
def State.bringUp (s : State) (bus addr h : Word) (vcc : Vcc) : Result :=
  match s.issue (.openBus bus) with
  | .stalled => .fault .transferStalled
  | .fail s1 => .next (s1.freeHandle.raiseError 6 .ioError)
  | .ok s1 =>
    match (State.issue { s1 with busOpen := true } (.bindAddr (BitVec.ofInt 7 (sext32 addr)))).andThen
        fun s2 => s2.sendSeq (initSeq s2.cfg.cmd (sext32 h) vcc) with
    | .stalled => .fault .transferStalled
    | .fail s2 => .next (s2.release.raiseError 6 .ioError)
    | .ok s2 => .next ((s2.activate vcc).done 6)

/-- BEGIN (40_lifecycle R104): validate, tear an old instance down (R106), allocate, bring the controller up. -/
def execBeginInst (bus addr w h vcc : Word) (s : State) : Result :=
  match validGeometry s.cfg.fbCapacity (sext32 w) (sext32 h) (sext32 addr) (sext32 vcc) with
  | none => .next (s.raiseError 6 .invalidArgument)
  | some mode =>
    match s.teardownIfActive with
    | none => .fault .transferStalled
    | some s' => (s'.allocate bus addr w h mode).bringUp bus addr h mode

/-- END (40_lifecycle R111): teardown if an instance is active; always OK. -/
def execEndInst (s : State) : Result :=
  match s.teardownIfActive with
  | none => .fault .transferStalled
  | some s' => .next (s'.done 1)

/-- GETWIDTH (40_lifecycle R113). -/
def execGetWidth (s : State) : Result :=
  s.whenActive 1 fun s => .next (s.returns 1 (BitVec.ofNat 32 s.handle.width))

/-- GETHEIGHT (40_lifecycle R114). -/
def execGetHeight (s : State) : Result :=
  s.whenActive 1 fun s => .next (s.returns 1 (BitVec.ofNat 32 s.handle.height))

end Sys2Proof.Machine
end

