-- ==== Sys2Proof/Machine/Pixel.lean ====
section
/-! DEFINITION. Pixel access (spec/41_pixel.md): SETPIXEL, GETPIXEL, CLEAR. -/

namespace Sys2Proof.Machine

/-- A change of the instance registers. -/
def State.mapHandle (s : State) (f : DisplayHandle → DisplayHandle) : State := { s with handle := f s.handle }

/-- A command that only draws: NOT_INITIALIZED without an instance, else the drawing and `done` (R133, R150 to R156, R182). -/
def State.updateHandle (s : State) (len : Nat) (f : DisplayHandle → DisplayHandle) : Result :=
  s.whenActive len fun s => .next ((s.mapHandle f).done len)

/-- SETPIXEL (41_pixel R133). -/
def execSetPixel (c : Color) (x y : Word) (s : State) : Result :=
  s.updateHandle 3 fun h => h.plot (sext32 x) (sext32 y) c

/-- GETPIXEL (41_pixel R134): 1 when the pixel is lit, else 0 (D40). -/
def execGetPixel (x y : Word) (s : State) : Result :=
  s.whenActive 3 fun s => .next (s.returns 3 (if s.handle.pixel (sext32 x) (sext32 y) then 1 else 0))

/-- CLEAR (41_pixel R135): every byte of the framebuffer becomes 0x00, the rest of the instance stays (D49). -/
def execClear (s : State) : Result :=
  s.updateHandle 1 fun h => { h with fb := (List.range h.fbSize).foldl (fun m a => m.write a 0x00) h.fb }

end Sys2Proof.Machine
end

