-- ==== Sys2Proof/Machine/PixelSets.lean ====
section
/-! DEFINITION. The pixel sets of the raster and glyph commands (spec/42_raster.md R151 to R156, 43_glyph_text R181), each as
the list of its in-panel pixels without repeats: pixels outside the panel are ignored by `Plot` (00_scope R10; log 16). All
arithmetic is exact (00_scope R8). -/

namespace Sys2Proof.Machine

/-- The integers `lo, lo+1, ..., hi-1`; none when `hi <= lo`. -/
def span (lo hi : Int) : List Int := (List.range (hi - lo).toNat).map fun (k : Nat) => lo + (k : Int)

/-- The pixels of the panel inside the `w × h` block whose top-left corner is `(x, y)`; none when `w <= 0` or `h <= 0`. -/
def DisplayHandle.window (d : DisplayHandle) (x y w h : Int) : PixelSet :=
  (span (max x 0) (min (x + w) d.width)).flatMap fun px =>
    (span (max y 0) (min (y + h) d.height)).map fun py => (px, py)

/-- The panel's part of a finite set given by listing points, each kept once (41_pixel R132, D15). -/
def DisplayHandle.onPanel (d : DisplayHandle) (points : List (Int × Int)) : PixelSet :=
  (points.filter fun p => d.InBounds p.1 p.2).dedup

/-! ## Lines -/

/-- The loop of `LineSet` (42_raster R151), with `fuel` iterations at most; both tests use `e2` (D13). -/
def lineLoop (x1 y1 dx dy sx sy : Int) : Nat → Int → Int → Int → List (Int × Int)
  | 0, _, _, _ => []
  | fuel + 1, x, y, err =>
    (x, y) ::
      if x = x1 ∧ y = y1 then []
      else
        let e2 := 2 * err
        let xStep := e2 > -dy
        let yStep := e2 < dx
        lineLoop x1 y1 dx dy sx sy fuel (if xStep then x + sx else x) (if yStep then y + sy else y)
          (err - (if xStep then dy else 0) + (if yStep then dx else 0))

/-- The points that the loop of `LineSet(x0, y0, x1, y1)` visits, in order (R151). It visits `max(dx, dy) + 1`. -/
def linePoints (x0 y0 x1 y1 : Int) : List (Int × Int) :=
  let dx : Int := (x1 - x0).natAbs
  let dy : Int := (y1 - y0).natAbs
  let sx : Int := if x0 < x1 then 1 else -1
  let sy : Int := if y0 < y1 then 1 else -1
  lineLoop x1 y1 dx dy sx sy ((max dx dy).toNat + 1) x0 y0 (dx - dy)

/-- `LineSet` on the panel (R150, R151). -/
def DisplayHandle.lineSet (d : DisplayHandle) (x0 y0 x1 y1 : Int) : PixelSet :=
  d.onPanel (linePoints x0 y0 x1 y1)

/-! ## Rectangles -/

/-- `RectFill(x, y, w, h)` on the panel (42_raster R153). -/
def DisplayHandle.rectFill (d : DisplayHandle) (x y w h : Int) : PixelSet := d.window x y w h

/-- `RectOutline(x, y, w, h)` on the panel: the border pixels, corners once (42_raster R152, D16). -/
def DisplayHandle.rectOutline (d : DisplayHandle) (x y w h : Int) : PixelSet :=
  (d.window x y w h).filter fun p =>
    p.1 - x = 0 ∨ p.1 - x = w - 1 ∨ p.2 - y = 0 ∨ p.2 - y = h - 1

/-! ## Circles -/

/-- `Oct(x0, y0, x, y)`: the eight symmetric octant points (42_raster R155). -/
def octants (x0 y0 x y : Int) : List (Int × Int) :=
  [(x0 + x, y0 + y), (x0 - x, y0 + y), (x0 + x, y0 - y), (x0 - x, y0 - y),
   (x0 + y, y0 + x), (x0 - y, y0 + x), (x0 + y, y0 - x), (x0 - y, y0 - x)]

/-- The loop of `CircleSet` (42_raster R155, D14), with `fuel` iterations at most; `x` grows by one in each and `y` never
grows. -/
def circleLoop (x0 y0 : Int) : Nat → Int → Int → Int → List (Int × Int)
  | 0, _, _, _ => []
  | fuel + 1, x, y, d =>
    if x ≤ y then
      octants x0 y0 x y ++
        (if d < 0 then circleLoop x0 y0 fuel (x + 1) y (d + 4 * x + 6)
         else circleLoop x0 y0 fuel (x + 1) (y - 1) (d + 4 * (x - y) + 10))
    else []

/-- The points that the loop of `CircleSet(x0, y0, r)` plots; none for `r < 0` (R155, D17). -/
def circlePoints (x0 y0 r : Int) : List (Int × Int) :=
  circleLoop x0 y0 (r + 1).toNat 0 r (3 - 2 * r)

/-- `CircleSet(x0, y0, r)` on the panel (R155). -/
def DisplayHandle.circleSet (d : DisplayHandle) (x0 y0 r : Int) : PixelSet :=
  d.onPanel (circlePoints x0 y0 r)

/-- `DiscSet(x0, y0, r)` on the panel: a dense scan over the bounding square (42_raster R156). -/
def DisplayHandle.discSet (d : DisplayHandle) (x0 y0 r : Int) : PixelSet :=
  (d.window (x0 - r) (y0 - r) (2 * r + 1) (2 * r + 1)).filter fun p =>
    (p.1 - x0) * (p.1 - x0) + (p.2 - y0) * (p.2 - y0) ≤ r * r

/-! ## Glyph cells -/

/-- Whether the glyph bit that covers pixel `p` of the cell at `(x, y)`, drawn at scale `s`, is set: column
`i = (px - x) div s`, row `j = (py - y) div s` (43_glyph_text R181). -/
def glyphBit (rom : GlyphRom) (x y : Int) (ch s : Nat) (p : Int × Int) : Bool :=
  (glyphColumn rom ch ((p.1 - x).toNat / s)).getLsbD ((p.2 - y).toNat / s)

/-- `GlyphFg(x, y, ch, s)` on the panel (R181). -/
def DisplayHandle.glyphFg (d : DisplayHandle) (rom : GlyphRom) (x y : Int) (ch s : Nat) : PixelSet :=
  (d.window x y (5 * s) (8 * s)).filter fun p => glyphBit rom x y ch s p

/-- `GlyphBg(x, y, ch, s)` on the panel (R181). -/
def DisplayHandle.glyphBg (d : DisplayHandle) (rom : GlyphRom) (x y : Int) (ch s : Nat) : PixelSet :=
  (d.window x y (5 * s) (8 * s)).filter fun p => !glyphBit rom x y ch s p

end Sys2Proof.Machine
end

