-- ==== Sys2Proof/Machine/Raster.lean ====
section
/-! DEFINITION. Raster scan conversion (spec/42_raster.md): lines, rectangles, circles. Each command applies its colour to its
pixel set; none issues a bus primitive. -/

namespace Sys2Proof.Machine

/-- DRAWLINE (42_raster R150). -/
def execDrawLine (c : Color) (x0 y0 x1 y1 : Word) (s : State) : Result :=
  s.updateHandle 5 fun h => h.apply (h.lineSet (sext32 x0) (sext32 y0) (sext32 x1) (sext32 y1)) c

/-- DRAWRECT (42_raster R152). -/
def execDrawRect (c : Color) (x y w h : Word) (s : State) : Result :=
  s.updateHandle 5 fun d => d.apply (d.rectOutline (sext32 x) (sext32 y) (sext32 w) (sext32 h)) c

/-- FILLRECT (42_raster R153). -/
def execFillRect (c : Color) (x y w h : Word) (s : State) : Result :=
  s.updateHandle 5 fun d => d.apply (d.rectFill (sext32 x) (sext32 y) (sext32 w) (sext32 h)) c

/-- DRAWCIRCLE (42_raster R155). -/
def execDrawCircle (c : Color) (x0 y0 r : Word) (s : State) : Result :=
  s.updateHandle 4 fun h => h.apply (h.circleSet (sext32 x0) (sext32 y0) (sext32 r)) c

/-- FILLCIRCLE (42_raster R156). -/
def execFillCircle (c : Color) (x0 y0 r : Word) (s : State) : Result :=
  s.updateHandle 4 fun h => h.apply (h.discSet (sext32 x0) (sext32 y0) (sext32 r)) c

end Sys2Proof.Machine
end

