-- ==== Sys2Proof/Machine/Sync.lean ====
section
/-! DEFINITION. Display sync and auxiliary device commands (spec/44_display_sync.md): FLUSH, polarity, dimming, contrast and
scrolling. Every controller byte is one command frame (40_lifecycle R103); the first failed frame ends the command with
IO_ERROR. -/

namespace Sys2Proof.Machine

/-- A command that sends controller bytes and then does `k` (40_lifecycle R103, 60_exceptions R242, R243). -/
def State.sendAndDo (s : State) (len : Nat) (bytes : State → List Byte) (k : State → State) : Result :=
  s.whenActive len fun s => (s.sendSeq (bytes s)).conclude len k

/-- The column- and page-address-range commands of FLUSH (44_display_sync R210, D43). -/
def windowBytes (cmd : Cmd) (h : DisplayHandle) : List Byte :=
  [cmd.columnAddr, 0x00, byteOf ((h.width : Int) - 1), cmd.pageAddr, 0x00, byteOf ((h.pages : Int) - 1)]

/-- FLUSH (44_display_sync R210): six command frames, then the whole framebuffer as one data frame. -/
def execFlush (s : State) : Result :=
  s.whenActive 1 fun s =>
    ((s.sendSeq (windowBytes s.cfg.cmd s.handle)).andThen fun s => s.issue (.dataFrame s.handle.fbBytes)).conclude 1 id

/-- INVERT (44_display_sync R212): any nonzero flag means true (D24). -/
def execInvert (flag : Word) (s : State) : Result :=
  s.sendAndDo 2 (fun s => [if zext32 flag ≠ 0 then s.cfg.cmd.invertDisplay else s.cfg.cmd.normalDisplay]) id

/-- DIM (44_display_sync R214): contrast 0 is sent for a true flag, nothing for a false one; CONTRAST is not written. -/
def execDim (flag : Word) (s : State) : Result :=
  s.sendAndDo 2 (fun s => if zext32 flag ≠ 0 then [s.cfg.cmd.setContrast, 0x00] else []) id

/-- SETCONTRAST (44_display_sync R216): CONTRAST is written only when both frames succeed (D23). -/
def execSetContrast (v : Word) (s : State) : Result :=
  s.whenActive 2 fun s =>
    if sext32 v < 0 ∨ sext32 v > 255 then .next (s.raiseError 2 .invalidArgument)
    else
      (s.sendSeq [s.cfg.cmd.setContrast, byteOf (sext32 v)]).conclude 2 fun s =>
        { s with handle := { s.handle with contrast := byteOf (sext32 v) } }

/-- The bytes of a horizontal scroll start (44_display_sync R218, D25; log 15). -/
def hScrollBytes (cmd : Cmd) (first : Byte) (start stop : Word) : List Byte :=
  [first, cmd.scrollDummy00, byteOf (zext32 start), cmd.scrollDummy00, byteOf (zext32 stop), cmd.scrollDummy00,
   cmd.scrollDummyFF, cmd.activateScroll]

/-- The bytes of a diagonal scroll start (44_display_sync R220, D25; log 15). -/
def diagScrollBytes (cmd : Cmd) (height : Nat) (first : Byte) (start stop : Word) : List Byte :=
  [cmd.setVScrollArea, cmd.scrollDummy00, byteOf height, first, cmd.scrollDummy00, byteOf (zext32 start),
   cmd.scrollDummy00, byteOf (zext32 stop), cmd.scrollVOffset, cmd.activateScroll]

/-- SCROLLRIGHT (44_display_sync R218). -/
def execScrollRight (start stop : Word) (s : State) : Result :=
  s.sendAndDo 3 (fun s => hScrollBytes s.cfg.cmd s.cfg.cmd.rightHScroll start stop) id

/-- SCROLLLEFT (44_display_sync R219). -/
def execScrollLeft (start stop : Word) (s : State) : Result :=
  s.sendAndDo 3 (fun s => hScrollBytes s.cfg.cmd s.cfg.cmd.leftHScroll start stop) id

/-- SCROLLDIAGRIGHT (44_display_sync R220). -/
def execScrollDiagRight (start stop : Word) (s : State) : Result :=
  s.sendAndDo 3 (fun s => diagScrollBytes s.cfg.cmd s.handle.height s.cfg.cmd.vRightHScroll start stop) id

/-- SCROLLDIAGLEFT (44_display_sync R221). -/
def execScrollDiagLeft (start stop : Word) (s : State) : Result :=
  s.sendAndDo 3 (fun s => diagScrollBytes s.cfg.cmd s.handle.height s.cfg.cmd.vLeftHScroll start stop) id

/-- STOPSCROLL (44_display_sync R222). -/
def execStopScroll (s : State) : Result :=
  s.sendAndDo 1 (fun s => [s.cfg.cmd.deactivateScroll]) id

end Sys2Proof.Machine
end

