-- ==== Sys2Proof/Machine/Text.lean ====
section
/-! DEFINITION. Glyph blitting and text (spec/43_glyph_text.md): DRAWGLYPH, the text-state setters, PRINT. -/

namespace Sys2Proof.Machine

/-- `DrawChar(x, y, ch, c, b, s)` (43_glyph_text R182): the background is painted only when it differs from the colour. -/
def DisplayHandle.drawChar (d : DisplayHandle) (rom : GlyphRom) (x y : Int) (ch : Nat) (c b : Color) (s : Nat) :
    DisplayHandle :=
  let d1 := d.apply (d.glyphFg rom x y ch s) c
  if b = c then d1 else d1.apply (d1.glyphBg rom x y ch s) b

/-- DRAWGLYPH (43_glyph_text R182). -/
def execDrawGlyph (c b : Color) (x y ch scale : Word) (s : State) : Result :=
  s.updateHandle 5 fun d => d.drawChar s.cfg.glyph (sext32 x) (sext32 y) (zext32 ch) c b (effScale (sext32 scale))

/-- SETCURSOR (43_glyph_text R185). -/
def execSetCursor (x y : Word) (s : State) : Result :=
  s.updateHandle 3 fun d => { d with cursorX := x, cursorY := y }

/-- SETTEXTSIZE (43_glyph_text R186). -/
def execSetTextSize (size : Word) (s : State) : Result :=
  s.updateHandle 2 fun d => { d with textScale := effScale (sext32 size) }

/-- SETTEXTCOLOR (43_glyph_text R187). -/
def execSetTextColor (c b : Color) (s : State) : Result :=
  s.updateHandle 1 fun d => { d with textColor := c, textBg := b }

/-! ## PRINT -/

/-- `CURSOR_X <- 0; CURSOR_Y <- Cur(CURSOR_Y + 8*s)` (R189). None is CURSOR_RANGE. -/
def DisplayHandle.newLine (d : DisplayHandle) : Option DisplayHandle :=
  (cur (sext32 d.cursorY + 8 * d.textScale)).map fun y => { d with cursorX := 0, cursorY := y }

/-- Wrap first, if WRAP is set and the next glyph would exceed the right edge (R189). -/
def DisplayHandle.wrapFirst (d : DisplayHandle) : Option DisplayHandle :=
  if d.wrap = true ∧ sext32 d.cursorX + 6 * d.textScale > d.width then d.newLine else some d

/-- Draw a character at the cursor and advance: `CURSOR_X <- Cur(CURSOR_X + 6*s)` (R189). -/
def DisplayHandle.putChar (d : DisplayHandle) (rom : GlyphRom) (ch : Byte) : Option DisplayHandle :=
  (cur (sext32 d.cursorX + 6 * d.textScale)).map fun x =>
    { d.drawChar rom (sext32 d.cursorX) (sext32 d.cursorY) ch.toNat d.textColor d.textBg d.textScale with cursorX := x }

/-- The loop of PRINT over its text bytes (43_glyph_text R189); none is the refusal CURSOR_RANGE (R190). TEXT_SCALE does not
change during it. -/
def DisplayHandle.printBytes (d : DisplayHandle) (rom : GlyphRom) : List Byte → Option DisplayHandle
  | [] => some d
  | ch :: rest =>
    if ch = 10 then
      match d.newLine with
      | none => none
      | some d' => d'.printBytes rom rest
    else if ch = 13 then DisplayHandle.printBytes { d with cursorX := 0 } rom rest
    else
      match d.wrapFirst with
      | none => none
      | some d' =>
        if sext32 d'.cursorY ≥ d'.height then some d'
        else
          match d'.putChar rom ch with
          | none => none
          | some d'' => d''.printBytes rom rest

/-- PRINT (43_glyph_text R189): the whole command is refused when a cursor value leaves its range (R190). -/
def execPrint (n : Word) (payload : List Word) (s : State) : Result :=
  s.whenActive (2 + payloadWords n) fun s =>
    match s.handle.printBytes s.cfg.glyph (textBytes n payload) with
    | none => .refused .cursorRange
    | some d => .next (State.done { s with handle := d } (2 + payloadWords n))

end Sys2Proof.Machine
end

