-- ==== Sys2Proof/Machine/Dispatch.lean ====
section
/-! DEFINITION. One arm for each constructor of Instr: the meaning of each host command (spec/30_encoding.md R74). -/

namespace Sys2Proof.Machine

def exec (i : Instr) (s : State) : Host.Outcome State Fault Refusal :=
  match i with
  | .beginInst bus addr width height vcc => Sys2Proof.Machine.execBeginInst bus addr width height vcc s
  | .endInst => Sys2Proof.Machine.execEndInst s
  | .getWidth => Sys2Proof.Machine.execGetWidth s
  | .getHeight => Sys2Proof.Machine.execGetHeight s
  | .setPixel c x y => Sys2Proof.Machine.execSetPixel c x y s
  | .getPixel x y => Sys2Proof.Machine.execGetPixel x y s
  | .clear => Sys2Proof.Machine.execClear s
  | .drawLine c x0 y0 x1 y1 => Sys2Proof.Machine.execDrawLine c x0 y0 x1 y1 s
  | .drawRect c x y w h => Sys2Proof.Machine.execDrawRect c x y w h s
  | .fillRect c x y w h => Sys2Proof.Machine.execFillRect c x y w h s
  | .drawCircle c x0 y0 r => Sys2Proof.Machine.execDrawCircle c x0 y0 r s
  | .fillCircle c x0 y0 r => Sys2Proof.Machine.execFillCircle c x0 y0 r s
  | .drawGlyph c b x y ch scale => Sys2Proof.Machine.execDrawGlyph c b x y ch scale s
  | .setCursor x y => Sys2Proof.Machine.execSetCursor x y s
  | .setTextSize size => Sys2Proof.Machine.execSetTextSize size s
  | .setTextColor c b => Sys2Proof.Machine.execSetTextColor c b s
  | .print n payload => Sys2Proof.Machine.execPrint n payload s
  | .flush => Sys2Proof.Machine.execFlush s
  | .invert flag => Sys2Proof.Machine.execInvert flag s
  | .dim flag => Sys2Proof.Machine.execDim flag s
  | .setContrast v => Sys2Proof.Machine.execSetContrast v s
  | .scrollRight start stop => Sys2Proof.Machine.execScrollRight start stop s
  | .scrollLeft start stop => Sys2Proof.Machine.execScrollLeft start stop s
  | .scrollDiagRight start stop => Sys2Proof.Machine.execScrollDiagRight start stop s
  | .scrollDiagLeft start stop => Sys2Proof.Machine.execScrollDiagLeft start stop s
  | .stopScroll => Sys2Proof.Machine.execStopScroll s

end Sys2Proof.Machine
end

