-- ==== Sys2Proof/Machine/Fetch.lean ====
section
/-! DEFINITION. Fetching a command from the host stream (spec/30_encoding.md R70, R78, R80) and the words of a command laid
where the next fetch reads. -/

namespace Sys2Proof.Machine

/-- Whether a word with an index below `n` breaks the one-host discipline (20_memory R60; log 11). -/
def HostStream.interleavedBelow (hs : HostStream) (n : Nat) : Bool :=
  match hs.interleaveAt with
  | none => false
  | some k => decide (k < n)

/-- "`x[i] <- stream[CP+1+i]`" for the operands of the command; the other operand registers keep their contents (R70). -/
def Latch.load (l : Latch) (hdr : Word) (xs : List Word) : Latch where
  hdr := hdr
  x0 := xs[0]?.getD l.x0
  x1 := xs[1]?.getD l.x1
  x2 := xs[2]?.getD l.x2
  x3 := xs[3]?.getD l.x3
  x4 := xs[4]?.getD l.x4

/-- What the fetch at CP finds. -/
inductive Fetched where
  /-- A whole legal command, with the latch loaded. -/
  | run (i : Instr) (s : State)
  /-- An illegal header (R78). -/
  | illegal (hdr : Word)
  /-- The host has not yet written every word of the command (R80). -/
  | waiting
  /-- A word of the command is not the one host's (20_memory R60). -/
  | interleaved
deriving DecidableEq, Repr

/-- The fetch of R70: the header, its decoding, the operand words. An illegal header is found before any operand is read. -/
def State.fetch (s : State) : Fetched :=
  if s.host.interleavedBelow (s.cp + 1) then .interleaved
  else
    match s.host.words.drop s.cp with
    | [] => .waiting
    | hdr :: xs =>
      match decode (hdr :: xs) with
      | .illegal _ => .illegal hdr
      | .incomplete => if s.host.interleavedBelow s.host.words.length then .interleaved else .waiting
      | .command i _ =>
        if s.host.interleavedBelow (s.cp + i.len) then .interleaved
        else .run i { s with latch := s.latch.load hdr (xs.take i.opcode.row.nops) }

/-- A list with `new` at index `index`, zeros up to it where the list is shorter, and the rest as it was. -/
def overwriteAt (old : List Word) (index : Nat) (new : List Word) : List Word :=
  old.take index ++ List.replicate (index - old.length) 0 ++ new ++ old.drop (index + new.length)

end Sys2Proof.Machine
end

