-- ==== Sys2Proof/Machine/Step.lean ====
section
/-! DEFINITION. One step of the engine: at a command boundary the reset input if it is asserted (spec/70_reset_and_hazards.md
R270), else one command from fetch to response (20_memory R59, 30_encoding R70). -/

namespace Sys2Proof.Machine

/-- One step. While FAULT = 1 only the reset input is served (10_state R22). -/
def step (s : State) : Host.Outcome State Fault Refusal :=
  match s.resetInput with
  | some hs =>
    match s.takeReset hs with
    | some t => .next t
    | none => .fault .transferStalled
  | none =>
    if s.faulted then .fault .engineHalted
    else
      match s.fetch with
      | .run i s' => exec i s'
      | .illegal hdr => .next (s.illegalHeader hdr)
      | .waiting => .fault .streamIncomplete
      | .interleaved => .refused .hostInterleave

/-- The state with an instruction of the opcode table written where the next fetch reads, at index CP of the host stream (see
`tableWords`), by the one host, with no reset asserted and the engine not halted (log 7). -/
def State.withFetchWord (s : State) (nbits w : Nat) : State :=
  { s with
    host := { words := overwriteAt s.host.words s.cp (tableWords nbits w), interleaveAt := none }
    resetInput := none
    faulted := false }

end Sys2Proof.Machine
end

