-- ==== Sys2Proof/Safety.lean ====
section
/-! DEFINITION. The terms in which claims are made: the invariant of the block and its bus protocol, how a command completes and
what it leaves alone, the pixel sets of the spec as sets (spec/42_raster.md, 43_glyph_text.md), PRINT as a relation, and the
primitives that a command issues. -/

namespace Sys2Proof.Machine

/-! ## The invariant -/

/-- The handle's life on the bus, one entry at a time: `BusOpen` only while it is closed, `BusBind`, frames and `BusClose`
only while it is open (40_lifecycle R109, R111). None is a breach; the answer is whether the handle is open. -/
def busProtocolStep (isOpen : Bool) (e : BusEvent) : Option Bool :=
  match e.prim with
  | .openBus _ => if isOpen then none else some (e.outcome == .ok)
  | .bindAddr _ | .cmdFrame _ | .dataFrame _ => if isOpen then some true else none
  | .closeBus => if isOpen then some false else none

/-- Whether the handle is open after a whole bus trace that keeps the protocol. -/
def busProtocol (trace : List BusEvent) : Option Bool :=
  trace.foldlM busProtocolStep false

/-- What every step keeps, and reset has. -/
structure State.Inv (s : State) : Prop where
  /-- The framebuffer is in its canonical form. -/
  fb_wf : s.handle.fb.wf
  /-- `ACTIVE = 1 -> BUS_OPEN = 1` (10_state R24), and no handle is open without an instance (40_lifecycle R108, R111). -/
  bus_open : s.busOpen = s.active
  /-- The bus trace keeps the protocol, and BUS_OPEN says whether the handle is open (10_state R24). -/
  bus_trace : busProtocol s.busTrace = some s.busOpen
  /-- `1 <= W < 2^31` (10_state R20). -/
  width_range : 1 ≤ s.handle.width ∧ s.handle.width < 2147483648
  /-- `H` is a positive multiple of 8 below `2^31` (10_state R20, R25). -/
  height_range : 8 ≤ s.handle.height ∧ s.handle.height < 2147483648 ∧ s.handle.height % 8 = 0
  /-- `1 <= TEXT_SCALE < 2^31` (10_state R31). -/
  scale_range : 1 ≤ s.handle.textScale ∧ s.handle.textScale < 2147483648
  /-- Every byte that an active instance lists has an address below `W*PAGES` (10_state R28, 20_memory R50). -/
  fb_addr : s.active = true → ∀ p ∈ s.handle.fb, p.1 < s.handle.fbSize
  /-- An active instance fits the capacity (40_lifecycle R105). -/
  fb_capacity : s.active = true → ∀ c, s.cfg.fbCapacity = some c → s.handle.fbSize ≤ c
  /-- WRAP stays 1 for the instance's life (10_state R33, D12). -/
  wrap_on : s.active = true → s.handle.wrap = true
  /-- FAULT = 1 exactly after ILLEGAL_COMMAND (60_exceptions R245). -/
  fault_status : s.faulted = true ↔ s.status = .illegalCommand
  /-- RESULT = 0 with any status other than OK (10_state R35). -/
  result_zero : s.status ≠ .ok → s.result = 0

/-- "A run whose engine has faulted is never a good final state" (60_exceptions R245), while FAULT = 1. DESIGN CHOICE: a reset,
which clears FAULT (10_state R22, 70_reset R270), begins a new run, and the fault before it does not count against that run; the
spec does not say (log 24). The response trace keeps the ILLEGAL_COMMAND entry of every fault, also across a reset. -/
def State.goodFinal (s : State) : Bool := !s.faulted

/-- The command at CP is fetched by the next step: no reset asserted, FAULT = 0, one host (70_reset R270, 10_state R22,
20_memory R60). -/
structure State.Ready (s : State) : Prop where
  no_reset : s.resetInput = none
  not_faulted : s.faulted = false
  one_host : s.host.interleaveAt = none

/-! ## How a command completes -/

/-- A legal command of length `len` that started in `s` has completed in `t`: its response, CP past it (10_state R35,
30_encoding R79); FAULT, the configuration, the stream and the reset input are as before. -/
structure Completes (s t : State) (len : Nat) (st : Status) (r : Word) : Prop where
  status : t.status = st
  result : t.result = r
  responses : t.responses = s.responses ++ [(st, r)]
  cp : t.cp = s.cp + len
  faulted : t.faulted = s.faulted
  cfg : t.cfg = s.cfg
  host : t.host = s.host
  reset_input : t.resetInput = s.resetInput

/-- No bus primitive was issued: the trace, BUS_OPEN and the coming answers are as before. -/
structure NoBus (s t : State) : Prop where
  trace : t.busTrace = s.busTrace
  bus_open : t.busOpen = s.busOpen
  answers : ∀ k, t.answerAt k = s.answerAt k

/-- The bus trace grew by `events`, and `n` answers of the environment were taken. -/
structure Issued (s t : State) (events : List BusEvent) (n : Nat) : Prop where
  trace : t.busTrace = s.busTrace ++ events
  answers : ∀ k, t.answerAt k = s.answerAt (n + k)

/-- The instance is as before: ACTIVE and every instance register. -/
structure SameInstance (s t : State) : Prop where
  active : t.active = s.active
  handle : t.handle = s.handle

/-! ## Drawing -/

/-- What a colour makes of a pixel (41_pixel R131). -/
def lights (c : Color) (old : Bool) : Bool :=
  match c with
  | .off => false
  | .on => true
  | .inverse => !old

/-- `d'` is `d` with colour `c` applied once to the pixels of `S` that lie on the panel (41_pixel R131, R132): every other
pixel, every byte that holds none of these pixels, and every other instance register are as before. -/
structure Drawn (d d' : DisplayHandle) (S : Int → Int → Prop) (c : Color) : Prop where
  registers : d' = { d with fb := d'.fb }
  inside : ∀ x y, d.InBounds x y → S x y → d'.pixel x y = lights c (d.pixel x y)
  outside : ∀ x y, ¬ (d.InBounds x y ∧ S x y) → d'.pixel x y = d.pixel x y
  bytes : ∀ a, (∀ x y, d.InBounds x y → S x y → d.pixIndex x y ≠ a) → d'.fb.read a = d.fb.read a
  wf : d'.fb.wf

/-- `RectFill(x, y, w, h)` (42_raster R153). -/
def RectFill (x y w h : Int) (px py : Int) : Prop :=
  ∃ i j : Int, 0 ≤ i ∧ i < w ∧ 0 ≤ j ∧ j < h ∧ px = x + i ∧ py = y + j

/-- `RectOutline(x, y, w, h)` (42_raster R152). -/
def RectOutline (x y w h : Int) (px py : Int) : Prop :=
  ∃ i j : Int, 0 ≤ i ∧ i < w ∧ 0 ≤ j ∧ j < h ∧ (i = 0 ∨ i = w - 1 ∨ j = 0 ∨ j = h - 1) ∧ px = x + i ∧ py = y + j

/-- The values `(x, y, err)` that the loop of `LineSet` has at its plot, one iteration after the other (42_raster R151). -/
inductive LineReach (x0 y0 x1 y1 : Int) : Int → Int → Int → Prop
  | start : LineReach x0 y0 x1 y1 x0 y0 (|x1 - x0| - |y1 - y0|)
  | next {x y err : Int} : LineReach x0 y0 x1 y1 x y err → ¬ (x = x1 ∧ y = y1) →
      LineReach x0 y0 x1 y1
        (if 2 * err > -|y1 - y0| then x + (if x0 < x1 then 1 else -1) else x)
        (if 2 * err < |x1 - x0| then y + (if y0 < y1 then 1 else -1) else y)
        (err - (if 2 * err > -|y1 - y0| then |y1 - y0| else 0) + (if 2 * err < |x1 - x0| then |x1 - x0| else 0))

/-- `LineSet(x0, y0, x1, y1)` (42_raster R151). -/
def LineSet (x0 y0 x1 y1 : Int) (px py : Int) : Prop := ∃ err, LineReach x0 y0 x1 y1 px py err

/-- The values `(x, y, d)` that the loop of `CircleSet` has at its test (42_raster R155). -/
inductive CircleReach (r : Int) : Int → Int → Int → Prop
  | start : CircleReach r 0 r (3 - 2 * r)
  | inner {x y d : Int} : CircleReach r x y d → x ≤ y → d < 0 → CircleReach r (x + 1) y (d + 4 * x + 6)
  | outer {x y d : Int} : CircleReach r x y d → x ≤ y → ¬ d < 0 → CircleReach r (x + 1) (y - 1) (d + 4 * (x - y) + 10)

/-- `CircleSet(x0, y0, r)`: the eight octant points of every step of the loop (42_raster R155). -/
def CircleSet (x0 y0 r : Int) (px py : Int) : Prop :=
  ∃ x y d, CircleReach r x y d ∧ x ≤ y ∧
    ((px = x0 + x ∧ py = y0 + y) ∨ (px = x0 - x ∧ py = y0 + y) ∨ (px = x0 + x ∧ py = y0 - y) ∨
     (px = x0 - x ∧ py = y0 - y) ∨ (px = x0 + y ∧ py = y0 + x) ∨ (px = x0 - y ∧ py = y0 + x) ∨
     (px = x0 + y ∧ py = y0 - x) ∨ (px = x0 - y ∧ py = y0 - x))

/-- `DiscSet(x0, y0, r)` (42_raster R156). -/
def DiscSet (x0 y0 r : Int) (px py : Int) : Prop :=
  ∃ dx dy : Int, -r ≤ dx ∧ dx ≤ r ∧ -r ≤ dy ∧ dy ≤ r ∧ dx * dx + dy * dy ≤ r * r ∧ px = x0 + dx ∧ py = y0 + dy

/-- The pixels of the glyph cell of `ch` at `(x, y)`, scale `s`, whose glyph bit is `bit` (43_glyph_text R181). -/
def GlyphPixels (bit : Bool) (rom : GlyphRom) (x y : Int) (ch s : Nat) (px py : Int) : Prop :=
  ∃ i j u v : Nat, i ≤ 4 ∧ j ≤ 7 ∧ (glyphColumn rom ch i).getLsbD j = bit ∧ u < s ∧ v < s ∧
    px = x + i * s + u ∧ py = y + j * s + v

/-- `DrawChar(x, y, ch, c, b, s)` (43_glyph_text R182): the glyph in colour `c`, and the background in colour `b` only when
it differs. -/
def DrawsChar (rom : GlyphRom) (d d' : DisplayHandle) (x y : Int) (ch : Nat) (c b : Color) (s : Nat) : Prop :=
  ∃ d1, Drawn d d1 (GlyphPixels true rom x y ch s) c ∧
    (b = c → d' = d1) ∧ (b ≠ c → Drawn d1 d' (GlyphPixels false rom x y ch s) b)

/-! ## PRINT -/

/-- A value that a cursor register can hold (43_glyph_text R190). -/
def InCursorRange (v : Int) : Prop := -2147483648 ≤ v ∧ v < 2147483648

/-- `CURSOR_X + 6*s > W` with WRAP = 1: the wrap test of PRINT (43_glyph_text R189). -/
def WrapNeeded (d : DisplayHandle) : Prop :=
  d.wrap = true ∧ d.cursorX.toInt + 6 * d.textScale > d.width

/-- The wrap before a glyph: where it is needed the cursor moves to the next line, its value in range; else nothing moves
(43_glyph_text R189). -/
def AfterWrap (d d0 : DisplayHandle) : Prop :=
  (WrapNeeded d ∧ ∃ y : Word, InCursorRange (d.cursorY.toInt + 8 * d.textScale) ∧
      y.toInt = d.cursorY.toInt + 8 * d.textScale ∧ d0 = { d with cursorX := 0, cursorY := y }) ∨
  (¬ WrapNeeded d ∧ d0 = d)

/-- `Prints rom d text d'`: the loop of PRINT over `text` takes the instance registers from `d` to `d'`, every cursor value
staying in its range (43_glyph_text R189). -/
inductive Prints (rom : GlyphRom) : DisplayHandle → List Byte → DisplayHandle → Prop
  /-- No byte is left. -/
  | finish (d : DisplayHandle) : Prints rom d [] d
  /-- `\n`: `CURSOR_X <- 0; CURSOR_Y <- Cur(CURSOR_Y + 8*s)`. -/
  | newline {d d' : DisplayHandle} {rest : List Byte} {y : Word} :
      InCursorRange (d.cursorY.toInt + 8 * d.textScale) → y.toInt = d.cursorY.toInt + 8 * d.textScale →
      Prints rom { d with cursorX := 0, cursorY := y } rest d' → Prints rom d (10 :: rest) d'
  /-- `\r`: `CURSOR_X <- 0`. -/
  | carriageReturn {d d' : DisplayHandle} {rest : List Byte} :
      Prints rom { d with cursorX := 0 } rest d' → Prints rom d (13 :: rest) d'
  /-- Any other byte at or below the bottom edge: `if CURSOR_Y >= H: exit loop`, the rest is dropped. -/
  | stop {d d0 : DisplayHandle} {ch : Byte} {rest : List Byte} :
      ch ≠ 10 → ch ≠ 13 → AfterWrap d d0 → d0.cursorY.toInt ≥ d0.height → Prints rom d (ch :: rest) d0
  /-- Any other byte above it: `DrawChar(...)`, then `CURSOR_X <- Cur(CURSOR_X + 6*s)`. -/
  | draw {d d0 d1 d' : DisplayHandle} {ch : Byte} {rest : List Byte} {x : Word} :
      ch ≠ 10 → ch ≠ 13 → AfterWrap d d0 → ¬ d0.cursorY.toInt ≥ d0.height →
      DrawsChar rom d0 d1 d0.cursorX.toInt d0.cursorY.toInt ch.toNat d0.textColor d0.textBg d0.textScale →
      InCursorRange (d0.cursorX.toInt + 6 * d0.textScale) → x.toInt = d0.cursorX.toInt + 6 * d0.textScale →
      Prints rom { d1 with cursorX := x } rest d' → Prints rom d (ch :: rest) d'

/-! ## The primitives of a command -/

/-- The outcome that the trace records for an answer to a primitive (40_lifecycle R100, R101). -/
def outcomeOf (p : BusPrim) : BusAnswer → BusOutcome
  | .ok => .ok
  | .fail reached => .fail (min reached p.frame.length)
  | .never => .ok

/-- Trace entries of primitives that all succeeded. -/
def allOk (ps : List BusPrim) : List BusEvent := ps.map fun p => ⟨p, .ok⟩

/-- The primitives that a display-sync command issues when none fails, for an instance `d` and a command table `cmd`
(44_display_sync R210 to R222); none for a command of another family. -/
def syncPrims (cmd : Cmd) (d : DisplayHandle) : Instr → List BusPrim
  | .flush =>
      [cmd.columnAddr, 0x00, byteOf ((d.width : Int) - 1), cmd.pageAddr, 0x00, byteOf ((d.height / 8 : Nat) - 1 : Int)].map
        .cmdFrame ++ [.dataFrame ((List.range (d.width * (d.height / 8))).map d.fb.read)]
  | .invert flag => [.cmdFrame (if flag = 0 then cmd.normalDisplay else cmd.invertDisplay)]
  | .dim flag => if flag = 0 then [] else [.cmdFrame cmd.setContrast, .cmdFrame 0x00]
  | .setContrast v => [.cmdFrame cmd.setContrast, .cmdFrame (v.setWidth 8)]
  | .scrollRight a b =>
      [cmd.rightHScroll, cmd.scrollDummy00, a.setWidth 8, cmd.scrollDummy00, b.setWidth 8, cmd.scrollDummy00,
        cmd.scrollDummyFF, cmd.activateScroll].map .cmdFrame
  | .scrollLeft a b =>
      [cmd.leftHScroll, cmd.scrollDummy00, a.setWidth 8, cmd.scrollDummy00, b.setWidth 8, cmd.scrollDummy00,
        cmd.scrollDummyFF, cmd.activateScroll].map .cmdFrame
  | .scrollDiagRight a b =>
      [cmd.setVScrollArea, cmd.scrollDummy00, BitVec.ofNat 8 d.height, cmd.vRightHScroll, cmd.scrollDummy00, a.setWidth 8,
        cmd.scrollDummy00, b.setWidth 8, cmd.scrollVOffset, cmd.activateScroll].map .cmdFrame
  | .scrollDiagLeft a b =>
      [cmd.setVScrollArea, cmd.scrollDummy00, BitVec.ofNat 8 d.height, cmd.vLeftHScroll, cmd.scrollDummy00, a.setWidth 8,
        cmd.scrollDummy00, b.setWidth 8, cmd.scrollVOffset, cmd.activateScroll].map .cmdFrame
  | .stopScroll => [.cmdFrame cmd.deactivateScroll]
  | .beginInst _ _ _ _ _ | .endInst | .getWidth | .getHeight | .setPixel _ _ _ | .getPixel _ _ | .clear
  | .drawLine _ _ _ _ _ | .drawRect _ _ _ _ _ | .fillRect _ _ _ _ _ | .drawCircle _ _ _ _ | .fillCircle _ _ _ _
  | .drawGlyph _ _ _ _ _ _ | .setCursor _ _ | .setTextSize _ | .setTextColor _ _ | .print _ _ => []

/-- The display-sync commands (44_display_sync). -/
def IsSync : Instr → Prop
  | .flush | .invert _ | .dim _ | .setContrast _ | .scrollRight _ _ | .scrollLeft _ _ | .scrollDiagRight _ _
  | .scrollDiagLeft _ _ | .stopScroll => True
  | .beginInst _ _ _ _ _ | .endInst | .getWidth | .getHeight | .setPixel _ _ _ | .getPixel _ _ | .clear
  | .drawLine _ _ _ _ _ | .drawRect _ _ _ _ _ | .fillRect _ _ _ _ _ | .drawCircle _ _ _ _ | .fillCircle _ _ _ _
  | .drawGlyph _ _ _ _ _ _ | .setCursor _ _ | .setTextSize _ | .setTextColor _ _ | .print _ _ => False

/-- `v < 0 or v > 255` is what SETCONTRAST rejects (44_display_sync R216); every other display-sync command takes any
operand. -/
def ArgumentsValid : Instr → Prop
  | .setContrast v => 0 ≤ v.toInt ∧ v.toInt ≤ 255
  | _ => True

/-- The primitives of BEGIN after any teardown, when none fails (40_lifecycle R104, R109). -/
def beginPrims (cmd : Cmd) (bus addr h : Word) (mode : Vcc) : List BusPrim :=
  .openBus bus :: .bindAddr (addr.setWidth 7) :: (initSeq cmd h.toInt mode).map .cmdFrame

/-- `ValidGeometry(w, h, addr, vcc)` (40_lifecycle R105), where `mode` is the power mode of `vcc`. -/
def ValidGeometry (cap : Option Nat) (addr w h vcc : Word) (mode : Vcc) : Prop :=
  1 ≤ w.toInt ∧ 8 ≤ h.toInt ∧ h.toInt % 8 = 0 ∧ 0 ≤ addr.toInt ∧ addr.toInt ≤ 127 ∧
    ((vcc.toInt = 1 ∧ mode = .external) ∨ (vcc.toInt = 2 ∧ mode = .internal)) ∧
    ∀ c, cap = some c → w.toInt * (h.toInt / 8) ≤ c

/-- The trace entries of the teardown of `s`: none without an instance, else the power-off frame, whatever its outcome, and
the closing of the bus (40_lifecycle R106, R111). -/
def teardownEvents (s : State) : List BusEvent :=
  if s.active then
    [⟨.cmdFrame s.cfg.cmd.displayOff, outcomeOf (.cmdFrame s.cfg.cmd.displayOff) (s.answerAt 0)⟩, ⟨.closeBus, .ok⟩]
  else []

/-- How many answers of the environment that teardown takes. -/
def teardownAnswers (s : State) : Nat := if s.active then 1 else 0

/-- The teardown of `s` is answered: its power-off frame, if there is one, succeeds or fails. -/
def TeardownAnswered (s : State) : Prop := s.active = true → s.answerAt 0 ≠ .never

/-! ## Primitives that never complete -/

/-- The first of the next `len` primitives that does not succeed, `n` answers having been taken before them, never completes
(40_lifecycle R102). -/
def StallsWithin (s : State) (n len : Nat) : Prop :=
  ∃ j, j < len ∧ (∀ k, k < j → s.answerAt (n + k) = .ok) ∧ s.answerAt (n + j) = .never

/-- The teardown of `s` is held: an instance is active and its power-off frame never completes (40_lifecycle R102, R111). -/
def PowerOffStalls (s : State) : Prop := s.active = true ∧ s.answerAt 0 = .never

/-- A primitive that the command issues from `s` never completes: one of a display-sync command, the power-off frame of END, or
of a BEGIN with valid operands the power-off frame of the previous instance or one of its own 28 primitives
(40_lifecycle R102). -/
def Stalls (i : Instr) (s : State) : Prop :=
  (IsSync i ∧ s.active = true ∧ ArgumentsValid i ∧ StallsWithin s 0 (syncPrims s.cfg.cmd s.handle i).length) ∨
  (i = .endInst ∧ PowerOffStalls s) ∨
  (∃ bus addr w h vcc mode, i = .beginInst bus addr w h vcc ∧ ValidGeometry s.cfg.fbCapacity addr w h vcc mode ∧
    (PowerOffStalls s ∨
      TeardownAnswered s ∧ StallsWithin s (teardownAnswers s) (beginPrims s.cfg.cmd bus addr h mode).length))

/-! ## Headers -/

/-- The opcode numbers of the map (30_encoding R74). -/
def assignedOps : List Nat :=
  [0x01, 0x02, 0x03, 0x04, 0x10, 0x11, 0x12, 0x20, 0x21, 0x22, 0x23, 0x24, 0x30, 0x31, 0x32, 0x33, 0x34,
   0x40, 0x41, 0x42, 0x43, 0x44, 0x45, 0x46, 0x47, 0x48]

/-- The opcodes that use field C (30_encoding R75). -/
def usesFieldC : List Nat := [0x10, 0x20, 0x21, 0x22, 0x23, 0x24, 0x30, 0x33]

/-- The opcodes that use field B (30_encoding R75). -/
def usesFieldB : List Nat := [0x30, 0x33]

/-- "A header is **illegal** when any of the following holds" (30_encoding R78), on the header as a number: OP is bits 7..0,
C bits 9..8, B bits 11..10, RSV bits 31..12 (R71). -/
def IllegalHeader (h : Word) : Prop :=
  let op := h.toNat % 256
  let c := h.toNat / 256 % 4
  let b := h.toNat / 1024 % 4
  op ∉ assignedOps ∨ h.toNat / 4096 ≠ 0 ∨ (op ∉ usesFieldC ∧ c ≠ 0) ∨ (op ∉ usesFieldB ∧ b ≠ 0) ∨
    (op ∈ usesFieldC ∧ c = 3) ∨ (op ∈ usesFieldB ∧ b = 3)

end Sys2Proof.Machine
end

