-- ==== Sys2Proof/Certificates/Slice0/Obligations.lean ====
section
/-! DEFINITION. The statements for the provers: what the numbered rules of spec/ say of the machine. Each docstring names the
rules. The words used here (Completes, NoBus, Issued, Drawn, the pixel sets, Prints, State.Inv) are those of
Sys2Proof/Safety.lean. -/

open Sys2Proof Sys2Proof.Machine

/-! ## Encoding -/

/-- Decoding the words of a well-formed command gives it back, with every operand, and leaves the words after it (30_encoding
R70, R71, R74, R76). -/
def Obligations.DecodeOfEncode : Prop :=
  ∀ (i : Instr) (rest : List Word), i.wf = true → decode (encode i ++ rest) = .command i rest

/-- Each word sequence has one meaning: what decodes to a command is that command's words (30_encoding R71, R74, R78). -/
def Obligations.EncodeOfDecode : Prop :=
  ∀ (ws rest : List Word) (i : Instr), decode ws = .command i rest → i.wf = true ∧ ws = encode i ++ rest

/-- The words that spec/95_test_vectors.md V-ENC-1 to V-ENC-5 write out decode to the commands they stand for. -/
def Obligations.WrittenWordsDecode : Prop :=
  decode [0x00000110, 3, 10] = .command (.setPixel .on 3 10) [] ∧
  decode [0x00000930, 0, 0, 0x41, 1] = .command (.drawGlyph .on .inverse 0 0 0x41 1) [] ∧
  decode [0x00000433] = .command (.setTextColor .off .on) [] ∧
  decode [0x00000034, 0] = .command (.print 0 []) [] ∧
  decode [0x00000034, 9, 0x44434241, 0x48474645, 0x49] = .command (.print 9 [0x44434241, 0x48474645, 0x49]) [] ∧
  decode [0x00000001, 1, 0x3C, 0x80, 0x40, 2] = .command (.beginInst 1 0x3C 0x80 0x40 2) [] ∧
  decode [0x00000040] = .command .flush []

/-- A header is legal exactly when none of the four conditions of R78 holds of its fields (30_encoding R73, R75). -/
def Obligations.HeaderLegality : Prop :=
  ∀ h : Word, (∃ why, decodeHeader h = .error why) ↔ IllegalHeader h

/-- `Len = 1 + NOps(OP) + PayloadWords` is the number of words of a command, a decoder takes exactly so many from the stream,
and the header alone, with `x[0]` for PRINT, fixes it (30_encoding R77). -/
def Obligations.CommandLength : Prop :=
  (∀ i : Instr, i.len = 1 + i.opcode.row.nops + (match i with | .print n _ => (n.toNat + 3) / 4 | _ => 0)) ∧
  (∀ i : Instr, i.wf = true → (encode i).length = i.len) ∧
  (∀ (ws rest : List Word) (i : Instr), decode ws = .command i rest → ws.length = i.len + rest.length) ∧
  (∀ (h x0 : Word) (ws ws' rest rest' : List Word) (i i' : Instr),
    decode (h :: x0 :: ws) = .command i rest → decode (h :: x0 :: ws') = .command i' rest' → i.len = i'.len) ∧
  (∀ (h : Word) (ws ws' rest rest' : List Word) (i i' : Instr), h.toNat % 256 ≠ 0x34 →
    decode (h :: ws) = .command i rest → decode (h :: ws') = .command i' rest' → i.len = i'.len)

/-- PRINT's text: byte `k` is bits `8*(k mod 4)+7 .. 8*(k mod 4)` of payload word `k div 4`; there are `n` of them in
`(n + 3) div 4` words; the padding changes nothing (30_encoding R76). -/
def Obligations.PrintPayload : Prop :=
  (∀ (n : Word) (rest more : List Word) (payload : List Word),
    decode (0x34 :: n :: rest) = .command (.print n payload) more → payload.length = (n.toNat + 3) / 4 ∧
      payload ++ more = rest) ∧
  (∀ (n : Word) (payload : List Word), payload.length = (n.toNat + 3) / 4 →
    (textBytes n payload).length = n.toNat ∧
    ∀ k, k < n.toNat → ∃ w, payload[k / 4]? = some w ∧
      (textBytes n payload)[k]? = some (w.extractLsb' (8 * (k % 4)) 8)) ∧
  (∀ (n : Word) (payload payload' : List Word) (s : State), textBytes n payload = textBytes n payload' →
    exec (.print n payload) s = exec (.print n payload') s)

/-- On a byte-serial link each word travels least significant byte first: the words received are the words sent
(20_memory R53, the sentence on the link). -/
def Obligations.SerialLinkWords : Prop :=
  ∀ ws : List Word, serialWords (ws.flatMap wordBytes) = ws

/-! ## Steps -/

/-- When the words at CP decode to a command, the step is that command's execution, with HDR and the operand registers it has
loaded from the stream (20_memory R59, 30_encoding R70). -/
def Obligations.StepRunsTheDecodedCommand : Prop :=
  ∀ (s : State) (i : Instr) (h : Word) (xs rest : List Word), s.Ready → s.host.words.drop s.cp = h :: xs →
    decode (h :: xs) = .command i rest →
    step s = exec i { s with latch :=
      { hdr := h
        x0 := if 0 < i.opcode.row.nops then xs[0]?.getD 0 else s.latch.x0
        x1 := if 1 < i.opcode.row.nops then xs[1]?.getD 0 else s.latch.x1
        x2 := if 2 < i.opcode.row.nops then xs[2]?.getD 0 else s.latch.x2
        x3 := if 3 < i.opcode.row.nops then xs[3]?.getD 0 else s.latch.x3
        x4 := if 4 < i.opcode.row.nops then xs[4]?.getD 0 else s.latch.x4 } }

/-- An illegal header ends with ILLEGAL_COMMAND, RESULT 0 and FAULT = 1; HDR holds it; CP, the operand registers and all other
state are as before; the header of all zeros is one (30_encoding R78). That the fault has an entry in the response trace is the
model's reading (log 10), and that HDR alone of the latch changes is log 3. -/
def Obligations.IllegalHeaderFaults : Prop :=
  (∀ (s : State) (h : Word) (xs : List Word), s.Ready → s.host.words.drop s.cp = h :: xs → IllegalHeader h →
    step s = .next { s with
      status := .illegalCommand, result := 0, faulted := true, latch := { s.latch with hdr := h },
      responses := s.responses ++ [(.illegalCommand, 0)] }) ∧
  (∀ (s t : State) (h : Word) (xs : List Word), s.Ready → s.host.words.drop s.cp = h :: xs → ¬ IllegalHeader h →
    step s = .next t → t.faulted = false) ∧
  IllegalHeader 0

/-- While FAULT = 1 the engine takes no step; only an illegal header sets FAULT and only the reset input clears it; no command
writes it or reads it (10_state R22). That "no step" is the outcome `.fault .engineHalted` is the model's choice (log 8). -/
def Obligations.FaultHaltsTheEngine : Prop :=
  (∀ s : State, s.faulted = true → s.resetInput = none → step s = .fault .engineHalted) ∧
  (∀ s t : State, step s = .next t → s.faulted = false → t.faulted = true →
    s.resetInput = none ∧ ∃ h xs, s.host.words.drop s.cp = h :: xs ∧ IllegalHeader h) ∧
  (∀ s t : State, step s = .next t → s.faulted = true → s.resetInput ≠ none ∧ t.faulted = false) ∧
  (∀ (i : Instr) (s t : State) (b : Bool), exec i s = .next t →
    t.faulted = s.faulted ∧ exec i { s with faulted := b } = .next { t with faulted := b })

/-- With fewer than Len words from CP the engine has no step (30_encoding R80, 60_exceptions R249: a wait). That the outcome is
`.fault .streamIncomplete` is the model's choice (log 8). -/
def Obligations.IncompleteCommandWaits : Prop :=
  ∀ s : State, s.Ready →
    (s.host.words.length ≤ s.cp ∨ ∃ i n, i.wf = true ∧ n < i.len ∧ s.host.words.drop s.cp = (encode i).take n) →
    step s = .fault .streamIncomplete

/-- The engine advances CP past every command that completes, whatever its status, by that command's length
(30_encoding R79). -/
def Obligations.CompletedCommandAdvances : Prop :=
  ∀ (i : Instr) (s t : State), exec i s = .next t → t.cp = s.cp + i.len

/-- Every completed command writes STATUS and RESULT and nothing but the three getters gives a RESULT other than 0; a status
other than OK gives 0; the response trace has one more entry, this one (10_state R35). -/
def Obligations.EveryCommandResponds : Prop :=
  (∀ (i : Instr) (s t : State), exec i s = .next t →
    t.responses = s.responses ++ [(t.status, t.result)] ∧ (t.status ≠ .ok → t.result = 0) ∧
    (i ≠ .getWidth → i ≠ .getHeight → (∀ x y, i ≠ .getPixel x y) → t.result = 0)) ∧
  (∀ s : State, s.active = true →
    (∃ t, exec .getWidth s = .next t ∧ t.status = .ok ∧ t.result = BitVec.ofNat 32 s.handle.width) ∧
    (∃ t, exec .getHeight s = .next t ∧ t.status = .ok ∧ t.result = BitVec.ofNat 32 s.handle.height) ∧
    (∀ x y, ∃ t, exec (.getPixel x y) s = .next t ∧ t.status = .ok ∧
      t.result = if s.handle.pixel x.toInt y.toInt then 1 else 0))

/-- The reset input, also while FAULT = 1: teardown if an instance is active, then the control registers at their reset values.
The words after it are a new stream, from CP = 0 (70_reset R270; the stream is log 12). -/
def Obligations.ResetInput : Prop :=
  ∀ (s : State) (hs : HostStream), s.resetInput = some hs → TeardownAnswered s →
    ∃ t, step s = .next t ∧ Issued s t (teardownEvents s) (teardownAnswers s) ∧
      t.cp = 0 ∧ t.faulted = false ∧ t.active = false ∧ t.busOpen = false ∧ t.status = .ok ∧ t.result = 0 ∧
      t.host = hs ∧ t.resetInput = none ∧ t.cfg = s.cfg ∧ t.responses = s.responses

/-- The values the spec gives for reset (10_state R41), and that power-on issues no bus primitive (70_reset R271). -/
def Obligations.ResetValues : Prop :=
  State.reset.cp = 0 ∧ State.reset.faulted = false ∧ State.reset.active = false ∧ State.reset.busOpen = false ∧
  State.reset.status.code = 0 ∧ State.reset.result = 0 ∧ State.reset.busTrace = []

/-- Nothing is refused but a PRINT whose cursor leaves its range and a stream that is not one host's, and ordinary data never
stops a command: it faults only where one of its bus primitives never completes, and a step is held so only by the command at CP
or by the reset input's teardown (60_exceptions R248, R249). The input interleaveAt is the model's choice (log 11), and so is a
fault as the name of a wait (log 8). -/
def Obligations.OnlyTheSpecsStops : Prop :=
  (∀ (i : Instr) (s : State) (r : Refusal), exec i s = .refused r → r = .cursorRange ∧ ∃ n payload, i = .print n payload) ∧
  (∀ (s : State) (r : Refusal), step s = .refused r → r = .cursorRange ∨ (r = .hostInterleave ∧ s.host.interleaveAt ≠ none)) ∧
  (∀ (i : Instr) (s : State) (f : Fault), exec i s = .fault f → f = .transferStalled ∧ Stalls i s) ∧
  (∀ s : State, step s = .fault .transferStalled →
    (s.resetInput ≠ none ∧ PowerOffStalls s) ∨
    (s.resetInput = none ∧ ∃ i rest, decode (s.host.words.drop s.cp) = .command i rest ∧ Stalls i s))

/-- A command at CP of which a word is not the one host's is refused, and a command all of whose words come before such a word
is executed (20_memory R60, 60_exceptions R248; log 11). -/
def Obligations.InterleavedCommandRefused : Prop :=
  ∀ (s : State) (k : Nat), s.resetInput = none → s.faulted = false → s.host.interleaveAt = some k →
    (k ≤ s.cp → step s = .refused .hostInterleave) ∧
    (∀ i rest, decode (s.host.words.drop s.cp) = .command i rest → k < s.cp + i.len → step s = .refused .hostInterleave) ∧
    (∀ i rest, decode (s.host.words.drop s.cp) = .command i rest → s.cp + i.len ≤ k →
      ∃ l, step s = exec i { s with latch := l })

/-- The configuration is fixed, and nothing in the block writes the host stream: a step changes the stream only by serving the
reset input (70_reset R272, 20_memory R53). -/
def Obligations.ConfigurationIsFixed : Prop :=
  (∀ s t : State, step s = .next t → t.cfg = s.cfg) ∧
  (∀ s t : State, step s = .next t → s.resetInput = none → t.host = s.host ∧ t.resetInput = none)

/-! ## Status -/

/-- Without an instance every command but BEGIN and END ends with NOT_INITIALIZED and changes no state except STATUS, RESULT and
CP; the latch is unspecified (60_exceptions R242, 10_state R34). -/
def Obligations.NotInitialized : Prop :=
  ∀ (i : Instr) (s : State), s.active = false → i ≠ .endInst → (∀ a b c d e, i ≠ .beginInst a b c d e) →
    ∃ (l : Latch) (n : Nat), exec i s = .next { s with
      status := .notInitialized, result := 0, cp := s.cp + i.len, responses := s.responses ++ [(.notInitialized, 0)],
      latch := l, draws := n }

/-- One command reports one status, the first in the order ILLEGAL_COMMAND, NOT_INITIALIZED, INVALID_ARGUMENT, IO_ERROR: an
illegal header whatever the instance, NOT_INITIALIZED whatever the operands and the bus, INVALID_ARGUMENT whatever the bus
(60_exceptions R247). -/
def Obligations.ErrorPriority : Prop :=
  (∀ (s : State) (h : Word) (xs : List Word), s.Ready → s.host.words.drop s.cp = h :: xs → IllegalHeader h →
    ∃ t, step s = .next t ∧ t.status = .illegalCommand) ∧
  (∀ (i : Instr) (s t : State), s.active = false → i ≠ .endInst → (∀ a b c d e, i ≠ .beginInst a b c d e) →
    exec i s = .next t → t.status = .notInitialized) ∧
  (∀ (v : Word) (s t : State), s.active = true → ¬ ArgumentsValid (.setContrast v) →
    exec (.setContrast v) s = .next t → t.status = .invalidArgument) ∧
  (∀ (bus addr w h vcc : Word) (s t : State), (∀ mode, ¬ ValidGeometry s.cfg.fbCapacity addr w h vcc mode) →
    exec (.beginInst bus addr w h vcc) s = .next t → t.status = .invalidArgument) ∧
  (∃ t, exec (.setContrast 256) State.reset = .next t ∧ t.status = .notInitialized)

/-- INVALID_ARGUMENT is raised by SETCONTRAST outside 0..255 and by BEGIN when ValidGeometry fails, and by nothing else; it
comes before any bus primitive, and the command changes no state except STATUS, RESULT and CP (60_exceptions R244). -/
def Obligations.InvalidArgument : Prop :=
  (∀ (v : Word) (s : State), s.active = true → ¬ ArgumentsValid (.setContrast v) →
    ∃ (l : Latch) (n : Nat), exec (.setContrast v) s = .next { s with
      status := .invalidArgument, result := 0, cp := s.cp + 2, responses := s.responses ++ [(.invalidArgument, 0)],
      latch := l, draws := n }) ∧
  (∀ (bus addr w h vcc : Word) (s : State), (∀ mode, ¬ ValidGeometry s.cfg.fbCapacity addr w h vcc mode) →
    ∃ (l : Latch) (n : Nat), exec (.beginInst bus addr w h vcc) s = .next { s with
      status := .invalidArgument, result := 0, cp := s.cp + 6, responses := s.responses ++ [(.invalidArgument, 0)],
      latch := l, draws := n }) ∧
  (∀ (i : Instr) (s t : State), exec i s = .next t → t.status = .invalidArgument →
    (∃ v, i = .setContrast v ∧ ¬ ArgumentsValid i) ∨
    (∃ bus addr w h vcc, i = .beginInst bus addr w h vcc ∧ ∀ mode, ¬ ValidGeometry s.cfg.fbCapacity addr w h vcc mode))

/-! ## Lifecycle -/

/-- The initialization sequence: the 26 bytes of R107 in order, and its two listings for the default table. -/
def Obligations.InitializationSequence : Prop :=
  (∀ (cmd : Cmd) (h : Int) (mode : Vcc), initSeq cmd h mode =
    [cmd.displayOff, cmd.setDisplayClockDiv, cmd.clockDivValue, cmd.setMultiplex, BitVec.ofInt 8 (h - 1),
     cmd.setDisplayOffset, 0x00, cmd.setStartLine0, cmd.chargePump,
     if mode = .external then cmd.chargePumpExt else cmd.chargePumpInt,
     cmd.memoryMode, cmd.memoryModeHoriz, cmd.segRemapInv, cmd.comScanDec, cmd.setComPins,
     if h = 16 ∨ h = 32 then cmd.comPinsSmall else cmd.comPinsOther,
     cmd.setContrast, if mode = .external then cmd.contrastExt else cmd.contrastInt,
     cmd.setPrecharge, if mode = .external then cmd.prechargeExt else cmd.prechargeInt,
     cmd.setVcomDetect, cmd.vcomDetectValue, cmd.displayAllOnResume, cmd.normalDisplay, cmd.deactivateScroll,
     cmd.displayOn]) ∧
  initSeq {} 64 .internal =
    [0xAE, 0xD5, 0x80, 0xA8, 0x3F, 0xD3, 0x00, 0x40, 0x8D, 0x14, 0x20, 0x00, 0xA1, 0xC8, 0xDA, 0x12, 0x81, 0xCF, 0xD9, 0xF1,
     0xDB, 0x40, 0xA4, 0xA6, 0x2E, 0xAF] ∧
  initSeq {} 32 .external =
    [0xAE, 0xD5, 0x80, 0xA8, 0x1F, 0xD3, 0x00, 0x40, 0x8D, 0x10, 0x20, 0x00, 0xA1, 0xC8, 0xDA, 0x02, 0x81, 0x9F, 0xD9, 0x22,
     0xDB, 0x40, 0xA4, 0xA6, 0x2E, 0xAF]

/-- BEGIN with valid operands and a bus that answers Ok creates the instance, whatever instance there was before: its bus
trace, and every register of the new instance (40_lifecycle R104, R106, R107, R110). -/
def Obligations.BeginCreatesTheInstance : Prop :=
  ∀ (bus addr w h vcc : Word) (mode : Vcc) (s : State), ValidGeometry s.cfg.fbCapacity addr w h vcc mode →
    TeardownAnswered s → (∀ k, k < 28 → s.answerAt (teardownAnswers s + k) = .ok) →
    ∃ t, exec (.beginInst bus addr w h vcc) s = .next t ∧ Completes s t 6 .ok 0 ∧
      Issued s t (teardownEvents s ++ allOk (beginPrims s.cfg.cmd bus addr h mode)) (teardownAnswers s + 28) ∧
      t.active = true ∧ t.busOpen = true ∧
      (t.handle.width : Int) = w.toInt ∧ (t.handle.height : Int) = h.toInt ∧ t.handle.vcc = mode ∧ t.handle.busId = bus ∧
      (t.handle.devAddr.toNat : Int) = addr.toInt ∧ t.handle.fb.wf ∧ (∀ a, t.handle.fb.read a = 0) ∧
      t.handle.contrast = (if mode = .external then s.cfg.cmd.contrastExt else s.cfg.cmd.contrastInt) ∧
      t.handle.cursorX = 0 ∧ t.handle.cursorY = 0 ∧ t.handle.textScale = 1 ∧ t.handle.textColor = .on ∧
      t.handle.textBg = .on ∧ t.handle.wrap = true

/-- BEGIN whose `j`-th primitive is the first to fail ends with IO_ERROR, no instance and the bus closed; the failed primitive
is the last but for the closing, which comes only when the bus had been opened; no cleanup frame is sent
(40_lifecycle R104, R108). -/
def Obligations.FailedBeginReleases : Prop :=
  ∀ (bus addr w h vcc : Word) (mode : Vcc) (s : State) (j reached : Nat), ValidGeometry s.cfg.fbCapacity addr w h vcc mode →
    s.busOpen = s.active → TeardownAnswered s → (∀ k, k < j → s.answerAt (teardownAnswers s + k) = .ok) →
    s.answerAt (teardownAnswers s + j) = .fail reached → j < 28 →
    ∃ t p, exec (.beginInst bus addr w h vcc) s = .next t ∧ Completes s t 6 .ioError 0 ∧
      (beginPrims s.cfg.cmd bus addr h mode)[j]? = some p ∧
      Issued s t (teardownEvents s ++ allOk ((beginPrims s.cfg.cmd bus addr h mode).take j) ++
        [⟨p, outcomeOf p (.fail reached)⟩] ++ (if j = 0 then [] else [⟨.closeBus, .ok⟩])) (teardownAnswers s + j + 1) ∧
      t.active = false ∧ t.busOpen = false

/-- The bus trace of a BEGIN that completes: nothing when its operands are invalid, else the teardown of a previous instance,
then the 28 primitives or a front part of them whose last one failed, then the closing if the bus had been opened
(40_lifecycle R109). -/
def Obligations.BeginBusTrace : Prop :=
  ∀ (bus addr w h vcc : Word) (s t : State), exec (.beginInst bus addr w h vcc) s = .next t →
    ((∀ mode, ¬ ValidGeometry s.cfg.fbCapacity addr w h vcc mode) ∧ t.busTrace = s.busTrace) ∨
    (∃ mode, ValidGeometry s.cfg.fbCapacity addr w h vcc mode ∧
      (t.busTrace = s.busTrace ++ teardownEvents s ++ allOk (beginPrims s.cfg.cmd bus addr h mode) ∨
       ∃ j p n, (beginPrims s.cfg.cmd bus addr h mode)[j]? = some p ∧
        t.busTrace = s.busTrace ++ teardownEvents s ++ allOk ((beginPrims s.cfg.cmd bus addr h mode).take j) ++
          [⟨p, .fail n⟩] ++ (if j = 0 then [] else [⟨.closeBus, .ok⟩])))

/-- END tears an active instance down, whatever the outcome of its power-off frame, and does nothing without one; it always
reports OK (40_lifecycle R111, R112). -/
def Obligations.EndTearsDown : Prop :=
  ∀ s : State, TeardownAnswered s →
    ∃ t, exec .endInst s = .next t ∧ Completes s t 1 .ok 0 ∧ Issued s t (teardownEvents s) (teardownAnswers s) ∧
      t.active = false ∧ (s.active = true → t.busOpen = false) ∧
      (s.active = false → t.busOpen = s.busOpen ∧ t.handle = s.handle)

/-- GETWIDTH and GETHEIGHT return W and H as 32-bit words, and change nothing else (40_lifecycle R113, R114). -/
def Obligations.GeometryGetters : Prop :=
  ∀ s : State, s.active = true → s.handle.width < 4294967296 → s.handle.height < 4294967296 →
    (∃ t, exec .getWidth s = .next t ∧ Completes s t 1 .ok t.result ∧ t.result.toNat = s.handle.width ∧ NoBus s t ∧
      SameInstance s t) ∧
    (∃ t, exec .getHeight s = .next t ∧ Completes s t 1 .ok t.result ∧ t.result.toNat = s.handle.height ∧ NoBus s t ∧
      SameInstance s t)

/-! ## Pixels -/

/-- Every pixel of the panel has its own bit of its own byte of the framebuffer, bit `y mod 8` of byte `x + (y div 8)*W`, and
every bit of every byte is a pixel's; a pixel is lit when its bit is 1 (20_memory R51). -/
def Obligations.PixelPacking : Prop :=
  ∀ d : DisplayHandle, d.height % 8 = 0 →
    (∀ x y : Nat, d.InBounds x y → x + (y / 8) * d.width < d.width * (d.height / 8) ∧
      d.pixel x y = (d.fb.read (x + (y / 8) * d.width)).getLsbD (y % 8)) ∧
    (∀ a k : Nat, a < d.width * (d.height / 8) → k < 8 →
      ∃ x y : Nat, d.InBounds x y ∧ x + (y / 8) * d.width = a ∧ y % 8 = k ∧
        ∀ x' y' : Nat, d.InBounds x' y' → x' + (y' / 8) * d.width = a → y' % 8 = k → x' = x ∧ y' = y)

/-- SETPIXEL paints one pixel, or nothing outside the panel, and always reports OK (41_pixel R131, R133). -/
def Obligations.SetPixelPaintsOnePixel : Prop :=
  ∀ (c : Color) (x y : Word) (s : State), s.active = true → s.handle.fb.wf →
    ∃ t, exec (.setPixel c x y) s = .next t ∧ Completes s t 3 .ok 0 ∧ NoBus s t ∧ t.active = s.active ∧
      Drawn s.handle t.handle (fun px py => px = x.toInt ∧ py = y.toInt) c

/-- GETPIXEL returns the pixel's bit, and 0 outside the panel; it changes nothing (41_pixel R134). -/
def Obligations.GetPixelReadsTheBit : Prop :=
  ∀ (x y : Word) (s : State), s.active = true →
    ∃ t, exec (.getPixel x y) s = .next t ∧ NoBus s t ∧ SameInstance s t ∧
      Completes s t 3 .ok
        (if 0 ≤ x.toInt ∧ x.toInt < s.handle.width ∧ 0 ≤ y.toInt ∧ y.toInt < s.handle.height ∧
            (s.handle.fb.read (x.toNat + (y.toNat / 8) * s.handle.width)).getLsbD (y.toNat % 8) = true
          then 1 else 0)

/-- CLEAR makes every byte of the framebuffer 0x00, touches no byte above it, issues no bus primitive, and leaves the rest of
the instance (41_pixel R135). -/
def Obligations.ClearBlanksTheBuffer : Prop :=
  ∀ s : State, s.active = true → s.handle.fb.wf →
    ∃ t, exec .clear s = .next t ∧ Completes s t 1 .ok 0 ∧ NoBus s t ∧ t.active = s.active ∧
      t.handle = { s.handle with fb := t.handle.fb } ∧ t.handle.fb.wf ∧
      (∀ a, a < s.handle.width * (s.handle.height / 8) → t.handle.fb.read a = 0) ∧
      (∀ a, ¬ a < s.handle.width * (s.handle.height / 8) → t.handle.fb.read a = s.handle.fb.read a)

/-- The pixel laws: on then read gives 1, off then read gives 0, inverse twice restores the framebuffer, no SETPIXEL changes
another bit, and out of bounds nothing is written and 0 is read (41_pixel R136). -/
def Obligations.PixelLaws : Prop :=
  ∀ (x y : Word) (s : State), s.active = true → s.handle.fb.wf →
    (s.handle.InBounds x.toInt y.toInt →
      (∃ t u, exec (.setPixel .on x y) s = .next t ∧ exec (.getPixel x y) t = .next u ∧ u.status = .ok ∧ u.result = 1) ∧
      (∃ t u, exec (.setPixel .off x y) s = .next t ∧ exec (.getPixel x y) t = .next u ∧ u.status = .ok ∧ u.result = 0) ∧
      (∃ t u, exec (.setPixel .inverse x y) s = .next t ∧ exec (.setPixel .inverse x y) t = .next u ∧
        u.handle.fb = s.handle.fb) ∧
      (∀ c t, exec (.setPixel c x y) s = .next t → ∀ a k, ¬ (a = x.toNat + (y.toNat / 8) * s.handle.width ∧ k = y.toNat % 8) →
        (t.handle.fb.read a).getLsbD k = (s.handle.fb.read a).getLsbD k)) ∧
    (¬ s.handle.InBounds x.toInt y.toInt →
      (∀ c, ∃ t, exec (.setPixel c x y) s = .next t ∧ t.handle.fb = s.handle.fb) ∧
      (∃ u, exec (.getPixel x y) s = .next u ∧ u.status = .ok ∧ u.result = 0))

/-! ## Raster -/

/-- DRAWLINE applies its colour once to each point that the integer Bresenham loop visits (42_raster R150, R151). -/
def Obligations.DrawLineDrawsLineSet : Prop :=
  ∀ (c : Color) (x0 y0 x1 y1 : Word) (s : State), s.active = true → s.handle.fb.wf →
    ∃ t, exec (.drawLine c x0 y0 x1 y1) s = .next t ∧ Completes s t 5 .ok 0 ∧ NoBus s t ∧ t.active = s.active ∧
      Drawn s.handle t.handle (LineSet x0.toInt y0.toInt x1.toInt y1.toInt) c

/-- The loop of LineSet ends at the second endpoint after `max(dx, dy) + 1` points, which are distinct; the first is the first
endpoint; consecutive ones are 8-neighbours and move monotonically towards the end; they are exactly the points the loop
visits (42_raster R151). -/
def Obligations.LineHasNoGaps : Prop :=
  ∀ x0 y0 x1 y1 : Int, ∃ points : List (Int × Int),
    (∀ p, p ∈ points ↔ LineSet x0 y0 x1 y1 p.1 p.2) ∧ points.Nodup ∧
    (points.length : Int) = max |x1 - x0| |y1 - y0| + 1 ∧
    points.head? = some (x0, y0) ∧ points.getLast? = some (x1, y1) ∧
    points.IsChain (fun p q =>
      (q.1 - p.1 = 0 ∨ q.1 - p.1 = (if x0 < x1 then 1 else -1)) ∧
      (q.2 - p.2 = 0 ∨ q.2 - p.2 = (if y0 < y1 then 1 else -1)) ∧ q ≠ p)

/-- DRAWRECT paints the border pixels of its rectangle, each once, clipped to the panel (42_raster R152). -/
def Obligations.DrawRectDrawsTheOutline : Prop :=
  ∀ (c : Color) (x y w h : Word) (s : State), s.active = true → s.handle.fb.wf →
    ∃ t, exec (.drawRect c x y w h) s = .next t ∧ Completes s t 5 .ok 0 ∧ NoBus s t ∧ t.active = s.active ∧
      Drawn s.handle t.handle (RectOutline x.toInt y.toInt w.toInt h.toInt) c

/-- FILLRECT paints every pixel of its rectangle, clipped to the panel (42_raster R153). -/
def Obligations.FillRectFillsTheRectangle : Prop :=
  ∀ (c : Color) (x y w h : Word) (s : State), s.active = true → s.handle.fb.wf →
    ∃ t, exec (.fillRect c x y w h) s = .next t ∧ Completes s t 5 .ok 0 ∧ NoBus s t ∧ t.active = s.active ∧
      Drawn s.handle t.handle (RectFill x.toInt y.toInt w.toInt h.toInt) c

/-- After FILLRECT.on on an all-off buffer, with the rectangle inside the panel, exactly the `w*h` pixels of the rectangle are
on; with `w = 0` or `h = 0` none is (42_raster R154). -/
def Obligations.FillRectPixelCount : Prop :=
  ∀ (x y w h : Word) (s : State), s.active = true → s.handle.fb.wf → (∀ px py, s.handle.pixel px py = false) →
    ∃ t, exec (.fillRect .on x y w h) s = .next t ∧
      (0 < w.toInt → 0 < h.toInt → 0 ≤ x.toInt → 0 ≤ y.toInt → x.toInt + w.toInt ≤ s.handle.width →
        y.toInt + h.toInt ≤ s.handle.height →
        ∃ lit : Finset (Int × Int), (∀ p, p ∈ lit ↔ t.handle.pixel p.1 p.2 = true) ∧
          (lit.card : Int) = w.toInt * h.toInt ∧
          ∀ p, p ∈ lit ↔ x.toInt ≤ p.1 ∧ p.1 < x.toInt + w.toInt ∧ y.toInt ≤ p.2 ∧ p.2 < y.toInt + h.toInt) ∧
      (w.toInt = 0 ∨ h.toInt = 0 → ∀ px py, t.handle.pixel px py = false)

/-- DRAWCIRCLE paints the octant points of every step of the midpoint loop, each once, clipped (42_raster R155). -/
def Obligations.DrawCircleDrawsTheOutline : Prop :=
  ∀ (c : Color) (x0 y0 r : Word) (s : State), s.active = true → s.handle.fb.wf →
    ∃ t, exec (.drawCircle c x0 y0 r) s = .next t ∧ Completes s t 4 .ok 0 ∧ NoBus s t ∧ t.active = s.active ∧
      Drawn s.handle t.handle (CircleSet x0.toInt y0.toInt r.toInt) c

/-- FILLCIRCLE paints every pixel of the disc, each once, clipped (42_raster R156). -/
def Obligations.FillCircleFillsTheDisc : Prop :=
  ∀ (c : Color) (x0 y0 r : Word) (s : State), s.active = true → s.handle.fb.wf →
    ∃ t, exec (.fillCircle c x0 y0 r) s = .next t ∧ Completes s t 4 .ok 0 ∧ NoBus s t ∧ t.active = s.active ∧
      Drawn s.handle t.handle (DiscSet x0.toInt y0.toInt r.toInt) c

/-- On the panel the circle is symmetric in both axes and both diagonals through its centre, and the disc is `dx² + dy² ≤ r²`
(42_raster R157), said of what the commands draw on an all-off buffer. -/
def Obligations.CircleSymmetryAndDisc : Prop :=
  ∀ (x0 y0 r : Word) (s : State), s.active = true → s.handle.fb.wf → (∀ px py, s.handle.pixel px py = false) →
    (∃ t, exec (.drawCircle .on x0 y0 r) s = .next t ∧
      ∀ dx dy : Int, s.handle.InBounds (x0.toInt + dx) (y0.toInt + dy) →
        (s.handle.InBounds (x0.toInt - dx) (y0.toInt + dy) →
          t.handle.pixel (x0.toInt + dx) (y0.toInt + dy) = t.handle.pixel (x0.toInt - dx) (y0.toInt + dy)) ∧
        (s.handle.InBounds (x0.toInt + dx) (y0.toInt - dy) →
          t.handle.pixel (x0.toInt + dx) (y0.toInt + dy) = t.handle.pixel (x0.toInt + dx) (y0.toInt - dy)) ∧
        (s.handle.InBounds (x0.toInt + dy) (y0.toInt + dx) →
          t.handle.pixel (x0.toInt + dx) (y0.toInt + dy) = t.handle.pixel (x0.toInt + dy) (y0.toInt + dx)) ∧
        (s.handle.InBounds (x0.toInt - dy) (y0.toInt - dx) →
          t.handle.pixel (x0.toInt + dx) (y0.toInt + dy) = t.handle.pixel (x0.toInt - dy) (y0.toInt - dx))) ∧
    (∃ t, exec (.fillCircle .on x0 y0 r) s = .next t ∧
      (0 ≤ r.toInt → ∀ dx dy : Int, s.handle.InBounds (x0.toInt + dx) (y0.toInt + dy) →
        (t.handle.pixel (x0.toInt + dx) (y0.toInt + dy) = true ↔ dx * dx + dy * dy ≤ r.toInt * r.toInt)))

/-! ## Text -/

/-- DRAWGLYPH draws the glyph in its colour and the background only when it differs; a scale below 1 is 1; the cursor is neither
read nor written (43_glyph_text R182, R183). -/
def Obligations.DrawGlyphDrawsTheCell : Prop :=
  ∀ (c b : Color) (x y ch scale : Word) (s : State), s.active = true → s.handle.fb.wf →
    ∃ t, exec (.drawGlyph c b x y ch scale) s = .next t ∧ Completes s t 5 .ok 0 ∧ NoBus s t ∧ t.active = s.active ∧
      DrawsChar s.cfg.glyph s.handle t.handle x.toInt y.toInt ch.toNat c b
        (if scale.toInt < 1 then 1 else scale.toInt.toNat) ∧
      t.handle = { s.handle with fb := t.handle.fb }

/-- The two glyph sets are disjoint and together cover the `5s × 8s` block (43_glyph_text R181), codes outside 32..126 are
blank (R180), and DRAWGLYPH writes only pixels of that cell, with `b = c` only those of the glyph (R184). -/
def Obligations.GlyphCell : Prop :=
  (∀ (rom : GlyphRom) (x y : Int) (ch s : Nat) (px py : Int), 1 ≤ s →
    ¬ (GlyphPixels true rom x y ch s px py ∧ GlyphPixels false rom x y ch s px py) ∧
    (GlyphPixels true rom x y ch s px py ∨ GlyphPixels false rom x y ch s px py ↔
      x ≤ px ∧ px < x + 5 * s ∧ y ≤ py ∧ py < y + 8 * s)) ∧
  (∀ (rom : GlyphRom) (ch i : Nat), (ch < 32 ∨ 126 < ch) → glyphColumn rom ch i = 0) ∧
  (∀ (rom : GlyphRom) (ch i : Nat), 32 ≤ ch → ch ≤ 126 → i ≤ 4 → some (glyphColumn rom ch i) = rom[(ch - 32) * 5 + i]?) ∧
  (∀ (c b : Color) (x y ch scale : Word) (s t : State), s.active = true → s.handle.fb.wf →
    exec (.drawGlyph c b x y ch scale) s = .next t →
    (∀ px py, ¬ (x.toInt ≤ px ∧ px < x.toInt + 5 * effScale scale.toInt ∧ y.toInt ≤ py ∧
      py < y.toInt + 8 * effScale scale.toInt) → t.handle.pixel px py = s.handle.pixel px py) ∧
    (b = c → ∀ px py, ¬ GlyphPixels true s.cfg.glyph x.toInt y.toInt ch.toNat (effScale scale.toInt) px py →
      t.handle.pixel px py = s.handle.pixel px py))

/-- The text-state setters write exactly their registers: the cursor, the scale (1 for a request below 1), the colours
(43_glyph_text R185, R186, R187). -/
def Obligations.TextSetters : Prop :=
  (∀ (x y : Word) (s : State), s.active = true →
    ∃ t, exec (.setCursor x y) s = .next t ∧ Completes s t 3 .ok 0 ∧ NoBus s t ∧ t.active = s.active ∧
      t.handle = { s.handle with cursorX := x, cursorY := y }) ∧
  (∀ (size : Word) (s : State), s.active = true →
    ∃ t, exec (.setTextSize size) s = .next t ∧ Completes s t 2 .ok 0 ∧ NoBus s t ∧ t.active = s.active ∧
      t.handle = { s.handle with textScale := if size.toInt < 1 then 1 else size.toInt.toNat }) ∧
  (∀ (c b : Color) (s : State), s.active = true →
    ∃ t, exec (.setTextColor c b) s = .next t ∧ Completes s t 1 .ok 0 ∧ NoBus s t ∧ t.active = s.active ∧
      t.handle = { s.handle with textColor := c, textBg := b })

/-- PRINT does what its loop does, and is refused exactly where the loop meets a cursor value outside the signed 32-bit range
(43_glyph_text R189, R190). -/
def Obligations.PrintFollowsItsLoop : Prop :=
  ∀ (n : Word) (payload : List Word) (s : State), s.active = true → s.handle.fb.wf →
    (∀ t, exec (.print n payload) s = .next t →
      Prints s.cfg.glyph s.handle (textBytes n payload) t.handle ∧ Completes s t (2 + (n.toNat + 3) / 4) .ok 0 ∧ NoBus s t ∧
      t.active = s.active) ∧
    ((∃ t, exec (.print n payload) s = .next t) ∨ exec (.print n payload) s = .refused .cursorRange) ∧
    (exec (.print n payload) s = .refused .cursorRange ↔ ¬ ∃ d, Prints s.cfg.glyph s.handle (textBytes n payload) d)

/-- PRINT completes when its text cannot carry the cursor out of range, whatever the characters, the wrap and the geometry
(43_glyph_text R189). -/
def Obligations.PrintCompletes : Prop :=
  ∀ (n : Word) (payload : List Word) (s : State), s.active = true → s.handle.fb.wf →
    max s.handle.cursorX.toInt 0 + 6 * s.handle.textScale * n.toNat < 2147483648 →
    s.handle.cursorY.toInt + 8 * s.handle.textScale * n.toNat < 2147483648 →
    ∃ t, exec (.print n payload) s = .next t ∧ Completes s t (2 + (n.toNat + 3) / 4) .ok 0 ∧ NoBus s t ∧
      t.active = s.active ∧ Prints s.cfg.glyph s.handle (textBytes n payload) t.handle ∧
      t.handle = { s.handle with fb := t.handle.fb, cursorX := t.handle.cursorX, cursorY := t.handle.cursorY }

/-- PRINT's cursor does not depend on the glyph table (43_glyph_text R191), nor on the framebuffer (R189 reads none for it); "AB\nC" from (0,0) at scale 1 on a panel 128
wide ends at (6, 8), and "AB" at (12, 0) (R189, R191). -/
def Obligations.PrintCursorIgnoresGlyphs : Prop :=
  (∀ (n : Word) (payload : List Word) (s : State) (rom : GlyphRom) (m : Memory) (t : State),
    exec (.print n payload) s = .next t →
    ∃ u, exec (.print n payload)
        { s with cfg := { s.cfg with glyph := rom }, handle := { s.handle with fb := m } } = .next u ∧
      u.handle.cursorX = t.handle.cursorX ∧ u.handle.cursorY = t.handle.cursorY) ∧
  (∀ s : State, s.active = true → s.handle.width = 128 → 16 ≤ s.handle.height → s.handle.cursorX = 0 →
    s.handle.cursorY = 0 → s.handle.textScale = 1 →
    (∃ t, exec (.print 4 [0x430A4241]) s = .next t ∧ t.handle.cursorX = 6 ∧ t.handle.cursorY = 8) ∧
    (∃ t, exec (.print 2 [0x00004241]) s = .next t ∧ t.handle.cursorX = 12 ∧ t.handle.cursorY = 0))

/-! ## Display sync -/

/-- FLUSH sends the address window and the whole framebuffer, in index order, and changes no instance register
(44_display_sync R210, 20_memory R55). -/
def Obligations.FlushSendsTheFramebuffer : Prop :=
  ∀ s : State, s.active = true → (∀ k, k < 7 → s.answerAt k = .ok) →
    ∃ t, exec .flush s = .next t ∧ Completes s t 1 .ok 0 ∧ SameInstance s t ∧ t.busOpen = s.busOpen ∧
      Issued s t
        ([⟨.cmdFrame s.cfg.cmd.columnAddr, .ok⟩, ⟨.cmdFrame 0x00, .ok⟩, ⟨.cmdFrame (BitVec.ofInt 8 ((s.handle.width : Int) - 1)), .ok⟩,
          ⟨.cmdFrame s.cfg.cmd.pageAddr, .ok⟩, ⟨.cmdFrame 0x00, .ok⟩,
          ⟨.cmdFrame (BitVec.ofInt 8 ((s.handle.height / 8 : Nat) - 1 : Int)), .ok⟩,
          ⟨.dataFrame ((List.range (s.handle.width * (s.handle.height / 8))).map fun a => s.handle.fb.read a), .ok⟩]) 7

/-- FLUSH's bus trace is a front part of its seven primitives that ends at the first failure or after the data frame; a data
frame that succeeds carries FB as it was at the start; after CLEAR that is `W*H/8` zero bytes (44_display_sync R211). -/
def Obligations.FlushBusTrace : Prop :=
  (∀ s t : State, s.active = true → exec .flush s = .next t →
    t.busTrace = s.busTrace ++ allOk (syncPrims s.cfg.cmd s.handle .flush) ∨
    ∃ j p n, j < 7 ∧ (syncPrims s.cfg.cmd s.handle .flush)[j]? = some p ∧
      t.busTrace = s.busTrace ++ allOk ((syncPrims s.cfg.cmd s.handle .flush).take j) ++ [⟨p, .fail n⟩]) ∧
  (∀ s t : State, s.active = true → exec .flush s = .next t → ∀ events bytes,
    t.busTrace = s.busTrace ++ events → ⟨.dataFrame bytes, .ok⟩ ∈ events →
    bytes.length = s.handle.width * (s.handle.height / 8) ∧ ∀ a b, bytes[a]? = some b → b = s.handle.fb.read a) ∧
  (∀ s t u : State, s.active = true → s.handle.fb.wf → exec .clear s = .next t → exec .flush t = .next u → ∀ events bytes,
    u.busTrace = t.busTrace ++ events → ⟨.dataFrame bytes, .ok⟩ ∈ events →
    bytes = List.replicate (s.handle.width * (s.handle.height / 8)) 0)

/-- INVERT sends the inverted or the normal polarity command, any nonzero flag meaning true; DIM with a true flag sends
contrast 0 and with a false flag no frame. Neither writes CONTRAST or any other block register but STATUS, RESULT, the latch and
CP (44_display_sync R212, R213, R214). -/
def Obligations.PolarityAndDimming : Prop :=
  (∀ (flag : Word) (s : State), s.active = true → s.answerAt 0 = .ok →
    ∃ t, exec (.invert flag) s = .next t ∧ Completes s t 2 .ok 0 ∧ SameInstance s t ∧ t.busOpen = s.busOpen ∧
      Issued s t [⟨.cmdFrame (if flag = 0 then s.cfg.cmd.normalDisplay else s.cfg.cmd.invertDisplay), .ok⟩] 1) ∧
  (∀ (flag : Word) (s : State), s.active = true → (flag ≠ 0 → s.answerAt 0 = .ok ∧ s.answerAt 1 = .ok) →
    ∃ t, exec (.dim flag) s = .next t ∧ Completes s t 2 .ok 0 ∧ SameInstance s t ∧ t.busOpen = s.busOpen ∧
      Issued s t (if flag = 0 then [] else [⟨.cmdFrame s.cfg.cmd.setContrast, .ok⟩, ⟨.cmdFrame 0x00, .ok⟩])
        (if flag = 0 then 0 else 2))

/-- SETCONTRAST of 0..255 sends the value and stores it in CONTRAST, and no other register changes; SETCONTRAST 256 and
SETCONTRAST -1 end with INVALID_ARGUMENT and leave CONTRAST, and the bus, as they were (44_display_sync R216, R217). -/
def Obligations.SetContrastStoresTheValue : Prop :=
  (∀ (v : Word) (s : State), s.active = true → 0 ≤ v.toInt → v.toInt ≤ 255 → s.answerAt 0 = .ok → s.answerAt 1 = .ok →
    ∃ t, exec (.setContrast v) s = .next t ∧ Completes s t 2 .ok 0 ∧ t.active = s.active ∧ t.busOpen = s.busOpen ∧
      (t.handle.contrast.toNat : Int) = v.toInt ∧ t.handle = { s.handle with contrast := t.handle.contrast } ∧
      Issued s t [⟨.cmdFrame s.cfg.cmd.setContrast, .ok⟩, ⟨.cmdFrame t.handle.contrast, .ok⟩] 2) ∧
  (∀ (v : Word) (s : State), s.active = true → v = 256 ∨ v.toInt = -1 →
    ∃ t, exec (.setContrast v) s = .next t ∧ t.status = .invalidArgument ∧ t.handle.contrast = s.handle.contrast ∧
      t.busTrace = s.busTrace)

/-- The four scroll starts send their byte sequences and STOPSCROLL its one byte, one command frame for each byte, and change no
instance register; with the filler bytes of CMD at their defaults the sequences are those written in R218 to R221
(44_display_sync R218 to R222; fillers log 15). -/
def Obligations.ScrollCommandsSendTheirBytes : Prop :=
  ∀ (start stop : Word) (s : State), s.active = true → (∀ k, k < 10 → s.answerAt k = .ok) →
    s.cfg.cmd.scrollDummy00 = 0x00 → s.cfg.cmd.scrollDummyFF = 0xFF → s.cfg.cmd.scrollVOffset = 0x01 →
    let sends (i : Instr) (len : Nat) (bytes : List Byte) : Prop :=
      ∃ t, exec i s = .next t ∧ Completes s t len .ok 0 ∧ SameInstance s t ∧ t.busOpen = s.busOpen ∧
        Issued s t (allOk (bytes.map .cmdFrame)) bytes.length
    sends (.scrollRight start stop) 3 [s.cfg.cmd.rightHScroll, 0x00, start.setWidth 8, 0x00, stop.setWidth 8, 0x00, 0xFF,
      s.cfg.cmd.activateScroll] ∧
    sends (.scrollLeft start stop) 3 [s.cfg.cmd.leftHScroll, 0x00, start.setWidth 8, 0x00, stop.setWidth 8, 0x00, 0xFF,
      s.cfg.cmd.activateScroll] ∧
    sends (.scrollDiagRight start stop) 3 [s.cfg.cmd.setVScrollArea, 0x00, BitVec.ofNat 8 s.handle.height,
      s.cfg.cmd.vRightHScroll, 0x00, start.setWidth 8, 0x00, stop.setWidth 8, 0x01, s.cfg.cmd.activateScroll] ∧
    sends (.scrollDiagLeft start stop) 3 [s.cfg.cmd.setVScrollArea, 0x00, BitVec.ofNat 8 s.handle.height,
      s.cfg.cmd.vLeftHScroll, 0x00, start.setWidth 8, 0x00, stop.setWidth 8, 0x01, s.cfg.cmd.activateScroll] ∧
    sends .stopScroll 1 [s.cfg.cmd.deactivateScroll]

/-- For any command table: a display-sync command whose primitives all succeed completes with OK and has issued exactly its
primitives (44_display_sync R210 to R222). That the scroll fillers too follow the table is the model's choice (log 15). -/
def Obligations.SyncCommandCompletes : Prop :=
  ∀ (i : Instr) (s : State), IsSync i → s.active = true → ArgumentsValid i →
    (∀ k, k < (syncPrims s.cfg.cmd s.handle i).length → s.answerAt k = .ok) →
    ∃ t, exec i s = .next t ∧ Completes s t i.len .ok 0 ∧ t.active = s.active ∧ t.busOpen = s.busOpen ∧
      t.handle = { s.handle with contrast := t.handle.contrast } ∧
      ((∀ v, i ≠ .setContrast v) → t.handle = s.handle) ∧
      Issued s t (allOk (syncPrims s.cfg.cmd s.handle i)) (syncPrims s.cfg.cmd s.handle i).length

/-- A display-sync command whose `j`-th primitive is the first to fail ends with IO_ERROR: the failed primitive is the last one
issued, and no instance register changes (60_exceptions R243 for these commands, 40_lifecycle R103). The model's choices in it:
the scroll fillers follow the command table (log 15), and the trace records how much of the failed frame arrived (log 5). -/
def Obligations.FailedFrameEndsTheCommand : Prop :=
  ∀ (i : Instr) (s : State) (j reached : Nat) (p : BusPrim), IsSync i → s.active = true → ArgumentsValid i →
    (syncPrims s.cfg.cmd s.handle i)[j]? = some p → (∀ k, k < j → s.answerAt k = .ok) → s.answerAt j = .fail reached →
    ∃ t, exec i s = .next t ∧ Completes s t i.len .ioError 0 ∧ SameInstance s t ∧ t.busOpen = s.busOpen ∧
      Issued s t (allOk ((syncPrims s.cfg.cmd s.handle i).take j) ++ [⟨p, outcomeOf p (.fail reached)⟩]) (j + 1)

/-- A primitive that never completes holds the engine: no step, whether it is a frame of a display-sync command, the power-off
frame of END, the power-off frame or one of the 28 primitives of BEGIN, or the power-off frame of the reset input
(40_lifecycle R102, 60_exceptions R249, 70_reset R270). That the outcome is `.fault .transferStalled` is the model's choice (log 8), that the
scroll frames follow the command table is log 15, and the stall of a reset is log 12. -/
def Obligations.StalledFrameHoldsTheEngine : Prop :=
  (∀ (i : Instr) (s : State), Stalls i s → exec i s = .fault .transferStalled) ∧
  (∀ (i : Instr) (s : State) (rest : List Word), s.Ready → decode (s.host.words.drop s.cp) = .command i rest → Stalls i s →
    step s = .fault .transferStalled) ∧
  (∀ (s : State) (hs : HostStream), s.resetInput = some hs → PowerOffStalls s → step s = .fault .transferStalled)

/-- A primitive succeeds whole or fails: after Ok the whole frame has arrived, after Fail a front part of it, and every front
part, none and all among them, is admitted (40_lifecycle R101). -/
def Obligations.FailedFrameMayDeliverAnyPart : Prop :=
  (∀ (s t : State) (p : BusPrim), s.issue p = .ok t → ∃ e, t.busTrace = s.busTrace ++ [e] ∧ e.prim = p ∧ e.delivered = p.frame) ∧
  (∀ (s t : State) (p : BusPrim), s.issue p = .fail t →
    ∃ e n, t.busTrace = s.busTrace ++ [e] ∧ e.prim = p ∧ n ≤ p.frame.length ∧ e.delivered = p.frame.take n) ∧
  (∀ (s : State) (p : BusPrim) (n : Nat), n ≤ p.frame.length →
    ∃ answers t e, State.issue { s with answers := answers } p = .fail t ∧ t.busTrace = s.busTrace ++ [e] ∧
      e.prim = p ∧ e.delivered = p.frame.take n)

/-! ## Frames over all commands -/

/-- What each command may write of the instance (10_state R42): only the drawing commands, CLEAR and PRINT write FB, only
SETCURSOR and PRINT the cursor, only SETTEXTSIZE the scale, only SETTEXTCOLOR the colours, only SETCONTRAST the contrast; W, H,
VCC_MODE, BUS_ID, DEV_ADDR, WRAP, ACTIVE and BUS_OPEN are written by BEGIN and END alone. -/
def Obligations.RegisterWriters : Prop :=
  ∀ (i : Instr) (s t : State), exec i s = .next t → i ≠ .endInst → (∀ a b c d e, i ≠ .beginInst a b c d e) →
    t.active = s.active ∧ t.busOpen = s.busOpen ∧ t.handle.width = s.handle.width ∧ t.handle.height = s.handle.height ∧
    t.handle.vcc = s.handle.vcc ∧ t.handle.busId = s.handle.busId ∧ t.handle.devAddr = s.handle.devAddr ∧
    t.handle.wrap = s.handle.wrap ∧
    ((∀ v, i ≠ .setContrast v) → t.handle.contrast = s.handle.contrast) ∧
    ((∀ x y, i ≠ .setCursor x y) → (∀ n p, i ≠ .print n p) →
      t.handle.cursorX = s.handle.cursorX ∧ t.handle.cursorY = s.handle.cursorY) ∧
    ((∀ v, i ≠ .setTextSize v) → t.handle.textScale = s.handle.textScale) ∧
    ((∀ c b, i ≠ .setTextColor c b) → t.handle.textColor = s.handle.textColor ∧ t.handle.textBg = s.handle.textBg) ∧
    (i.opcode ∉ [.setPixel, .clear, .drawLine, .drawRect, .fillRect, .drawCircle, .fillCircle, .drawGlyph, .print] →
      t.handle.fb = s.handle.fb)

/-- No drawing, text or getter command issues a bus primitive: the panel changes only by FLUSH (70_reset R275, 42_raster); and
no display-sync command writes FB (44_display_sync R223). -/
def Obligations.DrawingIsOffTheBus : Prop :=
  (∀ (i : Instr) (s t : State), exec i s = .next t → ¬ IsSync i → i ≠ .endInst → (∀ a b c d e, i ≠ .beginInst a b c d e) →
    NoBus s t) ∧
  (∀ (i : Instr) (s t : State), exec i s = .next t → IsSync i → t.handle.fb = s.handle.fb) ∧
  (∀ (i : Instr) (s t : State) (m : Memory), IsSync i → i ≠ .flush → exec i s = .next t →
    exec i { s with handle := { s.handle with fb := m } } = .next { t with handle := { t.handle with fb := m } })

/-- The bus trace and the response trace are histories (10_state R39). That they are lists, to which a step only adds, is the
model's choice (log 18), and so is that they go on across a reset (log 12). -/
def Obligations.HistoriesOnlyGrow : Prop :=
  ∀ s t : State, step s = .next t →
    (∃ events, t.busTrace = s.busTrace ++ events) ∧ (∃ rs, t.responses = s.responses ++ rs)

/-! ## The invariant -/

/-- The state after reset has the invariant. The instance registers' values there, which the invariant bounds, are the model's
choice (log 2), and so is the framebuffer's canonical form (log 13). -/
def Obligations.ResetHasTheInvariant : Prop := State.reset.Inv

/-- Every step keeps the invariant: the framebuffer's form and size, ACTIVE and BUS_OPEN in step with the bus trace, the ranges
of the geometry and the scale, WRAP, FAULT with ILLEGAL_COMMAND, RESULT 0 with every other status than OK (10_state R20, R24,
R25, R28, R31, R33, R35; 60_exceptions R245). While ACTIVE = 0 the instance registers are unspecified (R40): that their free
values keep the ranges is the model's choice (log 1). The framebuffer's canonical form is the model's (log 13). -/
def Obligations.StepKeepsTheInvariant : Prop :=
  ∀ s t : State, s.Inv → step s = .next t → t.Inv
end

