-- ==== Sys2Proof/Laws/State.lean ====
section
/-! SUPPORT. The small lemmas of the state updates: one for each field and update, true by rfl. -/

namespace Sys2Proof.Machine

variable (s : State)

/-! ## The ends of a command are `complete` -/

@[simp] theorem State.done_eq (len : Nat) : s.done len = s.complete len .ok 0 := rfl
@[simp] theorem State.returns_eq (len : Nat) (r : Word) : s.returns len r = s.complete len .ok r := rfl
@[simp] theorem State.raiseError_eq (len : Nat) (e : Status) : s.raiseError len e = s.complete len e 0 := rfl

/-! ## respond -/

@[simp] theorem State.respond_cp (st : Status) (r : Word) : (s.respond st r).cp = s.cp := rfl
@[simp] theorem State.respond_faulted (st : Status) (r : Word) : (s.respond st r).faulted = s.faulted := rfl
@[simp] theorem State.respond_active (st : Status) (r : Word) : (s.respond st r).active = s.active := rfl
@[simp] theorem State.respond_busOpen (st : Status) (r : Word) : (s.respond st r).busOpen = s.busOpen := rfl
@[simp] theorem State.respond_handle (st : Status) (r : Word) : (s.respond st r).handle = s.handle := rfl
@[simp] theorem State.respond_latch (st : Status) (r : Word) : (s.respond st r).latch = s.latch := rfl
@[simp] theorem State.respond_status (st : Status) (r : Word) : (s.respond st r).status = st := rfl
@[simp] theorem State.respond_result (st : Status) (r : Word) : (s.respond st r).result = resultFor st r := rfl
@[simp] theorem State.respond_busTrace (st : Status) (r : Word) : (s.respond st r).busTrace = s.busTrace := rfl
@[simp] theorem State.respond_responses (st : Status) (r : Word) :
    (s.respond st r).responses = s.responses ++ [(st, resultFor st r)] := rfl
@[simp] theorem State.respond_cfg (st : Status) (r : Word) : (s.respond st r).cfg = s.cfg := rfl
@[simp] theorem State.respond_host (st : Status) (r : Word) : (s.respond st r).host = s.host := rfl
@[simp] theorem State.respond_resetInput (st : Status) (r : Word) : (s.respond st r).resetInput = s.resetInput := rfl
@[simp] theorem State.respond_answers (st : Status) (r : Word) : (s.respond st r).answers = s.answers := rfl
@[simp] theorem State.respond_busDraws (st : Status) (r : Word) : (s.respond st r).busDraws = s.busDraws := rfl
@[simp] theorem State.respond_draws (st : Status) (r : Word) : (s.respond st r).draws = s.draws := rfl
@[simp] theorem State.respond_answerAt (st : Status) (r : Word) (k : Nat) :
    (s.respond st r).answerAt k = s.answerAt k := rfl

/-! ## freeLatch -/

@[simp] theorem State.freeLatch_cp : (s.freeLatch).cp = s.cp := rfl
@[simp] theorem State.freeLatch_faulted : (s.freeLatch).faulted = s.faulted := rfl
@[simp] theorem State.freeLatch_active : (s.freeLatch).active = s.active := rfl
@[simp] theorem State.freeLatch_busOpen : (s.freeLatch).busOpen = s.busOpen := rfl
@[simp] theorem State.freeLatch_handle : (s.freeLatch).handle = s.handle := rfl
@[simp] theorem State.freeLatch_latch : (s.freeLatch).latch = Machine.freeLatch s.draws := rfl
@[simp] theorem State.freeLatch_status : (s.freeLatch).status = s.status := rfl
@[simp] theorem State.freeLatch_result : (s.freeLatch).result = s.result := rfl
@[simp] theorem State.freeLatch_busTrace : (s.freeLatch).busTrace = s.busTrace := rfl
@[simp] theorem State.freeLatch_responses : (s.freeLatch).responses = s.responses := rfl
@[simp] theorem State.freeLatch_cfg : (s.freeLatch).cfg = s.cfg := rfl
@[simp] theorem State.freeLatch_host : (s.freeLatch).host = s.host := rfl
@[simp] theorem State.freeLatch_resetInput : (s.freeLatch).resetInput = s.resetInput := rfl
@[simp] theorem State.freeLatch_answers : (s.freeLatch).answers = s.answers := rfl
@[simp] theorem State.freeLatch_busDraws : (s.freeLatch).busDraws = s.busDraws := rfl
@[simp] theorem State.freeLatch_draws : (s.freeLatch).draws = s.draws + 1 := rfl
@[simp] theorem State.freeLatch_answerAt (k : Nat) :
    (s.freeLatch).answerAt k = s.answerAt k := rfl

/-! ## freeHandle -/

@[simp] theorem State.freeHandle_cp : (s.freeHandle).cp = s.cp := rfl
@[simp] theorem State.freeHandle_faulted : (s.freeHandle).faulted = s.faulted := rfl
@[simp] theorem State.freeHandle_active : (s.freeHandle).active = s.active := rfl
@[simp] theorem State.freeHandle_busOpen : (s.freeHandle).busOpen = s.busOpen := rfl
@[simp] theorem State.freeHandle_handle : (s.freeHandle).handle = Machine.freeHandle s.draws := rfl
@[simp] theorem State.freeHandle_latch : (s.freeHandle).latch = s.latch := rfl
@[simp] theorem State.freeHandle_status : (s.freeHandle).status = s.status := rfl
@[simp] theorem State.freeHandle_result : (s.freeHandle).result = s.result := rfl
@[simp] theorem State.freeHandle_busTrace : (s.freeHandle).busTrace = s.busTrace := rfl
@[simp] theorem State.freeHandle_responses : (s.freeHandle).responses = s.responses := rfl
@[simp] theorem State.freeHandle_cfg : (s.freeHandle).cfg = s.cfg := rfl
@[simp] theorem State.freeHandle_host : (s.freeHandle).host = s.host := rfl
@[simp] theorem State.freeHandle_resetInput : (s.freeHandle).resetInput = s.resetInput := rfl
@[simp] theorem State.freeHandle_answers : (s.freeHandle).answers = s.answers := rfl
@[simp] theorem State.freeHandle_busDraws : (s.freeHandle).busDraws = s.busDraws := rfl
@[simp] theorem State.freeHandle_draws : (s.freeHandle).draws = s.draws + 1 := rfl
@[simp] theorem State.freeHandle_answerAt (k : Nat) :
    (s.freeHandle).answerAt k = s.answerAt k := rfl

/-! ## complete -/

@[simp] theorem State.complete_cp (len : Nat) (st : Status) (r : Word) : (s.complete len st r).cp = s.cp + len := rfl
@[simp] theorem State.complete_faulted (len : Nat) (st : Status) (r : Word) :
    (s.complete len st r).faulted = s.faulted := rfl
@[simp] theorem State.complete_active (len : Nat) (st : Status) (r : Word) : (s.complete len st r).active = s.active := rfl
@[simp] theorem State.complete_busOpen (len : Nat) (st : Status) (r : Word) :
    (s.complete len st r).busOpen = s.busOpen := rfl
@[simp] theorem State.complete_handle (len : Nat) (st : Status) (r : Word) : (s.complete len st r).handle = s.handle := rfl
@[simp] theorem State.complete_latch (len : Nat) (st : Status) (r : Word) :
    (s.complete len st r).latch = Machine.freeLatch s.draws := rfl
@[simp] theorem State.complete_status (len : Nat) (st : Status) (r : Word) : (s.complete len st r).status = st := rfl
@[simp] theorem State.complete_result (len : Nat) (st : Status) (r : Word) :
    (s.complete len st r).result = resultFor st r := rfl
@[simp] theorem State.complete_busTrace (len : Nat) (st : Status) (r : Word) :
    (s.complete len st r).busTrace = s.busTrace := rfl
@[simp] theorem State.complete_responses (len : Nat) (st : Status) (r : Word) :
    (s.complete len st r).responses = s.responses ++ [(st, resultFor st r)] := rfl
@[simp] theorem State.complete_cfg (len : Nat) (st : Status) (r : Word) : (s.complete len st r).cfg = s.cfg := rfl
@[simp] theorem State.complete_host (len : Nat) (st : Status) (r : Word) : (s.complete len st r).host = s.host := rfl
@[simp] theorem State.complete_resetInput (len : Nat) (st : Status) (r : Word) :
    (s.complete len st r).resetInput = s.resetInput := rfl
@[simp] theorem State.complete_answers (len : Nat) (st : Status) (r : Word) :
    (s.complete len st r).answers = s.answers := rfl
@[simp] theorem State.complete_busDraws (len : Nat) (st : Status) (r : Word) :
    (s.complete len st r).busDraws = s.busDraws := rfl
@[simp] theorem State.complete_draws (len : Nat) (st : Status) (r : Word) : (s.complete len st r).draws = s.draws + 1 := rfl
@[simp] theorem State.complete_answerAt (len : Nat) (st : Status) (r : Word) (k : Nat) :
    (s.complete len st r).answerAt k = s.answerAt k := rfl

/-! ## illegalHeader -/

@[simp] theorem State.illegalHeader_cp (hdr : Word) : (s.illegalHeader hdr).cp = s.cp := rfl
@[simp] theorem State.illegalHeader_faulted (hdr : Word) : (s.illegalHeader hdr).faulted = true := rfl
@[simp] theorem State.illegalHeader_active (hdr : Word) : (s.illegalHeader hdr).active = s.active := rfl
@[simp] theorem State.illegalHeader_busOpen (hdr : Word) : (s.illegalHeader hdr).busOpen = s.busOpen := rfl
@[simp] theorem State.illegalHeader_handle (hdr : Word) : (s.illegalHeader hdr).handle = s.handle := rfl
@[simp] theorem State.illegalHeader_latch (hdr : Word) : (s.illegalHeader hdr).latch = { s.latch with hdr := hdr } := rfl
@[simp] theorem State.illegalHeader_status (hdr : Word) : (s.illegalHeader hdr).status = .illegalCommand := rfl
@[simp] theorem State.illegalHeader_result (hdr : Word) : (s.illegalHeader hdr).result = resultFor .illegalCommand 0 := rfl
@[simp] theorem State.illegalHeader_busTrace (hdr : Word) : (s.illegalHeader hdr).busTrace = s.busTrace := rfl
@[simp] theorem State.illegalHeader_responses (hdr : Word) :
    (s.illegalHeader hdr).responses = s.responses ++ [(.illegalCommand, resultFor .illegalCommand 0)] := rfl
@[simp] theorem State.illegalHeader_cfg (hdr : Word) : (s.illegalHeader hdr).cfg = s.cfg := rfl
@[simp] theorem State.illegalHeader_host (hdr : Word) : (s.illegalHeader hdr).host = s.host := rfl
@[simp] theorem State.illegalHeader_resetInput (hdr : Word) : (s.illegalHeader hdr).resetInput = s.resetInput := rfl
@[simp] theorem State.illegalHeader_answers (hdr : Word) : (s.illegalHeader hdr).answers = s.answers := rfl
@[simp] theorem State.illegalHeader_busDraws (hdr : Word) : (s.illegalHeader hdr).busDraws = s.busDraws := rfl
@[simp] theorem State.illegalHeader_draws (hdr : Word) : (s.illegalHeader hdr).draws = s.draws := rfl
@[simp] theorem State.illegalHeader_answerAt (hdr : Word) (k : Nat) :
    (s.illegalHeader hdr).answerAt k = s.answerAt k := rfl

/-! ## record -/

@[simp] theorem State.record_cp (p : BusPrim) (o : BusOutcome) : (s.record p o).cp = s.cp := rfl
@[simp] theorem State.record_faulted (p : BusPrim) (o : BusOutcome) : (s.record p o).faulted = s.faulted := rfl
@[simp] theorem State.record_active (p : BusPrim) (o : BusOutcome) : (s.record p o).active = s.active := rfl
@[simp] theorem State.record_busOpen (p : BusPrim) (o : BusOutcome) : (s.record p o).busOpen = s.busOpen := rfl
@[simp] theorem State.record_handle (p : BusPrim) (o : BusOutcome) : (s.record p o).handle = s.handle := rfl
@[simp] theorem State.record_latch (p : BusPrim) (o : BusOutcome) : (s.record p o).latch = s.latch := rfl
@[simp] theorem State.record_status (p : BusPrim) (o : BusOutcome) : (s.record p o).status = s.status := rfl
@[simp] theorem State.record_result (p : BusPrim) (o : BusOutcome) : (s.record p o).result = s.result := rfl
@[simp] theorem State.record_busTrace (p : BusPrim) (o : BusOutcome) :
    (s.record p o).busTrace = s.busTrace ++ [⟨p, o⟩] := rfl
@[simp] theorem State.record_responses (p : BusPrim) (o : BusOutcome) : (s.record p o).responses = s.responses := rfl
@[simp] theorem State.record_cfg (p : BusPrim) (o : BusOutcome) : (s.record p o).cfg = s.cfg := rfl
@[simp] theorem State.record_host (p : BusPrim) (o : BusOutcome) : (s.record p o).host = s.host := rfl
@[simp] theorem State.record_resetInput (p : BusPrim) (o : BusOutcome) : (s.record p o).resetInput = s.resetInput := rfl
@[simp] theorem State.record_answers (p : BusPrim) (o : BusOutcome) : (s.record p o).answers = s.answers := rfl
@[simp] theorem State.record_busDraws (p : BusPrim) (o : BusOutcome) : (s.record p o).busDraws = s.busDraws := rfl
@[simp] theorem State.record_draws (p : BusPrim) (o : BusOutcome) : (s.record p o).draws = s.draws := rfl
@[simp] theorem State.record_answerAt (p : BusPrim) (o : BusOutcome) (k : Nat) :
    (s.record p o).answerAt k = s.answerAt k := rfl

/-! ## closeBus -/

@[simp] theorem State.closeBus_cp : (s.closeBus).cp = s.cp := rfl
@[simp] theorem State.closeBus_faulted : (s.closeBus).faulted = s.faulted := rfl
@[simp] theorem State.closeBus_active : (s.closeBus).active = s.active := rfl
@[simp] theorem State.closeBus_busOpen : (s.closeBus).busOpen = false := rfl
@[simp] theorem State.closeBus_handle : (s.closeBus).handle = s.handle := rfl
@[simp] theorem State.closeBus_latch : (s.closeBus).latch = s.latch := rfl
@[simp] theorem State.closeBus_status : (s.closeBus).status = s.status := rfl
@[simp] theorem State.closeBus_result : (s.closeBus).result = s.result := rfl
@[simp] theorem State.closeBus_busTrace : (s.closeBus).busTrace = s.busTrace ++ [⟨.closeBus, .ok⟩] := rfl
@[simp] theorem State.closeBus_responses : (s.closeBus).responses = s.responses := rfl
@[simp] theorem State.closeBus_cfg : (s.closeBus).cfg = s.cfg := rfl
@[simp] theorem State.closeBus_host : (s.closeBus).host = s.host := rfl
@[simp] theorem State.closeBus_resetInput : (s.closeBus).resetInput = s.resetInput := rfl
@[simp] theorem State.closeBus_answers : (s.closeBus).answers = s.answers := rfl
@[simp] theorem State.closeBus_busDraws : (s.closeBus).busDraws = s.busDraws := rfl
@[simp] theorem State.closeBus_draws : (s.closeBus).draws = s.draws := rfl
@[simp] theorem State.closeBus_answerAt (k : Nat) :
    (s.closeBus).answerAt k = s.answerAt k := rfl

/-! ## release -/

@[simp] theorem State.release_cp : (s.release).cp = s.cp := rfl
@[simp] theorem State.release_faulted : (s.release).faulted = s.faulted := rfl
@[simp] theorem State.release_active : (s.release).active = s.active := rfl
@[simp] theorem State.release_busOpen : (s.release).busOpen = false := rfl
@[simp] theorem State.release_handle : (s.release).handle = Machine.freeHandle s.draws := rfl
@[simp] theorem State.release_latch : (s.release).latch = s.latch := rfl
@[simp] theorem State.release_status : (s.release).status = s.status := rfl
@[simp] theorem State.release_result : (s.release).result = s.result := rfl
@[simp] theorem State.release_busTrace : (s.release).busTrace = s.busTrace ++ [⟨.closeBus, .ok⟩] := rfl
@[simp] theorem State.release_responses : (s.release).responses = s.responses := rfl
@[simp] theorem State.release_cfg : (s.release).cfg = s.cfg := rfl
@[simp] theorem State.release_host : (s.release).host = s.host := rfl
@[simp] theorem State.release_resetInput : (s.release).resetInput = s.resetInput := rfl
@[simp] theorem State.release_answers : (s.release).answers = s.answers := rfl
@[simp] theorem State.release_busDraws : (s.release).busDraws = s.busDraws := rfl
@[simp] theorem State.release_draws : (s.release).draws = s.draws + 1 := rfl
@[simp] theorem State.release_answerAt (k : Nat) :
    (s.release).answerAt k = s.answerAt k := rfl

/-! ## mapHandle -/

@[simp] theorem State.mapHandle_cp (f : DisplayHandle → DisplayHandle) : (s.mapHandle f).cp = s.cp := rfl
@[simp] theorem State.mapHandle_faulted (f : DisplayHandle → DisplayHandle) : (s.mapHandle f).faulted = s.faulted := rfl
@[simp] theorem State.mapHandle_active (f : DisplayHandle → DisplayHandle) : (s.mapHandle f).active = s.active := rfl
@[simp] theorem State.mapHandle_busOpen (f : DisplayHandle → DisplayHandle) : (s.mapHandle f).busOpen = s.busOpen := rfl
@[simp] theorem State.mapHandle_handle (f : DisplayHandle → DisplayHandle) : (s.mapHandle f).handle = f s.handle := rfl
@[simp] theorem State.mapHandle_latch (f : DisplayHandle → DisplayHandle) : (s.mapHandle f).latch = s.latch := rfl
@[simp] theorem State.mapHandle_status (f : DisplayHandle → DisplayHandle) : (s.mapHandle f).status = s.status := rfl
@[simp] theorem State.mapHandle_result (f : DisplayHandle → DisplayHandle) : (s.mapHandle f).result = s.result := rfl
@[simp] theorem State.mapHandle_busTrace (f : DisplayHandle → DisplayHandle) : (s.mapHandle f).busTrace = s.busTrace := rfl
@[simp] theorem State.mapHandle_responses (f : DisplayHandle → DisplayHandle) :
    (s.mapHandle f).responses = s.responses := rfl
@[simp] theorem State.mapHandle_cfg (f : DisplayHandle → DisplayHandle) : (s.mapHandle f).cfg = s.cfg := rfl
@[simp] theorem State.mapHandle_host (f : DisplayHandle → DisplayHandle) : (s.mapHandle f).host = s.host := rfl
@[simp] theorem State.mapHandle_resetInput (f : DisplayHandle → DisplayHandle) :
    (s.mapHandle f).resetInput = s.resetInput := rfl
@[simp] theorem State.mapHandle_answers (f : DisplayHandle → DisplayHandle) : (s.mapHandle f).answers = s.answers := rfl
@[simp] theorem State.mapHandle_busDraws (f : DisplayHandle → DisplayHandle) : (s.mapHandle f).busDraws = s.busDraws := rfl
@[simp] theorem State.mapHandle_draws (f : DisplayHandle → DisplayHandle) : (s.mapHandle f).draws = s.draws := rfl
@[simp] theorem State.mapHandle_answerAt (f : DisplayHandle → DisplayHandle) (k : Nat) :
    (s.mapHandle f).answerAt k = s.answerAt k := rfl

/-! ## allocate -/

@[simp] theorem State.allocate_cp (bus addr w h : Word) (vcc : Vcc) : (s.allocate bus addr w h vcc).cp = s.cp := rfl
@[simp] theorem State.allocate_faulted (bus addr w h : Word) (vcc : Vcc) :
    (s.allocate bus addr w h vcc).faulted = s.faulted := rfl
@[simp] theorem State.allocate_active (bus addr w h : Word) (vcc : Vcc) :
    (s.allocate bus addr w h vcc).active = s.active := rfl
@[simp] theorem State.allocate_busOpen (bus addr w h : Word) (vcc : Vcc) :
    (s.allocate bus addr w h vcc).busOpen = s.busOpen := rfl
@[simp] theorem State.allocate_handle (bus addr w h : Word) (vcc : Vcc) :
    (s.allocate bus addr w h vcc).handle = { s.handle with
      width := (sext32 w).toNat, height := (sext32 h).toNat, vcc := vcc, busId := bus,
      devAddr := BitVec.ofInt 7 (sext32 addr), fb := [] } := rfl
@[simp] theorem State.allocate_latch (bus addr w h : Word) (vcc : Vcc) :
    (s.allocate bus addr w h vcc).latch = s.latch := rfl
@[simp] theorem State.allocate_status (bus addr w h : Word) (vcc : Vcc) :
    (s.allocate bus addr w h vcc).status = s.status := rfl
@[simp] theorem State.allocate_result (bus addr w h : Word) (vcc : Vcc) :
    (s.allocate bus addr w h vcc).result = s.result := rfl
@[simp] theorem State.allocate_busTrace (bus addr w h : Word) (vcc : Vcc) :
    (s.allocate bus addr w h vcc).busTrace = s.busTrace := rfl
@[simp] theorem State.allocate_responses (bus addr w h : Word) (vcc : Vcc) :
    (s.allocate bus addr w h vcc).responses = s.responses := rfl
@[simp] theorem State.allocate_cfg (bus addr w h : Word) (vcc : Vcc) : (s.allocate bus addr w h vcc).cfg = s.cfg := rfl
@[simp] theorem State.allocate_host (bus addr w h : Word) (vcc : Vcc) : (s.allocate bus addr w h vcc).host = s.host := rfl
@[simp] theorem State.allocate_resetInput (bus addr w h : Word) (vcc : Vcc) :
    (s.allocate bus addr w h vcc).resetInput = s.resetInput := rfl
@[simp] theorem State.allocate_answers (bus addr w h : Word) (vcc : Vcc) :
    (s.allocate bus addr w h vcc).answers = s.answers := rfl
@[simp] theorem State.allocate_busDraws (bus addr w h : Word) (vcc : Vcc) :
    (s.allocate bus addr w h vcc).busDraws = s.busDraws := rfl
@[simp] theorem State.allocate_draws (bus addr w h : Word) (vcc : Vcc) :
    (s.allocate bus addr w h vcc).draws = s.draws := rfl
@[simp] theorem State.allocate_answerAt (bus addr w h : Word) (vcc : Vcc) (k : Nat) :
    (s.allocate bus addr w h vcc).answerAt k = s.answerAt k := rfl

/-! ## activate -/

@[simp] theorem State.activate_cp (vcc : Vcc) : (s.activate vcc).cp = s.cp := rfl
@[simp] theorem State.activate_faulted (vcc : Vcc) : (s.activate vcc).faulted = s.faulted := rfl
@[simp] theorem State.activate_active (vcc : Vcc) : (s.activate vcc).active = true := rfl
@[simp] theorem State.activate_busOpen (vcc : Vcc) : (s.activate vcc).busOpen = s.busOpen := rfl
@[simp] theorem State.activate_handle (vcc : Vcc) :
    (s.activate vcc).handle = { s.handle with
      contrast := defaultContrast s.cfg.cmd vcc, cursorX := 0, cursorY := 0, textScale := 1,
      textColor := .on, textBg := .on, wrap := true } := rfl
@[simp] theorem State.activate_latch (vcc : Vcc) : (s.activate vcc).latch = s.latch := rfl
@[simp] theorem State.activate_status (vcc : Vcc) : (s.activate vcc).status = s.status := rfl
@[simp] theorem State.activate_result (vcc : Vcc) : (s.activate vcc).result = s.result := rfl
@[simp] theorem State.activate_busTrace (vcc : Vcc) : (s.activate vcc).busTrace = s.busTrace := rfl
@[simp] theorem State.activate_responses (vcc : Vcc) : (s.activate vcc).responses = s.responses := rfl
@[simp] theorem State.activate_cfg (vcc : Vcc) : (s.activate vcc).cfg = s.cfg := rfl
@[simp] theorem State.activate_host (vcc : Vcc) : (s.activate vcc).host = s.host := rfl
@[simp] theorem State.activate_resetInput (vcc : Vcc) : (s.activate vcc).resetInput = s.resetInput := rfl
@[simp] theorem State.activate_answers (vcc : Vcc) : (s.activate vcc).answers = s.answers := rfl
@[simp] theorem State.activate_busDraws (vcc : Vcc) : (s.activate vcc).busDraws = s.busDraws := rfl
@[simp] theorem State.activate_draws (vcc : Vcc) : (s.activate vcc).draws = s.draws := rfl
@[simp] theorem State.activate_answerAt (vcc : Vcc) (k : Nat) :
    (s.activate vcc).answerAt k = s.answerAt k := rfl

/-! ## hostWrites -/

@[simp] theorem State.hostWrites_cp (ws : List Word) : (s.hostWrites ws).cp = s.cp := rfl
@[simp] theorem State.hostWrites_faulted (ws : List Word) : (s.hostWrites ws).faulted = s.faulted := rfl
@[simp] theorem State.hostWrites_active (ws : List Word) : (s.hostWrites ws).active = s.active := rfl
@[simp] theorem State.hostWrites_busOpen (ws : List Word) : (s.hostWrites ws).busOpen = s.busOpen := rfl
@[simp] theorem State.hostWrites_handle (ws : List Word) : (s.hostWrites ws).handle = s.handle := rfl
@[simp] theorem State.hostWrites_latch (ws : List Word) : (s.hostWrites ws).latch = s.latch := rfl
@[simp] theorem State.hostWrites_status (ws : List Word) : (s.hostWrites ws).status = s.status := rfl
@[simp] theorem State.hostWrites_result (ws : List Word) : (s.hostWrites ws).result = s.result := rfl
@[simp] theorem State.hostWrites_busTrace (ws : List Word) : (s.hostWrites ws).busTrace = s.busTrace := rfl
@[simp] theorem State.hostWrites_responses (ws : List Word) : (s.hostWrites ws).responses = s.responses := rfl
@[simp] theorem State.hostWrites_cfg (ws : List Word) : (s.hostWrites ws).cfg = s.cfg := rfl
@[simp] theorem State.hostWrites_host (ws : List Word) :
    (s.hostWrites ws).host = { s.host with words := s.host.words ++ ws } := rfl
@[simp] theorem State.hostWrites_resetInput (ws : List Word) : (s.hostWrites ws).resetInput = s.resetInput := rfl
@[simp] theorem State.hostWrites_answers (ws : List Word) : (s.hostWrites ws).answers = s.answers := rfl
@[simp] theorem State.hostWrites_busDraws (ws : List Word) : (s.hostWrites ws).busDraws = s.busDraws := rfl
@[simp] theorem State.hostWrites_draws (ws : List Word) : (s.hostWrites ws).draws = s.draws := rfl
@[simp] theorem State.hostWrites_answerAt (ws : List Word) (k : Nat) :
    (s.hostWrites ws).answerAt k = s.answerAt k := rfl

/-! ## assertReset -/

@[simp] theorem State.assertReset_cp (hs : HostStream) : (s.assertReset hs).cp = s.cp := rfl
@[simp] theorem State.assertReset_faulted (hs : HostStream) : (s.assertReset hs).faulted = s.faulted := rfl
@[simp] theorem State.assertReset_active (hs : HostStream) : (s.assertReset hs).active = s.active := rfl
@[simp] theorem State.assertReset_busOpen (hs : HostStream) : (s.assertReset hs).busOpen = s.busOpen := rfl
@[simp] theorem State.assertReset_handle (hs : HostStream) : (s.assertReset hs).handle = s.handle := rfl
@[simp] theorem State.assertReset_latch (hs : HostStream) : (s.assertReset hs).latch = s.latch := rfl
@[simp] theorem State.assertReset_status (hs : HostStream) : (s.assertReset hs).status = s.status := rfl
@[simp] theorem State.assertReset_result (hs : HostStream) : (s.assertReset hs).result = s.result := rfl
@[simp] theorem State.assertReset_busTrace (hs : HostStream) : (s.assertReset hs).busTrace = s.busTrace := rfl
@[simp] theorem State.assertReset_responses (hs : HostStream) : (s.assertReset hs).responses = s.responses := rfl
@[simp] theorem State.assertReset_cfg (hs : HostStream) : (s.assertReset hs).cfg = s.cfg := rfl
@[simp] theorem State.assertReset_host (hs : HostStream) : (s.assertReset hs).host = s.host := rfl
@[simp] theorem State.assertReset_resetInput (hs : HostStream) : (s.assertReset hs).resetInput = some hs := rfl
@[simp] theorem State.assertReset_answers (hs : HostStream) : (s.assertReset hs).answers = s.answers := rfl
@[simp] theorem State.assertReset_busDraws (hs : HostStream) : (s.assertReset hs).busDraws = s.busDraws := rfl
@[simp] theorem State.assertReset_draws (hs : HostStream) : (s.assertReset hs).draws = s.draws := rfl
@[simp] theorem State.assertReset_answerAt (hs : HostStream) (k : Nat) :
    (s.assertReset hs).answerAt k = s.answerAt k := rfl

/-! ## dropAnswer -/

@[simp] theorem State.dropAnswer_cp : s.dropAnswer.cp = s.cp := by
  unfold State.dropAnswer; split <;> rfl
@[simp] theorem State.dropAnswer_faulted : s.dropAnswer.faulted = s.faulted := by
  unfold State.dropAnswer; split <;> rfl
@[simp] theorem State.dropAnswer_active : s.dropAnswer.active = s.active := by
  unfold State.dropAnswer; split <;> rfl
@[simp] theorem State.dropAnswer_busOpen : s.dropAnswer.busOpen = s.busOpen := by
  unfold State.dropAnswer; split <;> rfl
@[simp] theorem State.dropAnswer_handle : s.dropAnswer.handle = s.handle := by
  unfold State.dropAnswer; split <;> rfl
@[simp] theorem State.dropAnswer_latch : s.dropAnswer.latch = s.latch := by
  unfold State.dropAnswer; split <;> rfl
@[simp] theorem State.dropAnswer_status : s.dropAnswer.status = s.status := by
  unfold State.dropAnswer; split <;> rfl
@[simp] theorem State.dropAnswer_result : s.dropAnswer.result = s.result := by
  unfold State.dropAnswer; split <;> rfl
@[simp] theorem State.dropAnswer_busTrace : s.dropAnswer.busTrace = s.busTrace := by
  unfold State.dropAnswer; split <;> rfl
@[simp] theorem State.dropAnswer_responses : s.dropAnswer.responses = s.responses := by
  unfold State.dropAnswer; split <;> rfl
@[simp] theorem State.dropAnswer_cfg : s.dropAnswer.cfg = s.cfg := by
  unfold State.dropAnswer; split <;> rfl
@[simp] theorem State.dropAnswer_host : s.dropAnswer.host = s.host := by
  unfold State.dropAnswer; split <;> rfl
@[simp] theorem State.dropAnswer_resetInput : s.dropAnswer.resetInput = s.resetInput := by
  unfold State.dropAnswer; split <;> rfl
@[simp] theorem State.dropAnswer_draws : s.dropAnswer.draws = s.draws := by
  unfold State.dropAnswer; split <;> rfl

/-- Taking an answer leaves the later ones, in order. -/
@[simp] theorem State.dropAnswer_answerAt (k : Nat) : s.dropAnswer.answerAt k = s.answerAt (k + 1) := by
  unfold State.dropAnswer
  split
  · next a rest h =>
    unfold State.answerAt
    simp only [h, List.getElem?_cons_succ, List.length_cons]
    have : k + 1 - (rest.length + 1) = k - rest.length := by omega
    rw [this]
  · next h =>
    unfold State.answerAt
    simp only [h, List.getElem?_nil, List.length_nil, Nat.sub_zero]
    congr 1
    omega

/-- The coming answers depend on the answers given and on the free draws made, on nothing else. -/
theorem State.answerAt_congr {s t : State} (ha : t.answers = s.answers) (hd : t.busDraws = s.busDraws) (k : Nat) :
    t.answerAt k = s.answerAt k := by
  unfold State.answerAt
  rw [ha, hd]

/-! ## RESULT -/

@[simp] theorem resultFor_ok (r : Word) : resultFor .ok r = r := rfl
@[simp] theorem resultFor_zero (st : Status) : resultFor st 0 = 0 := by cases st <;> rfl

end Sys2Proof.Machine
end

