-- ==== Sys2Proof/Laws/Bus.lean ====
section
/-! SUPPORT. What a sequence of bus primitives can do, said once: all succeed, or the first failure ends it, or the first stall
holds the engine. FLUSH, BEGIN and every SendSeq are such sequences. -/

namespace Sys2Proof.Machine

/-- `t` is `s` after bus primitives: the trace grew by `events`, `n` answers were taken, nothing else changed. -/
structure Bused (s t : State) (events : List BusEvent) (n : Nat) : Prop where
  eq : t = { s with busTrace := s.busTrace ++ events, answers := t.answers, busDraws := t.busDraws }
  answers : ∀ k, t.answerAt k = s.answerAt (n + k)

theorem Bused.refl (s : State) : Bused s s [] 0 := ⟨by simp, fun k => by simp⟩

theorem Bused.trans {s t u : State} {e f : List BusEvent} {m n : Nat} (h : Bused s t e m) (g : Bused t u f n) :
    Bused s u (e ++ f) (m + n) := by
  obtain ⟨h1, h2⟩ := h
  obtain ⟨g1, g2⟩ := g
  refine ⟨?_, fun k => by rw [g2, h2, Nat.add_assoc]⟩
  generalize t.answers = a at *
  generalize t.busDraws = b at *
  subst h1
  simpa [List.append_assoc] using g1

theorem Bused.busTrace {s t : State} {e : List BusEvent} {n : Nat} (h : Bused s t e n) : t.busTrace = s.busTrace ++ e := by
  rw [h.eq]

theorem Bused.active {s t : State} {e : List BusEvent} {n : Nat} (h : Bused s t e n) : t.active = s.active := by rw [h.eq]
theorem Bused.busOpen {s t : State} {e : List BusEvent} {n : Nat} (h : Bused s t e n) : t.busOpen = s.busOpen := by rw [h.eq]
theorem Bused.handle {s t : State} {e : List BusEvent} {n : Nat} (h : Bused s t e n) : t.handle = s.handle := by rw [h.eq]
theorem Bused.cfg {s t : State} {e : List BusEvent} {n : Nat} (h : Bused s t e n) : t.cfg = s.cfg := by rw [h.eq]
theorem Bused.cp {s t : State} {e : List BusEvent} {n : Nat} (h : Bused s t e n) : t.cp = s.cp := by rw [h.eq]
theorem Bused.faulted {s t : State} {e : List BusEvent} {n : Nat} (h : Bused s t e n) : t.faulted = s.faulted := by rw [h.eq]
theorem Bused.host {s t : State} {e : List BusEvent} {n : Nat} (h : Bused s t e n) : t.host = s.host := by rw [h.eq]
theorem Bused.resetInput {s t : State} {e : List BusEvent} {n : Nat} (h : Bused s t e n) : t.resetInput = s.resetInput := by
  rw [h.eq]
theorem Bused.responses {s t : State} {e : List BusEvent} {n : Nat} (h : Bused s t e n) : t.responses = s.responses := by
  rw [h.eq]
theorem Bused.draws {s t : State} {e : List BusEvent} {n : Nat} (h : Bused s t e n) : t.draws = s.draws := by rw [h.eq]
theorem Bused.status {s t : State} {e : List BusEvent} {n : Nat} (h : Bused s t e n) : t.status = s.status := by rw [h.eq]
theorem Bused.result {s t : State} {e : List BusEvent} {n : Nat} (h : Bused s t e n) : t.result = s.result := by rw [h.eq]
theorem Bused.latch {s t : State} {e : List BusEvent} {n : Nat} (h : Bused s t e n) : t.latch = s.latch := by rw [h.eq]

theorem Bused.issued {s t : State} {e : List BusEvent} {n : Nat} (h : Bused s t e n) : Issued s t e n :=
  ⟨h.busTrace, h.answers⟩

/-- Taking an answer and recording an entry. -/
theorem bused_record (s : State) (p : BusPrim) (o : BusOutcome) : Bused s (s.dropAnswer.record p o) [⟨p, o⟩] 1 := by
  refine ⟨?_, fun k => ?_⟩
  · unfold State.dropAnswer State.record
    split <;> rfl
  · rw [State.record_answerAt, State.dropAnswer_answerAt, Nat.add_comm]

/-! ## One primitive -/

theorem State.issue_ok {s : State} {p : BusPrim} (h : s.answerAt 0 = .ok) :
    s.issue p = .ok (s.dropAnswer.record p .ok) := by
  unfold State.issue; rw [h]

theorem State.issue_fail {s : State} {p : BusPrim} {reached : Nat} (h : s.answerAt 0 = .fail reached) :
    s.issue p = .fail (s.dropAnswer.record p (outcomeOf p (.fail reached))) := by
  unfold State.issue; rw [h]; rfl

theorem State.issue_never {s : State} {p : BusPrim} (h : s.answerAt 0 = .never) : s.issue p = .stalled := by
  unfold State.issue; rw [h]

/-- What issuing a primitive can do. -/
theorem State.issue_cases (s : State) (p : BusPrim) :
    (s.answerAt 0 = .ok ∧ ∃ t, s.issue p = .ok t ∧ Bused s t [⟨p, .ok⟩] 1) ∨
    (∃ reached, s.answerAt 0 = .fail reached ∧
      ∃ t, s.issue p = .fail t ∧ Bused s t [⟨p, outcomeOf p (.fail reached)⟩] 1) ∨
    (s.answerAt 0 = .never ∧ s.issue p = .stalled) := by
  rcases h : s.answerAt 0 with _ | reached | _
  · exact .inl ⟨rfl, _, State.issue_ok h, bused_record s p _⟩
  · exact .inr (.inl ⟨reached, rfl, _, State.issue_fail h, bused_record s p _⟩)
  · exact .inr (.inr ⟨rfl, State.issue_never h⟩)

/-! ## Sequences -/

/-- A list of primitives, ended by the first failure or stall. -/
def State.issueAll (s : State) : List BusPrim → BusResult
  | [] => .ok s
  | p :: ps => (s.issue p).andThen fun s => s.issueAll ps

/-- `SendSeq` is the sequence of its command frames. -/
theorem State.sendSeq_eq (s : State) (bs : List Byte) : s.sendSeq bs = s.issueAll (bs.map .cmdFrame) := by
  induction bs generalizing s with
  | nil => rfl
  | cons b bs ih =>
    simp only [State.sendSeq, List.map_cons, State.issueAll, BusResult.andThen]
    split <;> simp_all

theorem State.issueAll_append (s : State) (ps qs : List BusPrim) :
    s.issueAll (ps ++ qs) = (s.issueAll ps).andThen fun s => s.issueAll qs := by
  induction ps generalizing s with
  | nil => rfl
  | cons p ps ih =>
    simp only [List.cons_append, State.issueAll, BusResult.andThen]
    split <;> simp_all [BusResult.andThen]

theorem State.issueAll_singleton (s : State) (p : BusPrim) : s.issueAll [p] = s.issue p := by
  simp only [State.issueAll, BusResult.andThen]
  split <;> simp_all

/-- Everything a sequence can do: all its primitives succeed; or the first that fails is the last issued; or the first that
never completes holds the engine. -/
theorem State.issueAll_cases (s : State) (ps : List BusPrim) :
    ((∀ k, k < ps.length → s.answerAt k = .ok) ∧
      ∃ t, s.issueAll ps = .ok t ∧ Bused s t (allOk ps) ps.length) ∨
    (∃ j p reached, ps[j]? = some p ∧ (∀ k, k < j → s.answerAt k = .ok) ∧ s.answerAt j = .fail reached ∧
      ∃ t, s.issueAll ps = .fail t ∧
        Bused s t (allOk (ps.take j) ++ [⟨p, outcomeOf p (.fail reached)⟩]) (j + 1)) ∨
    (∃ j, j < ps.length ∧ (∀ k, k < j → s.answerAt k = .ok) ∧ s.answerAt j = .never ∧ s.issueAll ps = .stalled) := by
  induction ps generalizing s with
  | nil => exact .inl ⟨by simp, s, rfl, Bused.refl s⟩
  | cons p ps ih =>
    rcases State.issue_cases s p with ⟨h, t, e, b⟩ | ⟨r, h, t, e, b⟩ | ⟨h, e⟩
    · have ans : ∀ k, s.answerAt (k + 1) = t.answerAt k := fun k => by rw [b.answers, Nat.add_comm]
      have run : s.issueAll (p :: ps) = t.issueAll ps := by simp [State.issueAll, e, BusResult.andThen]
      have before : ∀ j, (∀ k, k < j → t.answerAt k = .ok) → ∀ k, k < j + 1 → s.answerAt k = .ok := by
        intro j hj k hk
        cases k with
        | zero => exact h
        | succ k => rw [ans]; exact hj k (by omega)
      rcases ih t with ⟨hk, u, e2, b2⟩ | ⟨j, q, r, hq, hk, hj, u, e2, b2⟩ | ⟨j, hq, hk, hj, e2⟩
      · refine .inl ⟨before _ hk, u, by rw [run, e2], ?_⟩
        have := b.trans b2
        rwa [Nat.add_comm 1] at this
      · refine .inr (.inl ⟨j + 1, q, r, by simpa using hq, before j hk, by rw [ans, hj], u, by rw [run, e2], ?_⟩)
        have := b.trans b2
        rwa [Nat.add_comm 1] at this
      · exact .inr (.inr ⟨j + 1, by simpa using hq, before j hk, by rw [ans, hj], by rw [run, e2]⟩)
    · exact .inr (.inl ⟨0, p, r, by simp, by simp, h, t, by simp [State.issueAll, e, BusResult.andThen], b⟩)
    · exact .inr (.inr ⟨0, by simp, by simp, h, by simp [State.issueAll, e, BusResult.andThen]⟩)

theorem State.issueAll_ok {s : State} {ps : List BusPrim} (h : ∀ k, k < ps.length → s.answerAt k = .ok) :
    ∃ t, s.issueAll ps = .ok t ∧ Bused s t (allOk ps) ps.length := by
  rcases State.issueAll_cases s ps with ⟨-, t⟩ | ⟨j, p, r, hp, -, hj, -⟩ | ⟨j, hp, -, hj, -⟩
  · exact t
  · rw [h j (List.getElem?_eq_some_iff.mp hp).1] at hj; cases hj
  · rw [h j hp] at hj; cases hj

theorem State.issueAll_fail {s : State} {ps : List BusPrim} {j reached : Nat} {p : BusPrim} (hp : ps[j]? = some p)
    (hk : ∀ k, k < j → s.answerAt k = .ok) (hj : s.answerAt j = .fail reached) :
    ∃ t, s.issueAll ps = .fail t ∧
      Bused s t (allOk (ps.take j) ++ [⟨p, outcomeOf p (.fail reached)⟩]) (j + 1) := by
  have hlt := (List.getElem?_eq_some_iff.mp hp).1
  rcases State.issueAll_cases s ps with ⟨h, -⟩ | ⟨i, q, r, hq, hi, hr, t⟩ | ⟨i, hq, hi, hr, -⟩
  · rw [h j hlt] at hj; cases hj
  · rcases Nat.lt_trichotomy i j with h | h | h
    · rw [hk i h] at hr; cases hr
    · subst h
      rw [hp] at hq; cases hq
      rw [hj] at hr; cases hr
      exact t
    · rw [hi j h] at hj; cases hj
  · rcases Nat.lt_trichotomy i j with h | h | h
    · rw [hk i h] at hr; cases hr
    · subst h; rw [hj] at hr; cases hr
    · rw [hi j h] at hj; cases hj

theorem State.issueAll_never {s : State} {ps : List BusPrim} {j : Nat} (hlt : j < ps.length)
    (hk : ∀ k, k < j → s.answerAt k = .ok) (hj : s.answerAt j = .never) : s.issueAll ps = .stalled := by
  rcases State.issueAll_cases s ps with ⟨h, -⟩ | ⟨i, q, r, hq, hi, hr, t⟩ | ⟨i, hq, hi, hr, e⟩
  · rw [h j hlt] at hj; cases hj
  · rcases Nat.lt_trichotomy i j with h | h | h
    · rw [hk i h] at hr; cases hr
    · subst h; rw [hj] at hr; cases hr
    · rw [hi j h] at hj; cases hj
  · exact e

/-! ## The display-sync commands -/

/-- What a display-sync command does to the instance when its primitives have succeeded. -/
def syncEffect (i : Instr) (s : State) : State :=
  match i with
  | .setContrast v => { s with handle := { s.handle with contrast := byteOf (sext32 v) } }
  | _ => s

theorem byteOf_toNat (v : Word) : byteOf (v.toNat : Int) = v.setWidth 8 := by
  unfold byteOf
  apply BitVec.eq_of_toNat_eq
  simp

theorem byteOf_toInt (v : Word) : byteOf v.toInt = v.setWidth 8 := by
  unfold byteOf
  apply BitVec.eq_of_toNat_eq
  have := v.isLt
  simp only [BitVec.toNat_ofInt, BitVec.toNat_setWidth, BitVec.toInt_eq_toNat_cond]
  split <;> omega

theorem byteOf_ofNat (n : Nat) : byteOf (n : Int) = BitVec.ofNat 8 n := by
  unfold byteOf
  apply BitVec.eq_of_toNat_eq
  simp

theorem zext32_ne_zero {w : Word} : zext32 w ≠ 0 ↔ w ≠ 0 := by
  unfold zext32
  rw [not_iff_not]
  constructor
  · intro h; exact BitVec.eq_of_toNat_eq (by simpa using h)
  · rintro rfl; rfl

/-- Every display-sync command with valid operands is its sequence of primitives (44_display_sync). -/
theorem exec_sync {i : Instr} {s : State} (hi : IsSync i) (ha : s.active = true) (hv : ArgumentsValid i) :
    exec i s = (s.issueAll (syncPrims s.cfg.cmd s.handle i)).conclude i.len (syncEffect i) := by
  cases i <;> simp only [IsSync] at hi
  case flush =>
    simp only [exec, execFlush, State.whenActive, ha, if_true, State.sendSeq_eq, syncPrims, State.issueAll_append,
      State.issueAll_singleton, windowBytes]
    rcases State.issueAll_cases s
      (List.map BusPrim.cmdFrame [s.cfg.cmd.columnAddr, 0x00, byteOf ((s.handle.width : Int) - 1), s.cfg.cmd.pageAddr, 0x00,
        byteOf ((s.handle.pages : Int) - 1)]) with ⟨-, t, e, b⟩ | ⟨j, p, r, -, -, -, t, e, b⟩ | ⟨j, -, -, -, e⟩
    · simp only [DisplayHandle.pages] at e ⊢
      rw [e]
      simp only [BusResult.andThen, b.handle, DisplayHandle.fbBytes, DisplayHandle.fbSize, DisplayHandle.pages]
      rfl
    · simp only [DisplayHandle.pages] at e ⊢
      rw [e]; rfl
    · simp only [DisplayHandle.pages] at e ⊢
      rw [e]; rfl
  case invert flag =>
    simp only [exec, execInvert, State.sendAndDo, State.whenActive, ha, if_true, State.sendSeq_eq, syncPrims, zext32_ne_zero]
    by_cases h : flag = 0 <;> simp [h] <;> rfl
  case dim flag =>
    simp only [exec, execDim, State.sendAndDo, State.whenActive, ha, if_true, State.sendSeq_eq, syncPrims, zext32_ne_zero]
    by_cases h : flag = 0
    · rw [if_neg (not_not.mpr h), if_pos h]; rfl
    · rw [if_pos h, if_neg h]; rfl
  case setContrast v =>
    have h : ¬ (sext32 v < 0 ∨ sext32 v > 255) := by simp only [ArgumentsValid] at hv; unfold sext32; omega
    simp only [exec, execSetContrast, State.whenActive, ha, if_true, if_neg h, State.sendSeq_eq, syncPrims]
    rw [← byteOf_toInt]
    rfl
  all_goals
    simp only [exec, execScrollRight, execScrollLeft, execScrollDiagRight, execScrollDiagLeft, execStopScroll,
      State.sendAndDo, State.whenActive, ha, if_true, State.sendSeq_eq, syncPrims, hScrollBytes, diagScrollBytes, zext32,
      byteOf_ofNat]
    rfl

end Sys2Proof.Machine
end

