-- ==== Sys2Proof/Laws/Decode.lean ====
section
/-! SUPPORT. The decoder in small lemmas: the header's fields as numbers and as parts of the word (30_encoding R71), what a legal
header is, and the operand readers. -/

namespace Sys2Proof

/-! ## Fields -/

theorem headerOp_toNat (h : Word) : (headerOp h).toNat = h.toNat % 256 := by
  simp [headerOp]

theorem headerC_toNat (h : Word) : (headerC h).toNat = h.toNat / 256 % 4 := by
  simp [headerC, Nat.shiftRight_eq_div_pow]

theorem headerB_toNat (h : Word) : (headerB h).toNat = h.toNat / 1024 % 4 := by
  simp [headerB, Nat.shiftRight_eq_div_pow]

theorem headerRsv_toNat (h : Word) : (headerRsv h).toNat = h.toNat / 4096 := by
  have := h.isLt
  simp only [headerRsv, BitVec.extractLsb'_toNat, Nat.shiftRight_eq_div_pow]
  omega

/-- A header with clear reserved bits is put together again from its fields (R71). -/
theorem encodeHeader_fields {h : Word} (hr : headerRsv h = 0) :
    encodeHeader (headerOp h) (headerC h) (headerB h) = h := by
  have high : ∀ i, 12 ≤ i → h.getLsbD i = false := by
    intro i hi
    by_cases h32 : i < 32
    · have := congrArg (fun v => v.getLsbD (i - 12)) hr
      simp only [headerRsv, BitVec.getLsbD_extractLsb'] at this
      have e : 12 + (i - 12) = i := by omega
      have e' : i - 12 < 20 := by omega
      simpa [e, e'] using this
    · exact BitVec.getLsbD_of_ge h i (by omega)
  apply BitVec.eq_of_getLsbD_eq
  intro i hi
  simp only [encodeHeader, headerOp, headerC, headerB, BitVec.getLsbD_or, BitVec.getLsbD_setWidth,
    BitVec.getLsbD_shiftLeft, BitVec.getLsbD_extractLsb']
  by_cases h8 : i < 8
  · have h10 : i < 10 := by omega
    simp [h8, h10, hi]
  · by_cases h10 : i < 10
    · have e : 8 + (i - 8) = i := by omega
      have : i - 8 < 2 := by omega
      have : i - 8 < 32 := by omega
      simp [*]
    · by_cases h12 : i < 12
      · have e : 10 + (i - 10) = i := by omega
        have : i - 10 < 2 := by omega
        have : i - 10 < 32 := by omega
        have : ¬ i - 8 < 2 := by omega
        simp [*]
      · have : ¬ i - 10 < 2 := by omega
        have : ¬ i - 8 < 2 := by omega
        have hz := high i (by omega)
        simp only [hz]
        simp [*]

/-! ## Opcodes and colours -/

theorem Opcode.mem_all (o : Opcode) : o ∈ Opcode.all := by cases o <;> decide

theorem Opcode.ofCode_code (o : Opcode) : Opcode.ofCode o.row.code = some o := by cases o <;> decide

theorem Opcode.code_of_ofCode {b : Byte} {o : Opcode} (h : Opcode.ofCode b = some o) : o.row.code = b := by
  have := List.find?_some h
  simpa using this

theorem Opcode.ofCode_none {b : Byte} : Opcode.ofCode b = none ↔ ∀ o : Opcode, o.row.code ≠ b := by
  unfold Opcode.ofCode
  rw [List.find?_eq_none]
  exact ⟨fun h o e => by simpa [e] using h o o.mem_all, fun h o _ => by simpa using h o⟩

theorem Color.ofCode_code (c : Color) : Color.ofCode c.code = some c := by cases c <;> decide

theorem Color.code_of_ofCode {f : BitVec 2} {c : Color} (h : Color.ofCode f = some c) : c.code = f := by
  unfold Color.ofCode at h
  split at h
  · next e => cases h; exact e.symm
  · split at h
    · next e => cases h; exact e.symm
    · split at h
      · next e => cases h; exact e.symm
      · cases h

theorem Color.ofCode_none {f : BitVec 2} : Color.ofCode f = none ↔ f.toNat = 3 := by
  revert f; decide

/-- A colour field is legal when it is unused and 0, or used and not 3 (R73, R75). -/
theorem colorField_ok {used : Bool} {f : BitVec 2} {c : Color} :
    colorField used f = .ok c ↔ c.code = f ∧ (used = true ∨ c = .off) := by
  cases used with
  | true =>
    simp only [colorField, if_true, true_or, and_true]
    constructor
    · intro h
      split at h
      · next c' e => cases h; exact Color.code_of_ofCode e
      · cases h
    · rintro rfl; rw [Color.ofCode_code]
  | false =>
    simp only [colorField, Bool.false_eq_true, if_false, false_or]
    constructor
    · intro h
      split at h
      · next e => cases h; exact ⟨e.symm, rfl⟩
      · cases h
    · rintro ⟨rfl, rfl⟩; rfl

/-- A legal header is the word of an opcode and two colours, code 0 where they are unused (R71, R78). -/
theorem decodeHeader_ok {h : Word} {hd : Header} :
    decodeHeader h = .ok hd ↔
      h = encodeHeader hd.op.row.code hd.c.code hd.b.code ∧ (hd.op.row.usesC = true ∨ hd.c = .off) ∧
        (hd.op.row.usesB = true ∨ hd.b = .off) := by
  constructor
  · intro e
    unfold decodeHeader at e
    split at e
    · cases e
    · next op ho =>
      split at e
      · next hr =>
        split at e
        · next c b hc hb =>
          cases e
          rw [colorField_ok] at hc hb
          refine ⟨?_, hc.2, hb.2⟩
          rw [Opcode.code_of_ofCode ho, hc.1, hb.1, encodeHeader_fields hr]
        · cases e
        · cases e
      · cases e
  · obtain ⟨o, c, b⟩ := hd
    rintro ⟨rfl, hc, hb⟩
    cases c <;> cases b <;> cases o <;> first | rfl | (exfalso; revert hc hb; decide)

/-! ## Operands -/

theorem operands0_command {i j : Instr} {ws rest : List Word} :
    operands0 i ws = .command j rest ↔ j = i ∧ ws = rest := by
  unfold operands0; simp only [Decoded.command.injEq]; tauto

theorem operands1_command {f : Word → Instr} {j : Instr} {ws rest : List Word} :
    operands1 f ws = .command j rest ↔ ∃ a, j = f a ∧ ws = a :: rest := by
  constructor
  · intro h; unfold operands1 at h; split at h
    · cases h; exact ⟨_, rfl, rfl⟩
    · cases h
  · rintro ⟨a, rfl, rfl⟩; rfl

theorem operands2_command {f : Word → Word → Instr} {j : Instr} {ws rest : List Word} :
    operands2 f ws = .command j rest ↔ ∃ a b, j = f a b ∧ ws = a :: b :: rest := by
  constructor
  · intro h; unfold operands2 at h; split at h
    · cases h; exact ⟨_, _, rfl, rfl⟩
    · cases h
  · rintro ⟨a, b, rfl, rfl⟩; rfl

theorem operands3_command {f : Word → Word → Word → Instr} {j : Instr} {ws rest : List Word} :
    operands3 f ws = .command j rest ↔ ∃ a b c, j = f a b c ∧ ws = a :: b :: c :: rest := by
  constructor
  · intro h; unfold operands3 at h; split at h
    · cases h; exact ⟨_, _, _, rfl, rfl⟩
    · cases h
  · rintro ⟨a, b, c, rfl, rfl⟩; rfl

theorem operands4_command {f : Word → Word → Word → Word → Instr} {j : Instr} {ws rest : List Word} :
    operands4 f ws = .command j rest ↔ ∃ a b c d, j = f a b c d ∧ ws = a :: b :: c :: d :: rest := by
  constructor
  · intro h; unfold operands4 at h; split at h
    · cases h; exact ⟨_, _, _, _, rfl, rfl⟩
    · cases h
  · rintro ⟨a, b, c, d, rfl, rfl⟩; rfl

theorem operands5_command {f : Word → Word → Word → Word → Word → Instr} {j : Instr} {ws rest : List Word} :
    operands5 f ws = .command j rest ↔ ∃ a b c d e, j = f a b c d e ∧ ws = a :: b :: c :: d :: e :: rest := by
  constructor
  · intro h; unfold operands5 at h; split at h
    · cases h; exact ⟨_, _, _, _, _, rfl, rfl⟩
    · cases h
  · rintro ⟨a, b, c, d, e, rfl, rfl⟩; rfl

/-- PRINT takes its count and the payload that the count asks for (R76). -/
theorem operandsPrint_command {j : Instr} {ws rest : List Word} :
    operandsPrint ws = .command j rest ↔
      ∃ n payload, j = .print n payload ∧ payload.length = payloadWords n ∧ ws = n :: (payload ++ rest) := by
  constructor
  · intro h
    unfold operandsPrint at h
    split at h
    · next n xs =>
      split at h
      · next hle =>
        cases h
        exact ⟨n, _, rfl, by rw [List.length_take]; omega, by rw [List.take_append_drop]⟩
      · cases h
    · cases h
  · rintro ⟨n, payload, rfl, hl, rfl⟩
    have hle : payloadWords n ≤ (payload ++ rest).length := by rw [List.length_append]; omega
    show (if payloadWords n ≤ (payload ++ rest).length then _ else _) = _
    rw [if_pos hle, List.take_left' hl, List.drop_left' hl]

/-- What decodes to a command is its header and its operands, whatever the command. -/
theorem decode_command {ws rest : List Word} {i : Instr} :
    decode ws = .command i rest ↔
      ∃ h xs hd, ws = h :: xs ∧ decodeHeader h = .ok hd ∧ decodeOperands hd xs = .command i rest := by
  constructor
  · intro e
    unfold decode at e
    split at e
    · cases e
    · next h xs =>
      split at e
      · cases e
      · next hd he => exact ⟨h, xs, hd, rfl, he, e⟩
  · rintro ⟨h, xs, hd, rfl, he, e⟩
    unfold decode; simp only [he]; exact e

/-- The operands of a legal header: the command has its opcode and its colours where it uses them. -/
theorem decodeOperands_command {hd : Header} {xs rest : List Word} {i : Instr}
    (h : decodeOperands hd xs = .command i rest) :
    i.opcode = hd.op ∧ (hd.op.row.usesC = true → i.fieldC = hd.c) ∧ (hd.op.row.usesB = true → i.fieldB = hd.b) ∧
      i.wf = true ∧ xs = i.operands ++ rest := by
  obtain ⟨o, c, b⟩ := hd
  cases o <;>
    simp only [decodeOperands, operands0_command, operands1_command, operands2_command, operands3_command,
      operands4_command, operands5_command, operandsPrint_command] at h
  case print =>
    obtain ⟨n, p, rfl, hl, rfl⟩ := h
    exact ⟨rfl, nofun, nofun, by simp [Instr.wf, hl], rfl⟩
  case beginInst =>
    obtain ⟨_, _, _, _, _, rfl, rfl⟩ := h
    exact ⟨rfl, nofun, nofun, rfl, rfl⟩
  case endInst | getWidth | getHeight | clear | flush | stopScroll =>
    obtain ⟨rfl, rfl⟩ := h
    exact ⟨rfl, nofun, nofun, rfl, rfl⟩
  case setTextColor =>
    obtain ⟨rfl, rfl⟩ := h
    exact ⟨rfl, fun _ => rfl, fun _ => rfl, rfl, rfl⟩
  case setTextSize | invert | dim | setContrast =>
    obtain ⟨_, rfl, rfl⟩ := h
    exact ⟨rfl, nofun, nofun, rfl, rfl⟩
  case getPixel | setCursor | scrollRight | scrollLeft | scrollDiagRight | scrollDiagLeft =>
    obtain ⟨_, _, rfl, rfl⟩ := h
    exact ⟨rfl, nofun, nofun, rfl, rfl⟩
  case setPixel =>
    obtain ⟨_, _, rfl, rfl⟩ := h
    exact ⟨rfl, fun _ => rfl, nofun, rfl, rfl⟩
  case drawCircle | fillCircle =>
    obtain ⟨_, _, _, rfl, rfl⟩ := h
    exact ⟨rfl, fun _ => rfl, nofun, rfl, rfl⟩
  case drawLine | drawRect | fillRect =>
    obtain ⟨_, _, _, _, rfl, rfl⟩ := h
    exact ⟨rfl, fun _ => rfl, nofun, rfl, rfl⟩
  case drawGlyph =>
    obtain ⟨_, _, _, _, rfl, rfl⟩ := h
    exact ⟨rfl, fun _ => rfl, fun _ => rfl, rfl, rfl⟩

/-- The operands of a well-formed command are read back. -/
theorem decodeOperands_operands (i : Instr) (rest : List Word) (h : i.wf = true) :
    decodeOperands ⟨i.opcode, i.fieldC, i.fieldB⟩ (i.operands ++ rest) = .command i rest := by
  cases i
  case print n payload =>
    refine operandsPrint_command.mpr ⟨n, payload, rfl, ?_, rfl⟩
    simpa [Instr.wf] using h
  all_goals rfl

/-- A field that the opcode does not use is off. -/
theorem Instr.fields_used (i : Instr) :
    (i.opcode.row.usesC = true ∨ i.fieldC = .off) ∧ (i.opcode.row.usesB = true ∨ i.fieldB = .off) := by
  cases i <;> exact ⟨by first | exact .inl rfl | exact .inr rfl, by first | exact .inl rfl | exact .inr rfl⟩

/-- The number of operand words, payload apart. -/
theorem Instr.operands_length (i : Instr) :
    i.operands.length = i.opcode.row.nops + (match i with | .print _ payload => payload.length | _ => 0) := by
  cases i
  case print n payload => simp [Instr.operands, Instr.opcode, Opcode.row, Nat.add_comm]
  all_goals rfl

theorem Instr.length_operands_of_wf {i : Instr} (h : i.wf = true) : 1 + i.operands.length = i.len := by
  cases i
  case print n payload =>
    have : payload.length = payloadWords n := by simpa [Instr.wf] using h
    simp only [Instr.operands, Instr.len, Instr.opcode, Opcode.row, List.length_cons, this]
    omega
  all_goals rfl

end Sys2Proof
end

