-- ==== Sys2Proof/Laws/Memory.lean ====
section
/-! SUPPORT. The laws of byte memory: read after write, and that every memory operation keeps the canonical form. -/

namespace Sys2Proof.Machine

/-- An address below every listed one is unlisted. -/
theorem Memory.read_of_lt {m : Memory} {a : Nat} (h : ∀ p ∈ m, a < p.1) : m.read a = unlistedByte := by
  induction m with
  | nil => rfl
  | cons p m ih =>
    have hp := h p (by simp)
    simp only [Memory.read]
    rw [if_neg (by omega), ih fun q hq => h q (by simp [hq])]

/-- Whatever reads as other than an unlisted address is listed. -/
theorem Memory.mem_of_read_ne {m : Memory} {a : Nat} (h : m.read a ≠ unlistedByte) : (a, m.read a) ∈ m := by
  induction m with
  | nil => exact absurd rfl h
  | cons p m ih =>
    obtain ⟨k, v⟩ := p
    simp only [Memory.read] at h ⊢
    split
    · next hk => simp [hk]
    · next hk => rw [if_neg hk] at h; exact List.mem_cons_of_mem _ (ih h)

/-- A write leaves every other address alone, whatever the list. -/
theorem Memory.read_write_ne {m : Memory} {a b : Nat} {v : Byte} (h : b ≠ a) : (m.write a v).read b = m.read b := by
  induction m with
  | nil =>
    simp only [Memory.write]
    split
    · rfl
    · simp [Memory.read, Ne.symm h]
  | cons p m ih =>
    obtain ⟨k, w⟩ := p
    simp only [Memory.write]
    split
    · split
      · rfl
      · simp [Memory.read, Ne.symm h]
    · split
      · next _ hk =>
        subst hk
        split <;> simp [Memory.read, Ne.symm h]
      · simp [Memory.read, ih]

/-- Where a list comes from by a write: the cells it had, but for the one written. -/
theorem Memory.mem_write {m : Memory} {a : Nat} {v : Byte} {p : Host.Cell} (h : p ∈ m.write a v) :
    p ∈ m ∨ (p = (a, v) ∧ v ≠ unlistedByte) := by
  induction m with
  | nil =>
    simp only [Memory.write] at h
    split at h
    · simp at h
    · next hv => right; exact ⟨by simpa using h, hv⟩
  | cons q m ih =>
    obtain ⟨k, w⟩ := q
    simp only [Memory.write] at h
    split at h
    · split at h
      · exact Or.inl h
      · next hv =>
        rcases List.mem_cons.mp h with rfl | h
        · exact Or.inr ⟨rfl, hv⟩
        · exact Or.inl h
    · split at h
      · split at h
        · exact Or.inl (List.mem_cons_of_mem _ h)
        · next hv =>
          rcases List.mem_cons.mp h with rfl | h
          · exact Or.inr ⟨rfl, hv⟩
          · exact Or.inl (List.mem_cons_of_mem _ h)
      · rcases List.mem_cons.mp h with rfl | h
        · exact Or.inl (by simp)
        · rcases ih h with h | h
          · exact Or.inl (List.mem_cons_of_mem _ h)
          · exact Or.inr h

/-- The canonical form, one cell at a time. -/
theorem Memory.wf_cons {p : Host.Cell} {m : Memory} :
    Memory.wf (p :: m) ↔ (∀ q ∈ m, p.1 < q.1) ∧ p.2 ≠ unlistedByte ∧ Memory.wf m := by
  simp only [Memory.wf, List.pairwise_cons, List.mem_cons, forall_eq_or_imp]
  tauto

theorem Memory.wf_nil : Memory.wf [] := by simp [Memory.wf]

/-- A write keeps the canonical form. -/
theorem Memory.write_wf {m : Memory} {a : Nat} {v : Byte} (h : m.wf) : (m.write a v).wf := by
  induction m with
  | nil =>
    simp only [Memory.write]
    split
    · exact h
    · next hv => exact Memory.wf_cons.mpr ⟨by simp, hv, Memory.wf_nil⟩
  | cons q m ih =>
    obtain ⟨k, w⟩ := q
    obtain ⟨hlt, hw, hm⟩ := Memory.wf_cons.mp h
    simp only [Memory.write]
    split
    · next hak =>
      split
      · exact h
      · next hv =>
        refine Memory.wf_cons.mpr ⟨fun q hq => ?_, hv, h⟩
        rcases List.mem_cons.mp hq with rfl | hq
        · exact hak
        · exact lt_trans hak (hlt q hq)
    · split
      · next _ hk =>
        subst hk
        split
        · exact hm
        · next hv => exact Memory.wf_cons.mpr ⟨hlt, hv, hm⟩
      · next hak hk =>
        refine Memory.wf_cons.mpr ⟨fun q hq => ?_, hw, ih hm⟩
        rcases Memory.mem_write hq with hq | ⟨rfl, -⟩
        · exact hlt q hq
        · show k < a
          omega

/-- A read after a write to the same address gives the value written. -/
theorem Memory.read_write_self {m : Memory} {a : Nat} {v : Byte} (h : m.wf) : (m.write a v).read a = v := by
  induction m with
  | nil =>
    simp only [Memory.write]
    split
    · next hv => rw [hv]; rfl
    · simp [Memory.read]
  | cons q m ih =>
    obtain ⟨k, w⟩ := q
    obtain ⟨hlt, hw, hm⟩ := Memory.wf_cons.mp h
    simp only [Memory.write]
    split
    · next hak =>
      split
      · next hv =>
        rw [hv]
        refine Memory.read_of_lt fun p hp => ?_
        rcases List.mem_cons.mp hp with rfl | hp
        · exact hak
        · exact lt_trans hak (hlt p hp)
      · simp [Memory.read]
    · split
      · next _ hk =>
        subst hk
        split
        · next hv => rw [hv]; exact Memory.read_of_lt hlt
        · simp [Memory.read]
      · next hak hk =>
        simp only [Memory.read]
        rw [if_neg (fun e => hk e.symm), ih hm]

/-- A read after a write. -/
theorem Memory.read_write {m : Memory} {a b : Nat} {v : Byte} (h : m.wf) :
    (m.write a v).read b = if b = a then v else m.read b := by
  split
  · next e => subst e; exact Memory.read_write_self h
  · next e => exact Memory.read_write_ne e

/-- A memory built by writes has the canonical form. -/
theorem Memory.foldl_write_wf (cells : List Host.Cell) {m : Memory} (h : m.wf) :
    Memory.wf (cells.foldl (fun m p => m.write p.1 p.2) m) := by
  induction cells generalizing m with
  | nil => exact h
  | cons p cells ih => exact ih (Memory.write_wf h)

theorem Memory.ofCells_wf (cells : List Host.Cell) : (Memory.ofCells cells).wf :=
  Memory.foldl_write_wf cells Memory.wf_nil

/-- Every cell of a canonical memory reads back. -/
theorem Memory.read_of_mem {m : Memory} {p : Host.Cell} (h : m.wf) (hp : p ∈ m) : m.read p.1 = p.2 := by
  induction m with
  | nil => simp at hp
  | cons q m ih =>
    obtain ⟨hlt, -, hm⟩ := Memory.wf_cons.mp h
    obtain ⟨k, w⟩ := q
    simp only [Memory.read]
    rcases List.mem_cons.mp hp with rfl | hp
    · simp
    · rw [if_neg, ih hm hp]
      have := hlt p hp
      intro e
      simp only at this
      omega

/-- Equal memories are equal lists. -/
theorem Memory.ext_read {m n : Memory} (hm : m.wf) (hn : n.wf) (h : ∀ a, m.read a = n.read a) : m = n := by
  have mem : ∀ {m n : Memory}, m.wf → n.wf → (∀ a, m.read a = n.read a) → ∀ p ∈ m, p ∈ n := by
    intro m n hm hn h p hp
    have e := Memory.read_of_mem hm hp
    have : n.read p.1 ≠ unlistedByte := by
      rw [← h, e]; exact hm.2 p hp
    have := Memory.mem_of_read_ne this
    rwa [← h, e] at this
  exact List.Perm.eq_of_pairwise (fun a b _ _ h1 h2 => absurd h1 (by simp only [not_lt]; omega)) hm.1 hn.1
    ((List.perm_ext_iff_of_nodup (hm.1.imp fun h e => by simp [e] at h) (hn.1.imp fun h e => by simp [e] at h)).mpr
      fun p => ⟨mem hm hn h p, mem hn hm (fun a => (h a).symm) p⟩)

/-- Writing 0x00 over a range of addresses. -/
theorem Memory.foldl_clear (as : List Nat) {m : Memory} (h : m.wf) :
    (as.foldl (fun m a => m.write a 0x00) m).wf ∧
    ∀ b, (as.foldl (fun m a => m.write a 0x00) m).read b = if b ∈ as then 0 else m.read b := by
  induction as generalizing m with
  | nil => exact ⟨h, by simp⟩
  | cons a as ih =>
    obtain ⟨hw, hr⟩ := ih (m := m.write a 0x00) (Memory.write_wf h)
    refine ⟨hw, fun b => ?_⟩
    simp only [List.foldl_cons, hr, Memory.read_write h, List.mem_cons]
    by_cases h1 : b ∈ as <;> by_cases h2 : b = a <;> simp [h1, h2]

end Sys2Proof.Machine
end

