-- ==== Sys2Proof/Laws/Draw.lean ====
section
/-! SUPPORT. What drawing does, said once: a pixel is one bit of one byte (20_memory R51), `Plot` changes that bit alone
(41_pixel R131), `Apply` over a list without repeats paints its pixels once (R132). -/

namespace Sys2Proof.Machine

/-! ## One pixel, one bit -/

theorem byte_bit (v : Byte) (k : Nat) : ((v >>> k) &&& 1 = 1) ↔ v.getLsbD k = true := by
  constructor
  · intro h
    have := congrArg (fun w => w.getLsbD 0) h
    simpa using this
  · intro h
    apply BitVec.eq_of_getLsbD_eq
    intro i hi
    simp only [BitVec.getLsbD_and, BitVec.getLsbD_ushiftRight]
    by_cases h0 : i = 0
    · subst h0; simp [h]
    · simp [h0]

/-- A pixel of the panel is its bit (20_memory R51). -/
theorem DisplayHandle.pixel_eq {d : DisplayHandle} {x y : Int} (h : d.InBounds x y) :
    d.pixel x y = (d.fb.read (d.pixIndex x y)).getLsbD (pixBit y) := by
  unfold DisplayHandle.pixel
  rw [if_pos h]
  rcases e : (d.fb.read (d.pixIndex x y)).getLsbD (pixBit y) with _ | _
  · rw [decide_eq_false_iff_not, byte_bit, e]; simp
  · rw [decide_eq_true_iff, byte_bit, e]

theorem DisplayHandle.pixel_outside {d : DisplayHandle} {x y : Int} (h : ¬ d.InBounds x y) : d.pixel x y = false := by
  unfold DisplayHandle.pixel; rw [if_neg h]

/-- The pixels of a handle whose framebuffer is `m`. -/
theorem DisplayHandle.pixel_setFb (d : DisplayHandle) (m : Memory) (x y : Int) :
    DisplayHandle.pixel { d with fb := m } x y =
      if d.InBounds x y then (m.read (d.pixIndex x y)).getLsbD (pixBit y) else false := by
  split
  · next h => exact DisplayHandle.pixel_eq (d := { d with fb := m }) h
  · next h => exact DisplayHandle.pixel_outside (d := { d with fb := m }) h

theorem pixBit_lt (y : Int) : pixBit y < 8 := Nat.mod_lt _ (by omega)

/-- The byte and the bit determine the pixel. -/
theorem DisplayHandle.pix_inj {d : DisplayHandle} {x y x' y' : Int} (h : d.InBounds x y) (h' : d.InBounds x' y')
    (e : d.pixIndex x y = d.pixIndex x' y') (eb : pixBit y = pixBit y') : x = x' ∧ y = y' := by
  obtain ⟨h1, h2, h3, -⟩ := h
  obtain ⟨h1', h2', h3', -⟩ := h'
  unfold DisplayHandle.pixIndex at e
  unfold pixBit at eb
  have hx : x.toNat < d.width := by omega
  have hx' : x'.toNat < d.width := by omega
  have hm := congrArg (· % d.width) e
  simp only [Nat.add_mul_mod_self_right, Nat.mod_eq_of_lt hx, Nat.mod_eq_of_lt hx'] at hm
  have hd : y.toNat / 8 = y'.toNat / 8 := by
    have hpos : 0 < d.width := by omega
    have : y.toNat / 8 * d.width = y'.toNat / 8 * d.width := by omega
    exact Nat.eq_of_mul_eq_mul_right hpos this
  constructor <;> omega

/-- The byte of a pixel of the panel lies in the framebuffer (20_memory R50). -/
theorem DisplayHandle.pixIndex_lt {d : DisplayHandle} {x y : Int} (h : d.InBounds x y) (h8 : d.height % 8 = 0) :
    d.pixIndex x y < d.fbSize := by
  obtain ⟨h1, h2, h3, h4⟩ := h
  unfold DisplayHandle.pixIndex DisplayHandle.fbSize DisplayHandle.pages
  have hx : x.toNat < d.width := by omega
  have hy : y.toNat / 8 + 1 ≤ d.height / 8 := by omega
  calc x.toNat + y.toNat / 8 * d.width < d.width + y.toNat / 8 * d.width := by omega
    _ = (y.toNat / 8 + 1) * d.width := by ring
    _ ≤ d.height / 8 * d.width := Nat.mul_le_mul_right _ hy
    _ = d.width * (d.height / 8) := Nat.mul_comm _ _

/-- What `Color.paint` does to each bit. -/
theorem paint_bit (c : Color) (v : Byte) (y : Int) (k : Nat) :
    (Color.paint c v (pixMask y)).getLsbD k = if k = pixBit y then lights c (v.getLsbD k) else v.getLsbD k := by
  have hb := pixBit_lt y
  have hm : (pixMask y).getLsbD k = decide (k = pixBit y) := by
    show ((1 : Byte) <<< pixBit y).getLsbD k = _
    rw [BitVec.getLsbD_shiftLeft]
    by_cases h : k = pixBit y
    · subst h; simp [hb]
    · by_cases hk : k < pixBit y
      · simp [h, hk]
      · have : k - pixBit y ≠ 0 := by omega
        simp [h, BitVec.getLsbD_one, this]
  cases c with
  | off =>
    show (v &&& ~~~pixMask y).getLsbD k = _
    rw [BitVec.getLsbD_and, BitVec.getLsbD_not, hm]
    by_cases h : k = pixBit y
    · simp [h, lights]
    · by_cases h8 : k < 8
      · simp [h, h8]
      · simp [h, h8, BitVec.getLsbD_of_ge v k (by omega)]
  | on =>
    show (v ||| pixMask y).getLsbD k = _
    rw [BitVec.getLsbD_or, hm]
    by_cases h : k = pixBit y <;> simp [h, lights]
  | inverse =>
    show (v ^^^ pixMask y).getLsbD k = _
    rw [BitVec.getLsbD_xor, hm]
    by_cases h : k = pixBit y <;> simp [h, lights]

theorem lights_lights (b : Bool) : lights .inverse (lights .inverse b) = b := by cases b <;> rfl

/-! ## Drawn -/

theorem Drawn.congr {d d' : DisplayHandle} {S T : Int → Int → Prop} {c : Color} (h : Drawn d d' S c)
    (e : ∀ x y, d.InBounds x y → (S x y ↔ T x y)) : Drawn d d' T c where
  registers := h.registers
  inside x y hb ht := h.inside x y hb ((e x y hb).mpr ht)
  outside x y hn := h.outside x y fun ⟨hb, hs⟩ => hn ⟨hb, (e x y hb).mp hs⟩
  bytes a ha := h.bytes a fun x y hb hs => ha x y hb ((e x y hb).mp hs)
  wf := h.wf

theorem Drawn.empty {d : DisplayHandle} {S : Int → Int → Prop} {c : Color} (hw : d.fb.wf)
    (e : ∀ x y, d.InBounds x y → ¬ S x y) : Drawn d d S c where
  registers := rfl
  inside x y hb hs := absurd hs (e x y hb)
  outside _ _ _ := rfl
  bytes _ _ := rfl
  wf := hw

/-- Painting one set after another that it does not meet. -/
theorem Drawn.trans {d d1 d2 : DisplayHandle} {S T : Int → Int → Prop} {c : Color} (h : Drawn d d1 S c)
    (g : Drawn d1 d2 T c) (dis : ∀ x y, S x y → ¬ T x y) : Drawn d d2 (fun x y => S x y ∨ T x y) c := by
  have hb : ∀ x y, d1.InBounds x y ↔ d.InBounds x y := fun x y => by
    rw [h.registers]
  have hp : ∀ x y, d1.pixIndex x y = d.pixIndex x y := fun x y => by
    rw [h.registers]; rfl
  refine ⟨?_, ?_, ?_, ?_, g.wf⟩
  · rw [g.registers, h.registers]
  · rintro x y hi (hs | ht)
    · rw [g.outside x y fun ⟨_, ht⟩ => dis x y hs ht]
      exact h.inside x y hi hs
    · rw [g.inside x y ((hb x y).mpr hi) ht, h.outside x y fun ⟨_, hs⟩ => dis x y hs ht]
  · intro x y hn
    rw [g.outside x y fun ⟨hi, ht⟩ => hn ⟨(hb x y).mp hi, .inr ht⟩, h.outside x y fun ⟨hi, hs⟩ => hn ⟨hi, .inl hs⟩]
  · intro a ha
    rw [g.bytes a fun x y hi ht => by rw [hp]; exact ha x y ((hb x y).mp hi) (.inr ht),
      h.bytes a fun x y hi hs => ha x y hi (.inl hs)]

/-- `Plot` changes the bit of its pixel and nothing else (41_pixel R131). -/
theorem DisplayHandle.plot_drawn {d : DisplayHandle} (x y : Int) (c : Color) (hw : d.fb.wf) :
    Drawn d (d.plot x y c) (fun px py => px = x ∧ py = y) c := by
  unfold DisplayHandle.plot
  split
  · next hi =>
    have hpix : ∀ px py, d.InBounds px py → DisplayHandle.pixel
        { d with fb := d.fb.write (d.pixIndex x y) (Color.paint c (d.fb.read (d.pixIndex x y)) (pixMask y)) } px py =
        if d.pixIndex px py = d.pixIndex x y ∧ pixBit py = pixBit y then lights c (d.pixel px py) else d.pixel px py := by
      intro px py hp
      rw [DisplayHandle.pixel_setFb, if_pos hp, DisplayHandle.pixel_eq hp, Memory.read_write hw]
      by_cases e : d.pixIndex px py = d.pixIndex x y
      · rw [if_pos e, paint_bit, e]
        simp
      · rw [if_neg e]; simp [e]
    refine ⟨rfl, ?_, ?_, ?_, Memory.write_wf hw⟩
    · rintro px py hp ⟨rfl, rfl⟩
      rw [hpix px py hp]; simp
    · intro px py hn
      by_cases hp : d.InBounds px py
      · rw [hpix px py hp, if_neg]
        rintro ⟨e1, e2⟩
        exact hn ⟨hp, d.pix_inj hp hi e1 e2⟩
      · rw [DisplayHandle.pixel_outside hp, DisplayHandle.pixel_setFb, if_neg hp]
    · intro a ha
      exact Memory.read_write_ne (Ne.symm (ha x y hi ⟨rfl, rfl⟩))
  · next hi =>
    exact Drawn.empty hw fun px py hp ⟨e1, e2⟩ => hi (by rwa [e1, e2] at hp)

/-- `Apply` paints each pixel of its list once (41_pixel R132). -/
theorem DisplayHandle.apply_drawn {d : DisplayHandle} {S : PixelSet} (c : Color) (hw : d.fb.wf) (hS : S.Nodup) :
    Drawn d (d.apply S c) (fun x y => (x, y) ∈ S) c := by
  induction S generalizing d with
  | nil => exact Drawn.empty hw (by simp)
  | cons p S ih =>
    obtain ⟨hp, hS⟩ := List.nodup_cons.mp hS
    have h1 := d.plot_drawn p.1 p.2 c hw
    have h2 := ih h1.wf hS
    refine (h1.trans h2 ?_).congr ?_
    · rintro x y ⟨rfl, rfl⟩; exact hp
    · intro x y _
      simp [List.mem_cons, Prod.ext_iff]

/-! ## What drawing leaves alone, whatever the memory -/

theorem DisplayHandle.plot_registers (d : DisplayHandle) (x y : Int) (c : Color) :
    d.plot x y c = { d with fb := (d.plot x y c).fb } := by
  unfold DisplayHandle.plot; split <;> rfl

theorem DisplayHandle.apply_registers (d : DisplayHandle) (S : PixelSet) (c : Color) :
    d.apply S c = { d with fb := (d.apply S c).fb } := by
  induction S generalizing d with
  | nil => rfl
  | cons p S ih =>
    show DisplayHandle.apply (d.plot p.1 p.2 c) S c = { d with fb := (DisplayHandle.apply (d.plot p.1 p.2 c) S c).fb }
    rw [ih, d.plot_registers]

theorem DisplayHandle.plot_wf {d : DisplayHandle} (x y : Int) (c : Color) (hw : d.fb.wf) : (d.plot x y c).fb.wf :=
  (d.plot_drawn x y c hw).wf

theorem DisplayHandle.apply_wf {d : DisplayHandle} (S : PixelSet) (c : Color) (hw : d.fb.wf) : (d.apply S c).fb.wf := by
  induction S generalizing d with
  | nil => exact hw
  | cons p S ih => exact ih (d.plot_wf p.1 p.2 c hw)

/-- Drawing lists no byte outside the framebuffer (20_memory R50). -/
theorem DisplayHandle.plot_addr {d : DisplayHandle} (x y : Int) (c : Color) (h8 : d.height % 8 = 0)
    (h : ∀ p ∈ d.fb, p.1 < d.fbSize) : ∀ p ∈ (d.plot x y c).fb, p.1 < d.fbSize := by
  unfold DisplayHandle.plot
  split
  · next hi =>
    intro p hp
    rcases Memory.mem_write hp with hp | ⟨rfl, -⟩
    · exact h p hp
    · exact d.pixIndex_lt hi h8
  · exact h

theorem DisplayHandle.apply_addr {d : DisplayHandle} (S : PixelSet) (c : Color) (h8 : d.height % 8 = 0)
    (h : ∀ p ∈ d.fb, p.1 < d.fbSize) : ∀ p ∈ (d.apply S c).fb, p.1 < d.fbSize := by
  induction S generalizing d with
  | nil => exact h
  | cons p S ih =>
    have e := d.plot_registers p.1 p.2 c
    have hs : (d.plot p.1 p.2 c).fbSize = d.fbSize := by rw [e]; rfl
    have h8' : (d.plot p.1 p.2 c).height % 8 = 0 := by rw [e]; exact h8
    have := ih h8' (by rw [hs]; exact d.plot_addr p.1 p.2 c h8 h)
    rw [hs] at this
    exact this

/-! ## Windows and panel parts -/

theorem mem_span {lo hi v : Int} : v ∈ span lo hi ↔ lo ≤ v ∧ v < hi := by
  unfold span
  simp only [List.mem_map, List.mem_range]
  constructor
  · rintro ⟨k, hk, rfl⟩; omega
  · intro h; exact ⟨(v - lo).toNat, by omega, by omega⟩

theorem span_nodup (lo hi : Int) : (span lo hi).Nodup := by
  unfold span
  refine List.Nodup.map ?_ List.nodup_range
  intro a b h; simpa using h

theorem DisplayHandle.mem_window {d : DisplayHandle} {x y w h px py : Int} :
    (px, py) ∈ d.window x y w h ↔ d.InBounds px py ∧ x ≤ px ∧ px < x + w ∧ y ≤ py ∧ py < y + h := by
  unfold DisplayHandle.window
  simp only [List.mem_flatMap, List.mem_map, mem_span, Prod.mk.injEq]
  constructor
  · rintro ⟨a, ha, b, hb, rfl, rfl⟩; unfold DisplayHandle.InBounds; omega
  · rintro ⟨⟨_, _, _, _⟩, _⟩; exact ⟨px, by omega, py, by omega, rfl, rfl⟩

theorem DisplayHandle.window_nodup (d : DisplayHandle) (x y w h : Int) : (d.window x y w h).Nodup := by
  unfold DisplayHandle.window
  refine List.nodup_flatMap.mpr ⟨fun a _ => ?_, ?_⟩
  · exact (span_nodup _ _).map fun b b' e => by simpa using e
  · refine (span_nodup _ _).imp fun {a a'} hne => ?_
    intro p hp hp'
    simp only [List.mem_map] at hp hp'
    obtain ⟨b, -, rfl⟩ := hp
    obtain ⟨b', -, e⟩ := hp'
    exact hne (by simpa using (congrArg Prod.fst e).symm)

theorem DisplayHandle.mem_onPanel {d : DisplayHandle} {points : List (Int × Int)} {p : Int × Int} :
    p ∈ d.onPanel points ↔ p ∈ points ∧ d.InBounds p.1 p.2 := by
  unfold DisplayHandle.onPanel
  rw [List.mem_dedup, List.mem_filter]
  simp

theorem DisplayHandle.onPanel_nodup (d : DisplayHandle) (points : List (Int × Int)) : (d.onPanel points).Nodup :=
  List.nodup_dedup _

/-- Painting the panel's part of a set given by points. -/
theorem DisplayHandle.onPanel_drawn {d : DisplayHandle} {points : List (Int × Int)} {S : Int → Int → Prop} (c : Color)
    (hw : d.fb.wf) (h : ∀ x y, (x, y) ∈ points ↔ S x y) : Drawn d (d.apply (d.onPanel points) c) S c :=
  (DisplayHandle.apply_drawn c hw (d.onPanel_nodup points)).congr fun x y hb => by
    rw [DisplayHandle.mem_onPanel, h]; exact and_iff_left hb

/-- Painting part of a block of the panel. -/
theorem DisplayHandle.window_drawn {d : DisplayHandle} {x y w h : Int} {q : Int × Int → Bool} {S : Int → Int → Prop}
    (c : Color) (hw : d.fb.wf)
    (e : ∀ px py, S px py ↔ (x ≤ px ∧ px < x + w ∧ y ≤ py ∧ py < y + h) ∧ q (px, py) = true) :
    Drawn d (d.apply ((d.window x y w h).filter q) c) S c :=
  (DisplayHandle.apply_drawn c hw ((d.window_nodup x y w h).filter q)).congr fun px py hb => by
    rw [List.mem_filter, DisplayHandle.mem_window, e, and_iff_right hb]

end Sys2Proof.Machine
end

