-- ==== Sys2Proof/Laws/Exec.lean ====
section
/-! SUPPORT. What each kind of command can do, said once: without an instance; off the bus; on the bus (see exec_sync); BEGIN and
END. Every claim over all commands is a case analysis over these. -/

namespace Sys2Proof.Machine

/-- BEGIN and END, which need no instance. -/
def IsLifecycle : Instr → Prop
  | .beginInst _ _ _ _ _ | .endInst => True
  | .getWidth | .getHeight | .setPixel _ _ _ | .getPixel _ _ | .clear
  | .drawLine _ _ _ _ _ | .drawRect _ _ _ _ _ | .fillRect _ _ _ _ _ | .drawCircle _ _ _ _ | .fillCircle _ _ _ _
  | .drawGlyph _ _ _ _ _ _ | .setCursor _ _ | .setTextSize _ | .setTextColor _ _ | .print _ _
  | .flush | .invert _ | .dim _ | .setContrast _ | .scrollRight _ _ | .scrollLeft _ _ | .scrollDiagRight _ _
  | .scrollDiagLeft _ _ | .stopScroll => False

theorem not_isLifecycle {i : Instr} (h1 : i ≠ .endInst) (h2 : ∀ a b c d e, i ≠ .beginInst a b c d e) : ¬ IsLifecycle i := by
  intro h
  cases i <;> simp only [IsLifecycle] at h
  · exact h2 _ _ _ _ _ rfl
  · exact h1 rfl

/-- The instance and the result that a command off the bus leaves; none where PRINT is refused. A command on the bus, BEGIN and
END have no row here. -/
def offBus (rom : GlyphRom) (d : DisplayHandle) : Instr → Option (DisplayHandle × Word)
  | .getWidth => some (d, BitVec.ofNat 32 d.width)
  | .getHeight => some (d, BitVec.ofNat 32 d.height)
  | .setPixel c x y => some (d.plot x.toInt y.toInt c, 0)
  | .getPixel x y => some (d, if d.pixel x.toInt y.toInt then 1 else 0)
  | .clear => some ({ d with fb := (List.range d.fbSize).foldl (fun m a => m.write a 0x00) d.fb }, 0)
  | .drawLine c x0 y0 x1 y1 => some (d.apply (d.lineSet x0.toInt y0.toInt x1.toInt y1.toInt) c, 0)
  | .drawRect c x y w h => some (d.apply (d.rectOutline x.toInt y.toInt w.toInt h.toInt) c, 0)
  | .fillRect c x y w h => some (d.apply (d.rectFill x.toInt y.toInt w.toInt h.toInt) c, 0)
  | .drawCircle c x0 y0 r => some (d.apply (d.circleSet x0.toInt y0.toInt r.toInt) c, 0)
  | .fillCircle c x0 y0 r => some (d.apply (d.discSet x0.toInt y0.toInt r.toInt) c, 0)
  | .drawGlyph c b x y ch scale => some (d.drawChar rom x.toInt y.toInt ch.toNat c b (effScale scale.toInt), 0)
  | .setCursor x y => some ({ d with cursorX := x, cursorY := y }, 0)
  | .setTextSize size => some ({ d with textScale := effScale size.toInt }, 0)
  | .setTextColor c b => some ({ d with textColor := c, textBg := b }, 0)
  | .print n payload => (d.printBytes rom (textBytes n payload)).map fun d => (d, 0)
  | .beginInst _ _ _ _ _ | .endInst | .flush | .invert _ | .dim _ | .setContrast _ | .scrollRight _ _ | .scrollLeft _ _
  | .scrollDiagRight _ _ | .scrollDiagLeft _ _ | .stopScroll => none

/-- The state in which a command off the bus ends. -/
abbrev State.drawn (s : State) (d : DisplayHandle) (len : Nat) (r : Word) : State :=
  State.complete { s with handle := d } len .ok r

/-- Without an instance (60_exceptions R242). -/
theorem exec_inactive {i : Instr} {s : State} (h : ¬ IsLifecycle i) (ha : s.active = false) :
    exec i s = .next (s.complete i.len .notInitialized 0) := by
  cases i <;> simp only [IsLifecycle, not_true_eq_false, not_false_eq_true] at h <;>
    simp only [exec, execGetWidth, execGetHeight, execSetPixel, execGetPixel, execClear, execDrawLine, execDrawRect,
      execFillRect, execDrawCircle, execFillCircle, execDrawGlyph, execSetCursor, execSetTextSize, execSetTextColor,
      execPrint, execFlush, execInvert, execDim, execSetContrast, execScrollRight, execScrollLeft, execScrollDiagRight,
      execScrollDiagLeft, execStopScroll, State.updateHandle, State.sendAndDo, State.whenActive, ha, Bool.false_eq_true,
      if_false] <;> rfl

/-- A command off the bus, with an instance. -/
theorem exec_offBus {i : Instr} {s : State} (h : ¬ IsLifecycle i) (hs : ¬ IsSync i) (ha : s.active = true) :
    (∃ d r, offBus s.cfg.glyph s.handle i = some (d, r) ∧ exec i s = .next (s.drawn d i.len r)) ∨
    (offBus s.cfg.glyph s.handle i = none ∧ (∃ n payload, i = .print n payload) ∧ exec i s = .refused .cursorRange) := by
  cases i <;> simp only [IsLifecycle, not_true_eq_false, not_false_eq_true] at h <;>
    simp only [IsSync, not_true_eq_false, not_false_eq_true] at hs
  case print n payload =>
    simp only [exec, execPrint, State.whenActive, ha, if_true, offBus]
    cases e : s.handle.printBytes s.cfg.glyph (textBytes n payload) with
    | none => exact .inr ⟨rfl, ⟨n, payload, rfl⟩, rfl⟩
    | some d => exact .inl ⟨d, 0, rfl, by rw [← ha]; rfl⟩
  all_goals
    refine .inl ⟨_, _, rfl, ?_⟩
    simp only [exec, execGetWidth, execGetHeight, execSetPixel, execGetPixel, execClear, execDrawLine, execDrawRect,
      execFillRect, execDrawCircle, execFillCircle, execDrawGlyph, execSetCursor, execSetTextSize, execSetTextColor,
      State.updateHandle, State.whenActive, ha, if_true]
    rfl

/-- A command off the bus completes with its row. -/
theorem exec_offBus_some {i : Instr} {s : State} {d : DisplayHandle} {r : Word} (ha : s.active = true)
    (e : offBus s.cfg.glyph s.handle i = some (d, r)) : exec i s = .next (s.drawn d i.len r) := by
  have h : ¬ IsLifecycle i ∧ ¬ IsSync i := by cases i <;> simp_all [offBus, IsLifecycle, IsSync]
  rcases exec_offBus h.1 h.2 ha with ⟨d', r', e', x⟩ | ⟨e', -⟩
  · rw [e] at e'; cases e'; exact x
  · rw [e] at e'; cases e'

/-- SETCONTRAST outside 0..255 (44_display_sync R216). -/
theorem exec_badArgument {i : Instr} {s : State} (ha : s.active = true) (hv : ¬ ArgumentsValid i) :
    exec i s = .next (s.complete i.len .invalidArgument 0) := by
  cases i <;> simp only [ArgumentsValid, not_true_eq_false] at hv
  case setContrast v =>
    have h : sext32 v < 0 ∨ sext32 v > 255 := by unfold sext32; omega
    simp only [exec, execSetContrast, State.whenActive, ha, if_true, if_pos h]
    rfl

/-- Everything a command other than BEGIN and END can do. -/
theorem exec_cases {i : Instr} {s : State} (h : ¬ IsLifecycle i) :
    (s.active = false ∧ exec i s = .next (s.complete i.len .notInitialized 0)) ∨
    (s.active = true ∧ ¬ IsSync i ∧ ∃ d r, offBus s.cfg.glyph s.handle i = some (d, r) ∧
      exec i s = .next (s.drawn d i.len r)) ∨
    (s.active = true ∧ ¬ IsSync i ∧ offBus s.cfg.glyph s.handle i = none ∧ (∃ n payload, i = .print n payload) ∧
      exec i s = .refused .cursorRange) ∨
    (s.active = true ∧ IsSync i ∧ ¬ ArgumentsValid i ∧ exec i s = .next (s.complete i.len .invalidArgument 0)) ∨
    (s.active = true ∧ IsSync i ∧ ArgumentsValid i ∧ ∃ t, exec i s = .next ((syncEffect i t).complete i.len .ok 0) ∧
      (∀ k, k < (syncPrims s.cfg.cmd s.handle i).length → s.answerAt k = .ok) ∧
      Bused s t (allOk (syncPrims s.cfg.cmd s.handle i)) (syncPrims s.cfg.cmd s.handle i).length) ∨
    (s.active = true ∧ IsSync i ∧ ArgumentsValid i ∧ ∃ t j p reached, exec i s = .next (t.complete i.len .ioError 0) ∧
      (syncPrims s.cfg.cmd s.handle i)[j]? = some p ∧ (∀ k, k < j → s.answerAt k = .ok) ∧ s.answerAt j = .fail reached ∧
      Bused s t (allOk ((syncPrims s.cfg.cmd s.handle i).take j) ++ [⟨p, outcomeOf p (.fail reached)⟩]) (j + 1)) ∨
    (s.active = true ∧ IsSync i ∧ ArgumentsValid i ∧ exec i s = .fault .transferStalled ∧
      StallsWithin s 0 (syncPrims s.cfg.cmd s.handle i).length) := by
  cases ha : s.active with
  | false => exact .inl ⟨rfl, exec_inactive h ha⟩
  | true =>
    by_cases hs : IsSync i
    · by_cases hv : ArgumentsValid i
      · have e := exec_sync hs ha hv
        rcases State.issueAll_cases s (syncPrims s.cfg.cmd s.handle i) with
          ⟨hk, t, e', b⟩ | ⟨j, p, r, hp, hk, hj, t, e', b⟩ | ⟨j, hp, hk, hj, e'⟩
        · exact .inr (.inr (.inr (.inr (.inl ⟨rfl, hs, hv, t, by rw [e, e']; rfl, hk, b⟩))))
        · exact .inr (.inr (.inr (.inr (.inr (.inl ⟨rfl, hs, hv, t, j, p, r, by rw [e, e']; rfl, hp, hk, hj, b⟩)))))
        · exact .inr (.inr (.inr (.inr (.inr (.inr ⟨rfl, hs, hv, by rw [e, e']; rfl, j, hp, by simpa using hk, by simpa using hj⟩)))))
      · exact .inr (.inr (.inr (.inl ⟨rfl, hs, hv, exec_badArgument ha hv⟩)))
    · rcases exec_offBus h hs ha with ⟨d, r, e, e'⟩ | ⟨e, hp, e'⟩
      · exact .inr (.inl ⟨rfl, hs, d, r, e, e'⟩)
      · exact .inr (.inr (.inl ⟨rfl, hs, e, hp, e'⟩))

/-! ## BEGIN, END and the reset input -/

/-- What a teardown leaves: the bus closed, the instance gone; without an instance it does nothing (40_lifecycle R106, R111). -/
structure TornDown (s t : State) : Prop where
  eq : t = { s with
    active := false, busOpen := if s.active then false else s.busOpen, busTrace := s.busTrace ++ teardownEvents s,
    handle := t.handle, answers := t.answers, busDraws := t.busDraws, draws := t.draws }
  answers : ∀ k, t.answerAt k = s.answerAt (teardownAnswers s + k)
  handle : if s.active then ∃ n, t.handle = freeHandle n else t.handle = s.handle

theorem State.teardownIfActive_some {s : State} (h : TeardownAnswered s) :
    ∃ t, s.teardownIfActive = some t ∧ TornDown s t := by
  unfold State.teardownIfActive
  cases ha : s.active with
  | false =>
    refine ⟨s, by simp, ?_, fun k => by simp [teardownAnswers, ha], by simp [ha]⟩
    simp only [teardownEvents, ha, Bool.false_eq_true, if_false, List.append_nil]
    rw [← ha]
  | true =>
    simp only [if_true, State.teardown]
    have fin : ∀ u o, outcomeOf (.cmdFrame s.cfg.cmd.displayOff) (s.answerAt 0) = o →
        Bused s u [⟨.cmdFrame s.cfg.cmd.displayOff, o⟩] 1 → TornDown s { u.release with active := false } := by
      rintro u o rfl b
      refine ⟨?_, fun k => ?_, ?_⟩
      · simp only [State.release, State.closeBus, State.record, State.freeHandle, teardownEvents, ha, if_true]
        rw [b.eq]
        simp [List.append_assoc]
      · simp only [teardownAnswers, ha, if_true]
        exact (State.answerAt_congr rfl rfl k).trans (b.answers k)
      · simp only [ha, if_true]
        exact ⟨_, rfl⟩
    rcases State.issue_cases s (.cmdFrame s.cfg.cmd.displayOff) with ⟨h0, t, e, b⟩ | ⟨r, h0, t, e, b⟩ | ⟨h0, e⟩
    · rw [e]; exact ⟨_, rfl, fin t _ (by rw [h0]; rfl) b⟩
    · rw [e]; exact ⟨_, rfl, fin t _ (by rw [h0]) b⟩
    · exact absurd h0 (h ha)

theorem State.teardownIfActive_none {s : State} (h : ¬ TeardownAnswered s) :
    s.teardownIfActive = none ∧ s.active = true ∧ s.answerAt 0 = .never := by
  unfold TeardownAnswered at h
  push Not at h
  obtain ⟨ha, h0⟩ := h
  refine ⟨?_, ha, h0⟩
  simp only [State.teardownIfActive, ha, if_true, State.teardown, State.issue_never h0]

/-- `t` with the handle's bus connection set, after primitives that leave it alone. -/
theorem Bused.setOpen {s t : State} {e : List BusEvent} {n : Nat} (h : Bused s t e n) (b : Bool) :
    Bused { s with busOpen := b } { t with busOpen := b } e n := by
  refine ⟨?_, fun k => ?_⟩
  · conv_lhs => rw [h.eq]
  · exact (State.answerAt_congr rfl rfl k).trans ((h.answers k).trans (State.answerAt_congr rfl rfl _).symm)

/-- Everything BEGIN does after the teardown of a previous instance (40_lifecycle R104, R108). -/
theorem State.bringUp_cases (s : State) (bus addr h : Word) (mode : Vcc) :
    ((∀ k, k < 28 → s.answerAt k = .ok) ∧ ∃ t, s.bringUp bus addr h mode = .next ((t.activate mode).complete 6 .ok 0) ∧
      Bused { s with busOpen := true } t (allOk (beginPrims s.cfg.cmd bus addr h mode)) 28) ∨
    (∃ reached, s.answerAt 0 = .fail reached ∧ ∃ t, s.bringUp bus addr h mode = .next (t.freeHandle.complete 6 .ioError 0) ∧
      Bused s t [⟨.openBus bus, outcomeOf (.openBus bus) (.fail reached)⟩] 1) ∨
    (∃ j p reached, (beginPrims s.cfg.cmd bus addr h mode)[j]? = some p ∧ 0 < j ∧ (∀ k, k < j → s.answerAt k = .ok) ∧
      s.answerAt j = .fail reached ∧ ∃ t, s.bringUp bus addr h mode = .next (t.release.complete 6 .ioError 0) ∧
      Bused { s with busOpen := true } t
        (allOk ((beginPrims s.cfg.cmd bus addr h mode).take j) ++ [⟨p, outcomeOf p (.fail reached)⟩]) (j + 1)) ∨
    (∃ j, j < 28 ∧ (∀ k, k < j → s.answerAt k = .ok) ∧ s.answerAt j = .never ∧
      s.bringUp bus addr h mode = .fault .transferStalled) := by
  have haddr : BitVec.ofInt 7 (sext32 addr) = addr.setWidth 7 := by
    unfold sext32
    apply BitVec.eq_of_toNat_eq
    have := addr.isLt
    simp only [BitVec.toNat_ofInt, BitVec.toNat_setWidth, BitVec.toInt_eq_toNat_cond]
    split <;> omega
  have hinit : (initSeq s.cfg.cmd (sext32 h) mode).length = 26 := rfl
  rcases State.issue_cases s (.openBus bus) with ⟨h0, t, e, b⟩ | ⟨r, h0, t, e, b⟩ | ⟨h0, e⟩
  · have b1 := b.setOpen true
    have ans : ∀ k, State.answerAt { t with busOpen := true } k = s.answerAt (1 + k) := fun k => by
      rw [b1.answers]; exact State.answerAt_congr rfl rfl _
    have seq : (State.issue { t with busOpen := true } (.bindAddr (BitVec.ofInt 7 (sext32 addr)))).andThen
        (fun s2 => s2.sendSeq (initSeq s2.cfg.cmd (sext32 h) mode)) =
        State.issueAll { t with busOpen := true }
          (.bindAddr (addr.setWidth 7) :: (initSeq s.cfg.cmd (sext32 h) mode).map .cmdFrame) := by
      rw [haddr, State.issueAll]
      rcases State.issue_cases { t with busOpen := true } (.bindAddr (addr.setWidth 7)) with
        ⟨-, u, e', b'⟩ | ⟨-, -, u, e', -⟩ | ⟨-, e'⟩
      · have hc : u.cfg = s.cfg := b'.cfg.trans b.cfg
        rw [e', BusResult.andThen, BusResult.andThen, State.sendSeq_eq, hc]
      · rw [e', BusResult.andThen, BusResult.andThen]
      · rw [e', BusResult.andThen, BusResult.andThen]
    have run : ∀ r, State.issueAll { t with busOpen := true }
        (.bindAddr (addr.setWidth 7) :: (initSeq s.cfg.cmd (sext32 h) mode).map .cmdFrame) = r →
        s.bringUp bus addr h mode =
          match r with
          | .stalled => .fault .transferStalled
          | .fail s2 => .next (s2.release.raiseError 6 .ioError)
          | .ok s2 => .next ((s2.activate mode).done 6) := by
      rintro r rfl
      unfold State.bringUp
      rw [e]
      simp only [seq]
      all_goals (generalize State.issueAll _ _ = r; cases r <;> rfl)
    have before : ∀ j, (∀ k, k < j → State.answerAt { t with busOpen := true } k = .ok) →
        ∀ k, k < j + 1 → s.answerAt k = .ok := by
      intro j hj k hk
      cases k with
      | zero => exact h0
      | succ k => rw [Nat.add_comm, ← ans]; exact hj k (by omega)
    rcases State.issueAll_cases { t with busOpen := true }
        (.bindAddr (addr.setWidth 7) :: (initSeq s.cfg.cmd (sext32 h) mode).map .cmdFrame) with
      ⟨hk, u, e', b'⟩ | ⟨j, p, r, hp, hk, hj, u, e', b'⟩ | ⟨j, hp, hk, hj, e'⟩
    · exact .inl ⟨before 27 (by simpa [hinit] using hk), u, run _ e', b1.trans b'⟩
    · have run := run _ e'
      refine .inr (.inr (.inl ⟨j + 1, p, r, by simpa [beginPrims, sext32] using hp, by omega, before j hk, ?_, u, run, ?_⟩))
      · rw [Nat.add_comm, ← ans, hj]
      · have := b1.trans b'
        rw [Nat.add_comm 1] at this
        exact this
    · have run := run _ e'
      refine .inr (.inr (.inr ⟨j + 1, ?_, before j hk, ?_, run⟩))
      · simp [hinit] at hp; omega
      · rw [Nat.add_comm, ← ans, hj]
  · exact .inr (.inl ⟨r, h0, t, by unfold State.bringUp; rw [e]; rfl, b⟩)
  · exact .inr (.inr (.inr ⟨0, by omega, by simp, h0, by unfold State.bringUp; rw [e]⟩))

/-- The geometry check as a proposition (40_lifecycle R105). -/
theorem validGeometry_some {cap : Option Nat} {addr w h vcc : Word} {mode : Vcc} :
    validGeometry cap (sext32 w) (sext32 h) (sext32 addr) (sext32 vcc) = some mode ↔ ValidGeometry cap addr w h vcc mode := by
  unfold validGeometry vccOf ValidGeometry geometryFits sext32
  have hcap : (match cap with
      | none => true
      | some c => decide (w.toInt * (h.toInt / 8) ≤ (c : Int))) = true ↔ ∀ c, cap = some c → w.toInt * (h.toInt / 8) ≤ c := by
    cases cap with
    | none => simp
    | some c => simp
  by_cases hg : 1 ≤ w.toInt ∧ 8 ≤ h.toInt ∧ h.toInt % 8 = 0 ∧ 0 ≤ addr.toInt ∧ addr.toInt ≤ 127 ∧
      ∀ c, cap = some c → w.toInt * (h.toInt / 8) ≤ c
  · rw [if_pos]
    · obtain ⟨h1, h2, h3, h4, h5, h6⟩ := hg
      simp only [h1, h2, h3, h4, h5, true_and]
      by_cases v1 : vcc.toInt = 1
      · rw [if_pos v1]; simp only [Option.some.injEq]
        exact ⟨fun e => ⟨.inl ⟨v1, e.symm⟩, h6⟩, fun ⟨e, _⟩ => by rcases e with e | e <;> [exact e.2.symm; omega]⟩
      · rw [if_neg v1]
        by_cases v2 : vcc.toInt = 2
        · rw [if_pos v2]; simp only [Option.some.injEq]
          exact ⟨fun e => ⟨.inr ⟨v2, e.symm⟩, h6⟩, fun ⟨e, _⟩ => by rcases e with e | e <;> [omega; exact e.2.symm]⟩
        · rw [if_neg v2]
          simp [v1, v2]
    · obtain ⟨h1, h2, h3, h4, h5, h6⟩ := hg
      simp only [h1, h2, h3, h4, h5, decide_true, Bool.true_and, Bool.and_self]
      exact hcap.mpr h6
  · rw [if_neg]
    · constructor
      · intro e; cases e
      · rintro ⟨h1, h2, h3, h4, h5, -, h6⟩; exact absurd ⟨h1, h2, h3, h4, h5, h6⟩ hg
    · intro e
      simp only [Bool.and_eq_true, decide_eq_true_eq] at e
      obtain ⟨⟨⟨⟨⟨h1, h2⟩, h3⟩, h4⟩, h5⟩, h6⟩ := e
      exact hg ⟨h1, h2, h3, h4, h5, hcap.mp h6⟩

theorem validGeometry_none {cap : Option Nat} {addr w h vcc : Word} :
    validGeometry cap (sext32 w) (sext32 h) (sext32 addr) (sext32 vcc) = none ↔
      ∀ mode, ¬ ValidGeometry cap addr w h vcc mode := by
  rw [Option.eq_none_iff_forall_ne_some]
  exact forall_congr' fun mode => not_congr validGeometry_some

/-- Everything BEGIN can do up to the bus (40_lifecycle R104 to R106). -/
theorem exec_begin_cases (bus addr w h vcc : Word) (s : State) :
    ((∀ mode, ¬ ValidGeometry s.cfg.fbCapacity addr w h vcc mode) ∧
      exec (.beginInst bus addr w h vcc) s = .next (s.complete 6 .invalidArgument 0)) ∨
    (∃ mode, ValidGeometry s.cfg.fbCapacity addr w h vcc mode ∧ ¬ TeardownAnswered s ∧
      exec (.beginInst bus addr w h vcc) s = .fault .transferStalled) ∨
    (∃ mode u, ValidGeometry s.cfg.fbCapacity addr w h vcc mode ∧ TeardownAnswered s ∧ TornDown s u ∧
      exec (.beginInst bus addr w h vcc) s = (u.allocate bus addr w h mode).bringUp bus addr h mode) := by
  simp only [exec, execBeginInst]
  cases e : validGeometry s.cfg.fbCapacity (sext32 w) (sext32 h) (sext32 addr) (sext32 vcc) with
  | none => exact .inl ⟨validGeometry_none.mp e, rfl⟩
  | some mode =>
    by_cases ht : TeardownAnswered s
    · obtain ⟨u, e', hu⟩ := State.teardownIfActive_some ht
      exact .inr (.inr ⟨mode, u, validGeometry_some.mp e, ht, hu, by rw [e']⟩)
    · exact .inr (.inl ⟨mode, validGeometry_some.mp e, ht, by rw [(State.teardownIfActive_none ht).1]⟩)

/-- Everything END can do (40_lifecycle R111). -/
theorem exec_end_cases (s : State) :
    (¬ TeardownAnswered s ∧ exec .endInst s = .fault .transferStalled) ∨
    (TeardownAnswered s ∧ ∃ u, TornDown s u ∧ exec .endInst s = .next (u.complete 1 .ok 0)) := by
  simp only [exec, execEndInst]
  by_cases ht : TeardownAnswered s
  · obtain ⟨u, e', hu⟩ := State.teardownIfActive_some ht
    exact .inr ⟨ht, u, hu, by rw [e']; rfl⟩
  · exact .inl ⟨ht, by rw [(State.teardownIfActive_none ht).1]⟩

/-- The state just before a command's response: the bus trace may have grown; FAULT, CP, the response trace, the configuration
and the host's inputs are as they were. -/
structure Before (s u : State) : Prop where
  cp : u.cp = s.cp
  faulted : u.faulted = s.faulted
  responses : u.responses = s.responses
  cfg : u.cfg = s.cfg
  host : u.host = s.host
  resetInput : u.resetInput = s.resetInput
  trace : ∃ events, u.busTrace = s.busTrace ++ events

theorem Before.refl (s : State) : Before s s := ⟨rfl, rfl, rfl, rfl, rfl, rfl, [], by simp⟩

theorem Before.trans {s t u : State} (h : Before s t) (g : Before t u) : Before s u := by
  obtain ⟨e, he⟩ := h.trace
  obtain ⟨f, hf⟩ := g.trace
  exact ⟨g.cp.trans h.cp, g.faulted.trans h.faulted, g.responses.trans h.responses, g.cfg.trans h.cfg, g.host.trans h.host,
    g.resetInput.trans h.resetInput, e ++ f, by rw [hf, he, List.append_assoc]⟩

theorem Bused.before {s t : State} {e : List BusEvent} {n : Nat} (h : Bused s t e n) : Before s t :=
  ⟨h.cp, h.faulted, h.responses, h.cfg, h.host, h.resetInput, e, h.busTrace⟩

theorem TornDown.before {s t : State} (h : TornDown s t) : Before s t := by
  rw [h.eq]; exact ⟨rfl, rfl, rfl, rfl, rfl, rfl, _, rfl⟩

theorem syncEffect_before (i : Instr) (s : State) : Before s (syncEffect i s) := by
  unfold syncEffect; split <;> exact ⟨rfl, rfl, rfl, rfl, rfl, rfl, [], by simp⟩

/-- Every command that completes ends in one response; GETWIDTH, GETHEIGHT and GETPIXEL alone give a RESULT other than 0. -/
theorem exec_next {i : Instr} {s t : State} (h : exec i s = .next t) :
    ∃ u st r, Before s u ∧ t = u.complete i.len st r ∧ st ≠ .illegalCommand ∧ (st ≠ .ok → r = 0) ∧
      (i ≠ .getWidth → i ≠ .getHeight → (∀ x y, i ≠ .getPixel x y) → r = 0) := by
  by_cases hl : IsLifecycle i
  · cases i <;> simp only [IsLifecycle] at hl
    case endInst =>
      rcases exec_end_cases s with ⟨-, e⟩ | ⟨-, u, hu, e⟩ <;> rw [e] at h <;> cases h
      exact ⟨u, .ok, 0, hu.before, rfl, by simp, by simp, fun _ _ _ => rfl⟩
    case beginInst bus addr w hh vcc =>
      rcases exec_begin_cases bus addr w hh vcc s with ⟨-, e⟩ | ⟨-, -, -, e⟩ | ⟨mode, u, -, -, hu, e⟩
      · rw [e] at h; cases h
        exact ⟨s, .invalidArgument, 0, Before.refl s, rfl, by simp, by simp, fun _ _ _ => rfl⟩
      · rw [e] at h; cases h
      · rw [e] at h
        have h0 : Before s (u.allocate bus addr w hh mode) := hu.before.trans ⟨rfl, rfl, rfl, rfl, rfl, rfl, [], by simp [State.allocate]⟩
        have h1 : ∀ b, Before (u.allocate bus addr w hh mode) { u.allocate bus addr w hh mode with busOpen := b } :=
          fun b => ⟨rfl, rfl, rfl, rfl, rfl, rfl, [], by simp⟩
        rcases State.bringUp_cases (u.allocate bus addr w hh mode) bus addr hh mode with
          ⟨-, v, e', b⟩ | ⟨r, -, v, e', b⟩ | ⟨j, p, r, -, -, -, -, v, e', b⟩ | ⟨j, -, -, -, e'⟩ <;> rw [e'] at h <;> cases h
        · exact ⟨v.activate mode, .ok, 0, (h0.trans (h1 true)).trans (b.before.trans ⟨rfl, rfl, rfl, rfl, rfl, rfl, [], by simp [State.activate]⟩),
            rfl, by simp, by simp, fun _ _ _ => rfl⟩
        · exact ⟨v.freeHandle, .ioError, 0, h0.trans (b.before.trans ⟨rfl, rfl, rfl, rfl, rfl, rfl, [], by simp⟩), rfl, by simp,
            by simp, fun _ _ _ => rfl⟩
        · exact ⟨v.release, .ioError, 0, (h0.trans (h1 true)).trans (b.before.trans ⟨rfl, rfl, rfl, rfl, rfl, rfl, [⟨.closeBus, .ok⟩], rfl⟩),
            rfl, by simp, by simp, fun _ _ _ => rfl⟩
  · rcases exec_cases (s := s) hl with ⟨-, e⟩ | ⟨-, -, d, r, e0, e⟩ | ⟨-, -, -, -, e⟩ | ⟨-, -, -, e⟩ | ⟨-, -, -, u, e, -, b⟩ |
      ⟨-, -, -, u, j, p, r, e, -, -, -, b⟩ | ⟨-, -, -, e, -⟩ <;> rw [e] at h <;> cases h
    · exact ⟨s, _, 0, Before.refl s, rfl, by simp, by simp, fun _ _ _ => rfl⟩
    · refine ⟨{ s with handle := d }, .ok, r, ⟨rfl, rfl, rfl, rfl, rfl, rfl, [], by simp⟩, rfl, by simp, by simp, ?_⟩
      intro h1 h2 h3
      cases i <;> simp only [offBus, Option.some.injEq, Prod.mk.injEq, Option.map_eq_some_iff, reduceCtorEq] at e0 <;>
        first | exact e0.2.symm | (obtain ⟨_, _, _, e⟩ := e0; exact e.symm) | exact absurd rfl h1 | exact absurd rfl h2 | exact absurd rfl (h3 _ _)
    · exact ⟨s, _, 0, Before.refl s, rfl, by simp, by simp, fun _ _ _ => rfl⟩
    · exact ⟨_, _, 0, b.before.trans (syncEffect_before i u), rfl, by simp, by simp, fun _ _ _ => rfl⟩
    · exact ⟨_, _, 0, b.before, rfl, by simp, by simp, fun _ _ _ => rfl⟩

end Sys2Proof.Machine
end

