-- ==== Sys2Proof/Laws/PerInstr.lean ====
section
/-! SUPPORT. Statements made of each instruction as syntax, one lemma for each constructor. -/

namespace Sys2Proof.Laws.EncodedHeader

/-- The first word of an encoded command holds the command's opcode and its two colour codes, and nothing in the reserved bits
(30_encoding R71, R73). -/
def Statement (i : Instr) : Prop :=
  ∃ h, (encode i).head? = some h ∧ headerOp h = i.opcode.row.code ∧ headerC h = i.fieldC.code ∧
    headerB h = i.fieldB.code ∧ headerRsv h = 0

/-- Shared by the lemmas below: the fields of a header are the fields it is made of (30_encoding R71). -/
theorem fields_encodeHeader (op : Byte) (c b : BitVec 2) :
    headerOp (encodeHeader op c b) = op ∧ headerC (encodeHeader op c b) = c ∧ headerB (encodeHeader op c b) = b ∧
      headerRsv (encodeHeader op c b) = 0 := by
  refine ⟨?_, ?_, ?_, ?_⟩ <;> apply BitVec.eq_of_getLsbD_eq <;> intro i hi <;>
    simp only [encodeHeader, headerOp, headerC, headerB, headerRsv, BitVec.getLsbD_or, BitVec.getLsbD_setWidth,
      BitVec.getLsbD_shiftLeft, BitVec.getLsbD_extractLsb']
  · have : i < 32 := by omega
    have : i < 10 := by omega
    simp [*]
  · have : i < 32 := by omega
    have : 8 + i < 32 := by omega
    have : 8 + i < 10 := by omega
    simp [*]
  · have : i < 32 := by omega
    have : 10 + i < 32 := by omega
    have : op.getLsbD (10 + i) = false := BitVec.getLsbD_of_ge op _ (by omega)
    have : c.getLsbD (10 + i - 8) = false := BitVec.getLsbD_of_ge c _ (by omega)
    simp [*]
  · have : op.getLsbD (12 + i) = false := BitVec.getLsbD_of_ge op _ (by omega)
    have : c.getLsbD (12 + i - 8) = false := BitVec.getLsbD_of_ge c _ (by omega)
    have : b.getLsbD (12 + i - 10) = false := BitVec.getLsbD_of_ge b _ (by omega)
    simp [*]

theorem of_fields (i : Instr) : Statement i :=
  ⟨_, rfl, fields_encodeHeader i.opcode.row.code i.fieldC.code i.fieldB.code⟩

theorem beginInst (bus addr width height vcc : Word) : Statement (.beginInst bus addr width height vcc) :=
  of_fields _

theorem endInst : Statement (.endInst) :=
  of_fields _

theorem getWidth : Statement (.getWidth) :=
  of_fields _

theorem getHeight : Statement (.getHeight) :=
  of_fields _

theorem setPixel (c : Color) (x y : Word) : Statement (.setPixel c x y) :=
  of_fields _

theorem getPixel (x y : Word) : Statement (.getPixel x y) :=
  of_fields _

theorem clear : Statement (.clear) :=
  of_fields _

theorem drawLine (c : Color) (x0 y0 x1 y1 : Word) : Statement (.drawLine c x0 y0 x1 y1) :=
  of_fields _

theorem drawRect (c : Color) (x y w h : Word) : Statement (.drawRect c x y w h) :=
  of_fields _

theorem fillRect (c : Color) (x y w h : Word) : Statement (.fillRect c x y w h) :=
  of_fields _

theorem drawCircle (c : Color) (x0 y0 r : Word) : Statement (.drawCircle c x0 y0 r) :=
  of_fields _

theorem fillCircle (c : Color) (x0 y0 r : Word) : Statement (.fillCircle c x0 y0 r) :=
  of_fields _

theorem drawGlyph (c b : Color) (x y ch scale : Word) : Statement (.drawGlyph c b x y ch scale) :=
  of_fields _

theorem setCursor (x y : Word) : Statement (.setCursor x y) :=
  of_fields _

theorem setTextSize (size : Word) : Statement (.setTextSize size) :=
  of_fields _

theorem setTextColor (c b : Color) : Statement (.setTextColor c b) :=
  of_fields _

theorem print (n : Word) (payload : List Word) : Statement (.print n payload) :=
  of_fields _

theorem flush : Statement (.flush) :=
  of_fields _

theorem invert (flag : Word) : Statement (.invert flag) :=
  of_fields _

theorem dim (flag : Word) : Statement (.dim flag) :=
  of_fields _

theorem setContrast (v : Word) : Statement (.setContrast v) :=
  of_fields _

theorem scrollRight (start stop : Word) : Statement (.scrollRight start stop) :=
  of_fields _

theorem scrollLeft (start stop : Word) : Statement (.scrollLeft start stop) :=
  of_fields _

theorem scrollDiagRight (start stop : Word) : Statement (.scrollDiagRight start stop) :=
  of_fields _

theorem scrollDiagLeft (start stop : Word) : Statement (.scrollDiagLeft start stop) :=
  of_fields _

theorem stopScroll : Statement (.stopScroll) :=
  of_fields _

end Sys2Proof.Laws.EncodedHeader
end

