-- ==== Sys2Proof/Laws/Raster.lean ====
section
/-! SUPPORT. The loops of LineSet and CircleSet, said once: the invariant of the line loop, that its iterations suffice, and that
the listed points are the sets of spec/42_raster.md R151 and R155. -/

namespace Sys2Proof.Machine

/-! ## Lines -/

/-- After `a` steps along x and `b` along y of the loop of LineSet: its error term, and its bounds. -/
structure LineInv (dx dy a b err : Int) : Prop where
  err_eq : err = (b + 1) * dx - (a + 1) * dy
  wide : dy < dx → -dy < 2 * err ∧ 2 * err < 3 * dx - 2 * dy
  tall : dx < dy → 2 * err < dx ∧ 2 * dx - 3 * dy < 2 * err
  diag : dx = dy → err = 0 ∧ a = b

/-- The loop starts with the invariant. -/
theorem LineInv.start (dx dy : Int) (hx : 0 ≤ dx) (hy : 0 ≤ dy) : LineInv dx dy 0 0 (dx - dy) :=
  ⟨by ring, fun h => by omega, fun h => by omega, fun h => by omega⟩

/-- Every iteration keeps it, and advances the longer axis. -/
theorem LineInv.next {dx dy a b err : Int} (h : LineInv dx dy a b err) (hx : 0 ≤ dx) (hy : 0 ≤ dy) (hd : dx ≠ 0 ∨ dy ≠ 0) :
    LineInv dx dy (if 2 * err > -dy then a + 1 else a) (if 2 * err < dx then b + 1 else b)
      (err - (if 2 * err > -dy then dy else 0) + (if 2 * err < dx then dx else 0)) ∧
    (dy ≤ dx → 2 * err > -dy) ∧ (dx ≤ dy → 2 * err < dx) := by
  have t1 : dy ≤ dx → 2 * err > -dy := by
    intro hh
    by_cases e : dx = dy
    · have := h.diag e; omega
    · have := h.wide (by omega); omega
  have t2 : dx ≤ dy → 2 * err < dx := by
    intro hh
    by_cases e : dx = dy
    · have := h.diag e; omega
    · have := h.tall (by omega); omega
  refine ⟨⟨?_, ?_, ?_, ?_⟩, t1, t2⟩
  · rw [h.err_eq]; split_ifs <;> ring
  · intro hh
    have := h.wide hh
    rw [if_pos (t1 (by omega))]
    split_ifs <;> omega
  · intro hh
    have := h.tall hh
    rw [if_pos (t2 (by omega))]
    split_ifs <;> omega
  · intro hh
    have := h.diag hh
    rw [if_pos (t1 (by omega)), if_pos (t2 (by omega))]; omega

/-- Where the longer axis is done, so is the other. -/
theorem LineInv.finish {dx dy a b err : Int} (h : LineInv dx dy a b err) (hx : 0 ≤ dx) (hy : 0 ≤ dy) :
    (dy ≤ dx → a = dx → b = dy) ∧ (dx ≤ dy → b = dy → a = dx) := by
  constructor
  · rintro hh rfl
    rcases eq_or_lt_of_le hh with e | e
    · have := h.diag e.symm; omega
    · obtain ⟨h1, h2⟩ := h.wide e
      rw [h.err_eq] at h1 h2
      have pos : 0 < a := by omega
      have l1 : dy < b + 1 := by
        by_contra hc
        have : (b + 1) * a ≤ dy * a := mul_le_mul_of_nonneg_right (by omega) (by omega)
        nlinarith
      have l2 : b < dy + 1 := by
        by_contra hc
        have : (dy + 1 + 1) * a ≤ (b + 1) * a := mul_le_mul_of_nonneg_right (by omega) (by omega)
        nlinarith
      omega
  · rintro hh rfl
    rcases eq_or_lt_of_le hh with e | e
    · have := h.diag e; omega
    · obtain ⟨h1, h2⟩ := h.tall e
      rw [h.err_eq] at h1 h2
      have pos : 0 < b := by omega
      have l1 : dx < a + 1 := by
        by_contra hc
        have : (a + 1) * b ≤ dx * b := mul_le_mul_of_nonneg_right (by omega) (by omega)
        nlinarith
      have l2 : a < dx + 1 := by
        by_contra hc
        have : (dx + 1 + 1) * b ≤ (a + 1) * b := mul_le_mul_of_nonneg_right (by omega) (by omega)
        nlinarith
      omega

/-- The point that `a` steps along x and `b` along y reach. -/
structure LineAt (x0 y0 x1 y1 a b x y err : Int) : Prop where
  inv : LineInv |x1 - x0| |y1 - y0| a b err
  x_eq : x = x0 + a * (if x0 < x1 then 1 else -1)
  y_eq : y = y0 + b * (if y0 < y1 then 1 else -1)

/-- Which of the two counts every iteration advances. -/
def lineLead (x0 y0 x1 y1 a b : Int) : Int := if |y1 - y0| ≤ |x1 - x0| then a else b

/-- The loop is at its end exactly when the longer axis is done. -/
theorem LineAt.ends {x0 y0 x1 y1 a b x y err : Int} (h : LineAt x0 y0 x1 y1 a b x y err) :
    (x = x1 ∧ y = y1) ↔ lineLead x0 y0 x1 y1 a b = max |x1 - x0| |y1 - y0| := by
  have hx := abs_nonneg (x1 - x0)
  have hy := abs_nonneg (y1 - y0)
  have f := h.inv.finish hx hy
  have ex : x = x1 ↔ a = |x1 - x0| := by
    rw [h.x_eq]; split_ifs with c
    · rw [abs_of_nonneg (by omega)]; omega
    · rw [abs_of_nonpos (by omega)]; omega
  have ey : y = y1 ↔ b = |y1 - y0| := by
    rw [h.y_eq]; split_ifs with c
    · rw [abs_of_nonneg (by omega)]; omega
    · rw [abs_of_nonpos (by omega)]; omega
  rw [ex, ey]; unfold lineLead
  split_ifs with c
  · rw [max_eq_left c]
    exact ⟨fun h => h.1, fun h => ⟨h, f.1 c h⟩⟩
  · rw [max_eq_right (by omega)]
    exact ⟨fun h => h.2, fun h => ⟨f.2 (by omega) h, h⟩⟩

/-- One iteration. -/
theorem LineAt.next {x0 y0 x1 y1 a b x y err : Int} (h : LineAt x0 y0 x1 y1 a b x y err)
    (hm : 0 < max |x1 - x0| |y1 - y0|) :
    ∃ a' b', LineAt x0 y0 x1 y1 a' b'
        (if 2 * err > -|y1 - y0| then x + (if x0 < x1 then 1 else -1) else x)
        (if 2 * err < |x1 - x0| then y + (if y0 < y1 then 1 else -1) else y)
        (err - (if 2 * err > -|y1 - y0| then |y1 - y0| else 0) + (if 2 * err < |x1 - x0| then |x1 - x0| else 0)) ∧
      lineLead x0 y0 x1 y1 a' b' = lineLead x0 y0 x1 y1 a b + 1 ∧
      (if |y1 - y0| ≤ |x1 - x0| then 2 * err > -|y1 - y0| else 2 * err < |x1 - x0|) := by
  have hx := abs_nonneg (x1 - x0)
  have hy := abs_nonneg (y1 - y0)
  obtain ⟨n, t1, t2⟩ := h.inv.next hx hy (by omega)
  refine ⟨_, _, ⟨n, ?_, ?_⟩, ?_, ?_⟩
  · rw [h.x_eq]; split_ifs <;> ring
  · rw [h.y_eq]; split_ifs <;> ring
  · unfold lineLead
    split_ifs <;> first | rfl | (exfalso; omega)
  · split_ifs with hc
    · exact t1 hc
    · exact t2 (by omega)

/-- Every reached point has its step counts, within the longer axis. -/
theorem LineReach.at {x0 y0 x1 y1 x y err : Int} (h : LineReach x0 y0 x1 y1 x y err) :
    ∃ a b, LineAt x0 y0 x1 y1 a b x y err ∧ 0 ≤ lineLead x0 y0 x1 y1 a b ∧ lineLead x0 y0 x1 y1 a b ≤ max |x1 - x0| |y1 - y0| := by
  induction h with
  | start => exact ⟨0, 0, ⟨.start _ _ (abs_nonneg _) (abs_nonneg _), by ring, by ring⟩, by unfold lineLead; split <;> omega,
      by have := abs_nonneg (x1 - x0); unfold lineLead; split <;> omega⟩
  | next _ hne ih =>
    obtain ⟨a, b, h, l0, l1⟩ := ih
    rw [h.ends] at hne
    obtain ⟨a', b', h', l, -⟩ := h.next (by omega)
    exact ⟨a', b', h', by omega, by omega⟩

/-- The loop of LineSet, in the spec's own terms for its step. -/
abbrev lineLoopOf (x0 y0 x1 y1 : Int) : Nat → Int → Int → Int → List (Int × Int) :=
  lineLoop x1 y1 |x1 - x0| |y1 - y0| (if x0 < x1 then 1 else -1) (if y0 < y1 then 1 else -1)

/-- `linePoints` in the terms of LineReach. -/
theorem linePoints_eq (x0 y0 x1 y1 : Int) :
    linePoints x0 y0 x1 y1 = lineLoopOf x0 y0 x1 y1 ((max |x1 - x0| |y1 - y0|).toNat + 1) x0 y0 (|x1 - x0| - |y1 - y0|) := by
  unfold linePoints lineLoopOf
  simp only [Int.natCast_natAbs]

/-- Every reached point stands in the list, with as many iterations left as the longer axis still needs. -/
theorem LineReach.suffix {x0 y0 x1 y1 x y err : Int} (h : LineReach x0 y0 x1 y1 x y err) :
    ∃ a b pre, LineAt x0 y0 x1 y1 a b x y err ∧ 0 ≤ lineLead x0 y0 x1 y1 a b ∧
      lineLead x0 y0 x1 y1 a b ≤ max |x1 - x0| |y1 - y0| ∧
      linePoints x0 y0 x1 y1 = pre ++ lineLoopOf x0 y0 x1 y1
        ((max |x1 - x0| |y1 - y0| - lineLead x0 y0 x1 y1 a b).toNat + 1) x y err := by
  induction h with
  | start => 
    have l : lineLead x0 y0 x1 y1 0 0 = 0 := by unfold lineLead; split <;> rfl
    refine ⟨0, 0, [], ⟨.start _ _ (abs_nonneg _) (abs_nonneg _), by ring, by ring⟩, by omega, ?_, ?_⟩
    · have := abs_nonneg (x1 - x0); omega
    · rw [l, linePoints_eq]; simp
  | @next x y err _ hne ih =>
    obtain ⟨a, b, pre, h, l0, l1, e⟩ := ih
    have hne' := hne
    rw [h.ends] at hne'
    obtain ⟨a', b', h', l, -⟩ := h.next (by omega)
    refine ⟨a', b', pre ++ [(x, y)], h', by omega, by omega, ?_⟩
    rw [e, List.append_assoc]
    congr 1
    obtain ⟨f, hf⟩ : ∃ f : Nat, (max |x1 - x0| |y1 - y0| - lineLead x0 y0 x1 y1 a b).toNat = f + 1 :=
      ⟨(max |x1 - x0| |y1 - y0| - lineLead x0 y0 x1 y1 a b).toNat - 1, by omega⟩
    have hf' : (max |x1 - x0| |y1 - y0| - lineLead x0 y0 x1 y1 a' b').toNat = f := by omega
    rw [hf, hf']
    show lineLoop _ _ _ _ _ _ (f + 1 + 1) x y err = _
    rw [lineLoop, if_neg hne]
    rfl

/-- The loop visits reached points only. -/
theorem lineLoop_reach {x0 y0 x1 y1 : Int} (fuel : Nat) {x y err : Int} (h : LineReach x0 y0 x1 y1 x y err) :
    ∀ p ∈ lineLoopOf x0 y0 x1 y1 fuel x y err, LineSet x0 y0 x1 y1 p.1 p.2 := by
  induction fuel generalizing x y err with
  | zero => simp [lineLoopOf, lineLoop]
  | succ f ih =>
    intro p hp
    unfold lineLoopOf at hp
    rw [lineLoop] at hp
    rcases List.mem_cons.mp hp with rfl | hp
    · exact ⟨err, h⟩
    · split at hp
      · simp at hp
      · next hne => exact ih (h.next hne) p hp

/-- The points that the loop visits are LineSet (42_raster R151). -/
theorem mem_linePoints {x0 y0 x1 y1 px py : Int} : (px, py) ∈ linePoints x0 y0 x1 y1 ↔ LineSet x0 y0 x1 y1 px py := by
  constructor
  · intro h; rw [linePoints_eq] at h; exact lineLoop_reach _ .start _ h
  · rintro ⟨err, h⟩
    obtain ⟨a, b, pre, -, -, -, e⟩ := h.suffix
    rw [e]
    apply List.mem_append_right
    unfold lineLoopOf; rw [lineLoop]; exact List.mem_cons_self

/-! ## Circles -/

/-- Every reached step stands in the list, with iterations left while `x <= r`. -/
theorem CircleReach.suffix {r x y d : Int} (h : CircleReach r x y d) (x0 y0 : Int) :
    ∃ pre, y ≤ r ∧ circlePoints x0 y0 r = pre ++ circleLoop x0 y0 (r + 1 - x).toNat x y d := by
  induction h with
  | start => exact ⟨[], le_refl _, by simp [circlePoints]⟩
  | @inner x y d _ hxy hd ih =>
    obtain ⟨pre, hy, e⟩ := ih
    refine ⟨pre ++ octants x0 y0 x y, hy, ?_⟩
    obtain ⟨f, hf⟩ : ∃ f : Nat, (r + 1 - x).toNat = f + 1 := ⟨(r + 1 - x).toNat - 1, by omega⟩
    have hf' : (r + 1 - (x + 1)).toNat = f := by omega
    rw [e, hf, hf', List.append_assoc, circleLoop, if_pos hxy, if_pos hd]
  | @outer x y d _ hxy hd ih =>
    obtain ⟨pre, hy, e⟩ := ih
    refine ⟨pre ++ octants x0 y0 x y, by omega, ?_⟩
    obtain ⟨f, hf⟩ : ∃ f : Nat, (r + 1 - x).toNat = f + 1 := ⟨(r + 1 - x).toNat - 1, by omega⟩
    have hf' : (r + 1 - (x + 1)).toNat = f := by omega
    rw [e, hf, hf', List.append_assoc, circleLoop, if_pos hxy, if_neg hd]

/-- The loop plots octant points of reached steps only. -/
theorem mem_circleLoop {r x0 y0 : Int} (f : Nat) {x y d : Int} (h : CircleReach r x y d) :
    ∀ p ∈ circleLoop x0 y0 f x y d, CircleSet x0 y0 r p.1 p.2 := by
  induction f generalizing x y d with
  | zero => simp [circleLoop]
  | succ f ih =>
    intro p hp
    rw [circleLoop] at hp
    split at hp
    · next hxy =>
      rcases List.mem_append.mp hp with hp | hp
      · refine ⟨x, y, d, h, hxy, ?_⟩
        simp only [octants, List.mem_cons, List.not_mem_nil, or_false] at hp
        rcases hp with rfl | rfl | rfl | rfl | rfl | rfl | rfl | rfl <;> simp
      · split at hp
        · next hd => exact ih (h.inner hxy hd) p hp
        · next hd => exact ih (h.outer hxy hd) p hp
    · simp at hp

/-- The points that the loop plots are CircleSet (42_raster R155). -/
theorem mem_circlePoints {x0 y0 r px py : Int} : (px, py) ∈ circlePoints x0 y0 r ↔ CircleSet x0 y0 r px py := by
  constructor
  · exact fun h => mem_circleLoop _ .start _ h
  · rintro ⟨x, y, d, h, hxy, hp⟩
    obtain ⟨pre, hy, e⟩ := h.suffix x0 y0
    obtain ⟨f, hf⟩ : ∃ f : Nat, (r + 1 - x).toNat = f + 1 := ⟨(r + 1 - x).toNat - 1, by omega⟩
    rw [e, hf, circleLoop, if_pos hxy]
    apply List.mem_append_right
    apply List.mem_append_left
    simpa [octants] using hp

/-- CircleSet by absolute offsets from the centre: the eight octants at once (42_raster R155). -/
theorem circleSet_abs {x0 y0 r dx dy : Int} : CircleSet x0 y0 r (x0 + dx) (y0 + dy) ↔
    ∃ x y d, CircleReach r x y d ∧ x ≤ y ∧ ((|dx| = |x| ∧ |dy| = |y|) ∨ (|dx| = |y| ∧ |dy| = |x|)) := by
  unfold CircleSet
  refine exists_congr fun x => exists_congr fun y => exists_congr fun d => and_congr_right fun _ => and_congr_right fun _ => ?_
  simp only [sub_eq_add_neg, add_right_inj, abs_eq_abs]
  generalize (dx = x) = a1
  generalize (dx = -x) = a2
  generalize (dy = y) = a3
  generalize (dy = -y) = a4
  generalize (dx = y) = a5
  generalize (dx = -y) = a6
  generalize (dy = x) = a7
  generalize (dy = -x) = a8
  constructor
  · rintro (⟨h1, h2⟩ | ⟨h1, h2⟩ | ⟨h1, h2⟩ | ⟨h1, h2⟩ | ⟨h1, h2⟩ | ⟨h1, h2⟩ | ⟨h1, h2⟩ | ⟨h1, h2⟩) <;> simp [h1, h2]
  · rintro (⟨h1 | h1, h2 | h2⟩ | ⟨h1 | h1, h2 | h2⟩) <;> simp [h1, h2]

end Sys2Proof.Machine
end

