-- ==== Sys2Proof/Laws/Step.lean ====
section
/-! SUPPORT. What a step can do, said once: it serves the reset input, or faults on an illegal header, or runs the command at CP. -/

namespace Sys2Proof.Machine

/-- Without a reset and a fault, a step is what the fetch finds (30_encoding R70). -/
theorem step_fetch {s : State} (h : s.resetInput = none) (h2 : s.faulted = false) : step s =
    match s.fetch with
    | .run i s' => exec i s'
    | .illegal hdr => .next (s.illegalHeader hdr)
    | .waiting => .fault .streamIncomplete
    | .interleaved => .refused .hostInterleave := by
  unfold step; rw [h]; simp only [h2, Bool.false_eq_true, if_false]
  all_goals (cases s.fetch <;> rfl)

/-- Decoding an illegal header reads no operand (30_encoding R78). -/
theorem decode_illegal {h : Word} {xs : List Word} {w : Illegal} :
    decode (h :: xs) = .illegal w ↔ decodeHeader h = .error w := by
  have hop : ∀ hd, decodeOperands hd xs ≠ .illegal w := by
    intro hd
    obtain ⟨o, c, b⟩ := hd
    cases o <;> simp only [decodeOperands] <;>
      first
      | (unfold operandsPrint; split <;> [split <;> simp; simp])
      | (unfold operands5; split <;> simp)
      | (unfold operands4; split <;> simp)
      | (unfold operands3; split <;> simp)
      | (unfold operands2; split <;> simp)
      | (unfold operands1; split <;> simp)
      | simp [operands0]
  simp only [decode]
  cases decodeHeader h with
  | error w' => simp
  | ok hd => simp [hop hd]

/-- What the fetch finds, read backwards. -/
theorem fetch_run {s u : State} {i : Instr} (h : s.fetch = .run i u) :
    ∃ hdr xs rest, s.host.words.drop s.cp = hdr :: xs ∧ decode (hdr :: xs) = .command i rest ∧
      s.host.interleavedBelow (s.cp + i.len) = false ∧
      u = { s with latch := s.latch.load hdr (xs.take i.opcode.row.nops) } := by
  unfold State.fetch at h
  split at h
  · cases h
  · split at h
    · cases h
    · next hdr xs hd =>
      split at h
      · cases h
      · split at h <;> cases h
      · next j rest e =>
        split at h
        · cases h
        · next hi => cases h; exact ⟨hdr, xs, rest, hd, e, by simpa using hi, rfl⟩

theorem fetch_illegal {s : State} {hdr : Word} (h : s.fetch = .illegal hdr) :
    ∃ xs w, s.host.words.drop s.cp = hdr :: xs ∧ decodeHeader hdr = .error w := by
  unfold State.fetch at h
  split at h
  · cases h
  · split at h
    · cases h
    · next hdr' xs hd =>
      split at h
      · next w e => cases h; exact ⟨xs, w, hd, decode_illegal.mp e⟩
      · split at h <;> cases h
      · split at h <;> cases h

/-- Everything a step to a next state can be. -/
theorem step_cases {s t : State} (h : step s = .next t) :
    (∃ hs u, s.resetInput = some hs ∧ TeardownAnswered s ∧ TornDown s u ∧
      t = { u.freeHandle.freeLatch with
        cp := 0, faulted := false, active := false, busOpen := false, status := .ok, result := 0,
        host := hs, resetInput := none }) ∨
    (s.resetInput = none ∧ s.faulted = false ∧ ∃ hdr xs w, s.host.words.drop s.cp = hdr :: xs ∧
      decodeHeader hdr = .error w ∧ t = s.illegalHeader hdr) ∨
    (s.resetInput = none ∧ s.faulted = false ∧ ∃ i l, s.fetch = .run i { s with latch := l } ∧
      exec i { s with latch := l } = .next t) := by
  have hri : (∃ hs, s.resetInput = some hs) ∨ s.resetInput = none := by cases s.resetInput <;> simp
  have hfa : s.faulted = true ∨ s.faulted = false := by cases s.faulted <;> simp
  rcases hri with ⟨hs, e⟩ | e
  · unfold step at h
    rw [e] at h
    unfold State.takeReset at h
    by_cases ht : TeardownAnswered s
    · obtain ⟨u, e', hu⟩ := State.teardownIfActive_some ht
      rw [e'] at h
      cases h
      exact .inl ⟨hs, u, e, ht, hu, rfl⟩
    · rw [(State.teardownIfActive_none ht).1] at h
      cases h
  · rcases hfa with hf | hf
    · unfold step at h; rw [e] at h; simp [hf] at h
    · rw [step_fetch e hf] at h
      rcases he : s.fetch with ⟨i, u⟩ | hdr | _ | _ <;> rw [he] at h
      · obtain ⟨hdr, xs, rest, -, -, -, rfl⟩ := fetch_run he
        exact .inr (.inr ⟨e, hf, i, _, rfl, h⟩)
      · cases h
        obtain ⟨xs, w, hd, hw⟩ := fetch_illegal he
        exact .inr (.inl ⟨e, hf, hdr, xs, w, hd, hw, rfl⟩)
      · cases h
      · cases h

end Sys2Proof.Machine
end

