-- ==== Sys2Proof/Laws/Text.lean ====
section
/-! SUPPORT. Glyph cells and text, said once: what DrawChar draws (43_glyph_text R181, R182), what the cursor operations do, and
what the loop of PRINT leaves alone (R189). -/

namespace Sys2Proof.Machine

/-! ## Glyph cells -/

/-- The glyph bit of a pixel of the cell decides which of the two sets it is in (43_glyph_text R181). -/
theorem glyphPixels_iff {bit : Bool} {rom : GlyphRom} {x y : Int} {ch s : Nat} {px py : Int} :
    GlyphPixels bit rom x y ch s px py ↔
      (x ≤ px ∧ px < x + 5 * s ∧ y ≤ py ∧ py < y + 8 * s) ∧ glyphBit rom x y ch s (px, py) = bit := by
  constructor
  · rintro ⟨i, j, u, v, hi, hj, hb, hu, hv, rfl, rfl⟩
    have e1 : (x + i * s + u - x).toNat = s * i + u := by
      rw [show x + i * s + u - x = ((s * i + u : Nat) : Int) by push_cast; ring]; rfl
    have e2 : (y + j * s + v - y).toNat = s * j + v := by
      rw [show y + j * s + v - y = ((s * j + v : Nat) : Int) by push_cast; ring]; rfl
    have d1 : (s * i + u) / s = i := by
      rw [Nat.mul_add_div (by omega), Nat.div_eq_of_lt hu, Nat.add_zero]
    have d2 : (s * j + v) / s = j := by
      rw [Nat.mul_add_div (by omega), Nat.div_eq_of_lt hv, Nat.add_zero]
    refine ⟨?_, ?_⟩
    · have hi' : (i : Int) * s ≤ 4 * s := by exact_mod_cast Nat.mul_le_mul_right s hi
      have hj' : (j : Int) * s ≤ 7 * s := by exact_mod_cast Nat.mul_le_mul_right s hj
      have : 0 ≤ (i : Int) * s := by positivity
      have : 0 ≤ (j : Int) * s := by positivity
      omega
    · simp only [glyphBit, e1, e2, d1, d2]; exact hb
  · rintro ⟨⟨h1, h2, h3, h4⟩, hb⟩
    have hpos : 0 < s := by omega
    have a1 := Nat.div_add_mod (px - x).toNat s
    have a2 := Nat.div_add_mod (py - y).toNat s
    have b1 := Nat.mod_lt (px - x).toNat hpos
    have b2 := Nat.mod_lt (py - y).toNat hpos
    have c1 : (px - x).toNat / s < 5 := (Nat.div_lt_iff_lt_mul hpos).mpr (by omega)
    have c2 : (py - y).toNat / s < 8 := (Nat.div_lt_iff_lt_mul hpos).mpr (by omega)
    refine ⟨(px - x).toNat / s, (py - y).toNat / s, (px - x).toNat % s, (py - y).toNat % s, by omega, by omega, hb, b1, b2, ?_, ?_⟩
    · have : ((s * ((px - x).toNat / s) + (px - x).toNat % s : Nat) : Int) = px - x := by rw [a1]; omega
      push_cast at this
      rw [mul_comm (((px - x).toNat / s : Nat) : Int)]
      push_cast
      omega
    · have : ((s * ((py - y).toNat / s) + (py - y).toNat % s : Nat) : Int) = py - y := by rw [a2]; omega
      push_cast at this
      rw [mul_comm (((py - y).toNat / s : Nat) : Int)]
      push_cast
      omega

theorem DisplayHandle.glyphFg_drawn {d : DisplayHandle} {rom : GlyphRom} {x y : Int} {ch s : Nat} (c : Color)
    (hw : d.fb.wf) : Drawn d (d.apply (d.glyphFg rom x y ch s) c) (GlyphPixels true rom x y ch s) c :=
  DisplayHandle.window_drawn c hw fun px py => by rw [glyphPixels_iff]

theorem DisplayHandle.glyphBg_drawn {d : DisplayHandle} {rom : GlyphRom} {x y : Int} {ch s : Nat} (c : Color)
    (hw : d.fb.wf) : Drawn d (d.apply (d.glyphBg rom x y ch s) c) (GlyphPixels false rom x y ch s) c :=
  DisplayHandle.window_drawn (q := fun p => !glyphBit rom x y ch s p) c hw fun px py => by
    rw [glyphPixels_iff]; simp

/-- `DrawChar` is the drawing of the spec (43_glyph_text R182). -/
theorem DisplayHandle.drawChar_draws {d : DisplayHandle} {rom : GlyphRom} {x y : Int} {ch s : Nat} {c b : Color}
    (hw : d.fb.wf) : DrawsChar rom d (d.drawChar rom x y ch c b s) x y ch c b s := by
  have h := d.glyphFg_drawn (rom := rom) (x := x) (y := y) (ch := ch) (s := s) c hw
  refine ⟨_, h, fun e => ?_, fun e => ?_⟩
  · simp only [DisplayHandle.drawChar, if_pos e]
  · simp only [DisplayHandle.drawChar, if_neg e]
    exact DisplayHandle.glyphBg_drawn b h.wf

theorem DisplayHandle.registers_trans {d d1 d2 : DisplayHandle} (h : d1 = { d with fb := d1.fb })
    (g : d2 = { d1 with fb := d2.fb }) : d2 = { d with fb := d2.fb } :=
  g.trans (by rw [h])

theorem DisplayHandle.drawChar_registers (d : DisplayHandle) (rom : GlyphRom) (x y : Int) (ch : Nat) (c b : Color) (s : Nat) :
    d.drawChar rom x y ch c b s = { d with fb := (d.drawChar rom x y ch c b s).fb } := by
  simp only [DisplayHandle.drawChar]
  split
  · exact d.apply_registers _ _
  · exact DisplayHandle.registers_trans (d.apply_registers _ _) (DisplayHandle.apply_registers _ _ _)

theorem DisplayHandle.drawChar_wf {d : DisplayHandle} (rom : GlyphRom) (x y : Int) (ch : Nat) (c b : Color) (s : Nat)
    (hw : d.fb.wf) : (d.drawChar rom x y ch c b s).fb.wf := by
  simp only [DisplayHandle.drawChar]
  split
  · exact DisplayHandle.apply_wf _ _ hw
  · exact DisplayHandle.apply_wf _ _ (DisplayHandle.apply_wf _ _ hw)

theorem DisplayHandle.drawChar_addr {d : DisplayHandle} (rom : GlyphRom) (x y : Int) (ch : Nat) (c b : Color) (s : Nat)
    (h8 : d.height % 8 = 0) (h : ∀ p ∈ d.fb, p.1 < d.fbSize) : ∀ p ∈ (d.drawChar rom x y ch c b s).fb, p.1 < d.fbSize := by
  simp only [DisplayHandle.drawChar]
  have h1 := d.apply_addr (d.glyphFg rom x y ch s) c h8 h
  split
  · exact h1
  · have e := d.apply_registers (d.glyphFg rom x y ch s) c
    have hs : (d.apply (d.glyphFg rom x y ch s) c).fbSize = d.fbSize := by rw [e]; rfl
    have := DisplayHandle.apply_addr (d := d.apply (d.glyphFg rom x y ch s) c)
      ((d.apply (d.glyphFg rom x y ch s) c).glyphBg rom x y ch s) b (by rw [e]; exact h8) (by rw [hs]; exact h1)
    rw [hs] at this
    exact this

/-! ## The cursor -/

/-- `Cur(v)` is `v` in its range, else nothing (43_glyph_text R189, R190). -/
theorem cur_some {v : Int} {w : Word} : cur v = some w ↔ InCursorRange v ∧ w.toInt = v := by
  unfold cur InCursorRange
  split
  · next h =>
    rw [Option.some.injEq]
    have hv : (BitVec.ofInt 32 v).toInt = v := by
      rw [BitVec.toInt_ofInt, Int.bmod_eq_of_le] <;> simp <;> omega
    constructor
    · rintro rfl; exact ⟨h, hv⟩
    · rintro ⟨-, e⟩; exact BitVec.eq_of_toInt_eq (hv.trans e.symm)
  · next h => simp [h]

theorem cur_none {v : Int} : cur v = none ↔ ¬ InCursorRange v := by
  unfold cur InCursorRange
  split <;> simp_all

theorem DisplayHandle.newLine_some {d d' : DisplayHandle} :
    d.newLine = some d' ↔ ∃ y : Word, InCursorRange (d.cursorY.toInt + 8 * d.textScale) ∧
      y.toInt = d.cursorY.toInt + 8 * d.textScale ∧ d' = { d with cursorX := 0, cursorY := y } := by
  unfold DisplayHandle.newLine sext32
  rw [Option.map_eq_some_iff]
  constructor
  · rintro ⟨y, h, rfl⟩; obtain ⟨h1, h2⟩ := cur_some.mp h; exact ⟨y, h1, h2, rfl⟩
  · rintro ⟨y, h1, h2, rfl⟩; exact ⟨y, cur_some.mpr ⟨h1, h2⟩, rfl⟩

/-- The wrap of PRINT is that of the spec (43_glyph_text R189). -/
theorem DisplayHandle.wrapFirst_some {d d' : DisplayHandle} : d.wrapFirst = some d' ↔ AfterWrap d d' := by
  unfold DisplayHandle.wrapFirst AfterWrap WrapNeeded sext32
  split
  · next h => rw [DisplayHandle.newLine_some]; simp [h.1, h.2]
  · next h =>
    simp only [Option.some.injEq]
    constructor
    · rintro rfl; exact .inr ⟨h, rfl⟩
    · rintro (⟨h', -⟩ | ⟨-, rfl⟩)
      · exact absurd h' h
      · rfl

theorem DisplayHandle.putChar_some {d d' : DisplayHandle} {rom : GlyphRom} {ch : Byte} :
    d.putChar rom ch = some d' ↔ ∃ x : Word, InCursorRange (d.cursorX.toInt + 6 * d.textScale) ∧
      x.toInt = d.cursorX.toInt + 6 * d.textScale ∧
      d' = { d.drawChar rom d.cursorX.toInt d.cursorY.toInt ch.toNat d.textColor d.textBg d.textScale with cursorX := x } := by
  unfold DisplayHandle.putChar sext32
  rw [Option.map_eq_some_iff]
  constructor
  · rintro ⟨y, h, rfl⟩; obtain ⟨h1, h2⟩ := cur_some.mp h; exact ⟨y, h1, h2, rfl⟩
  · rintro ⟨y, h1, h2, rfl⟩; exact ⟨y, cur_some.mpr ⟨h1, h2⟩, rfl⟩

/-! ## PRINT -/

/-- What each byte of PRINT's text can do, said once: `P` is kept by a cursor move and by a glyph, so by the whole loop. -/
theorem DisplayHandle.printBytes_induct {rom : GlyphRom} {P : DisplayHandle → Prop}
    (cursor : ∀ (d : DisplayHandle) (x y : Word), P d → P { d with cursorX := x, cursorY := y })
    (glyph : ∀ (d : DisplayHandle) (ch : Nat), P d →
      P (d.drawChar rom d.cursorX.toInt d.cursorY.toInt ch d.textColor d.textBg d.textScale))
    {text : List Byte} {d d' : DisplayHandle} (h : d.printBytes rom text = some d') (hp : P d) : P d' := by
  induction text generalizing d with
  | nil => cases h; exact hp
  | cons ch rest ih =>
    simp only [DisplayHandle.printBytes] at h
    split at h
    · split at h
      · cases h
      · next d1 e =>
        obtain ⟨y, -, -, rfl⟩ := DisplayHandle.newLine_some.mp e
        exact ih h (cursor d 0 y hp)
    · split at h
      · exact ih h (cursor d 0 d.cursorY hp)
      · split at h
        · cases h
        · next d1 e =>
          have h1 : P d1 := by
            rcases DisplayHandle.wrapFirst_some.mp e with ⟨-, y, -, -, rfl⟩ | ⟨-, rfl⟩
            · exact cursor d 0 y hp
            · exact hp
          split at h
          · cases h; exact h1
          · split at h
            · cases h
            · next d2 e2 =>
              obtain ⟨x, -, -, rfl⟩ := DisplayHandle.putChar_some.mp e2
              exact ih h (cursor _ x _ (glyph d1 ch.toNat h1))

/-- PRINT writes the framebuffer and the cursor only (10_state R42). -/
theorem DisplayHandle.printBytes_registers {rom : GlyphRom} {text : List Byte} {d d' : DisplayHandle}
    (h : d.printBytes rom text = some d') :
    d' = { d with fb := d'.fb, cursorX := d'.cursorX, cursorY := d'.cursorY } := by
  refine DisplayHandle.printBytes_induct
    (P := fun d' => d' = { d with fb := d'.fb, cursorX := d'.cursorX, cursorY := d'.cursorY }) ?_ ?_ h rfl
  · intro e x y he; rw [he]
  · intro e ch he; rw [DisplayHandle.drawChar_registers, he]

theorem DisplayHandle.printBytes_wf {rom : GlyphRom} {text : List Byte} {d d' : DisplayHandle}
    (h : d.printBytes rom text = some d') (hw : d.fb.wf) : d'.fb.wf :=
  DisplayHandle.printBytes_induct (P := fun d => d.fb.wf) (fun _ _ _ hp => hp)
    (fun _ _ hp => DisplayHandle.drawChar_wf _ _ _ _ _ _ _ hp) h hw

/-- What the loop of PRINT does is what the spec's loop does (43_glyph_text R189). -/
theorem DisplayHandle.printBytes_prints {rom : GlyphRom} {text : List Byte} {d d' : DisplayHandle} (hw : d.fb.wf)
    (h : d.printBytes rom text = some d') : Prints rom d text d' := by
  induction text generalizing d with
  | nil => cases h; exact .finish _
  | cons ch rest ih =>
    simp only [DisplayHandle.printBytes] at h
    split at h
    · next e10 =>
      subst e10
      split at h
      · cases h
      · next d1 e =>
        obtain ⟨y, h1, h2, rfl⟩ := DisplayHandle.newLine_some.mp e
        exact .newline h1 h2 (ih (d := { d with cursorX := 0, cursorY := y }) hw h)
    · next e10 =>
      split at h
      · next e13 => subst e13; exact .carriageReturn (ih (d := { d with cursorX := 0 }) hw h)
      · next e13 =>
        split at h
        · cases h
        · next d1 e =>
          have a := DisplayHandle.wrapFirst_some.mp e
          have hw1 : d1.fb.wf := by
            rcases a with ⟨-, y, -, -, rfl⟩ | ⟨-, rfl⟩ <;> exact hw
          split at h
          · next hy => cases h; exact .stop e10 e13 a hy
          · next hy =>
            split at h
            · cases h
            · next d2 e2 =>
              obtain ⟨x, h1, h2, rfl⟩ := DisplayHandle.putChar_some.mp e2
              exact .draw e10 e13 a hy (DisplayHandle.drawChar_draws hw1) h1 h2
                (ih (d := { d1.drawChar rom d1.cursorX.toInt d1.cursorY.toInt ch.toNat d1.textColor d1.textBg d1.textScale with cursorX := x })
                  (DisplayHandle.drawChar_wf _ _ _ _ _ _ _ hw1) h)

end Sys2Proof.Machine
end

