-- ==== Sys2Proof/Machine/Assembler.lean ====
section
/-! DEFINITION. The assembly syntax of a command stream (spec/30_encoding.md R82) and the pseudo-commands (R83), as a function
from text to words. It is notation for streams: no step reads it. What the syntax leaves open is in log 20. -/

namespace Sys2Proof.Asm

/-! ## Characters and numbers -/

/-- The single quote. -/
def tick : Char := Char.ofNat 39

/-- The double quote. -/
def quote : Char := Char.ofNat 34

/-- The backslash. -/
def backslash : Char := Char.ofNat 92

/-- Text without the spaces around it. -/
def trim (cs : List Char) : List Char :=
  ((cs.dropWhile fun c => c = ' ').reverse.dropWhile fun c => c = ' ').reverse

/-- The parts of a text between the characters `sep`. -/
def splitAt (sep : Char) : List Char → List (List Char)
  | [] => [[]]
  | c :: cs =>
    if c = sep then [] :: splitAt sep cs
    else
      match splitAt sep cs with
      | p :: ps => (c :: p) :: ps
      | [] => [[c]]

/-- The value of a digit in base 16. -/
def digit (c : Char) : Option Nat :=
  let n := c.toNat
  if 48 ≤ n ∧ n ≤ 57 then some (n - 48)
  else if 97 ≤ n ∧ n ≤ 102 then some (n - 87)
  else if 65 ≤ n ∧ n ≤ 70 then some (n - 55)
  else none

/-- The digits `cs` in a base, after the value `acc`. -/
def digits (base : Nat) : Nat → List Char → Option Nat
  | acc, [] => some acc
  | acc, c :: cs =>
    match digit c with
    | some d => if d < base then digits base (acc * base + d) cs else none
    | none => none

/-- An unsigned number: decimal or `0x` hexadecimal (R82). -/
def unsigned : List Char → Option Nat
  | [] => none
  | '0' :: 'x' :: c :: cs => digits 16 0 (c :: cs)
  | c :: cs => digits 10 0 (c :: cs)

/-- An operand: a number, a negative number, or a character in single quotes, as the word that holds it (R72, R82). -/
def operand (cs : List Char) : Option Word :=
  match cs with
  | '-' :: rest =>
    match unsigned rest with
    | some n => if n ≤ 2147483648 then some (BitVec.ofInt 32 (-(n : Int))) else none
    | none => none
  | _ =>
    if cs.length = 3 ∧ cs.head? = some tick ∧ cs.getLast? = some tick then
      (cs[1]?).map fun c => BitVec.ofNat 32 c.toNat
    else
      match unsigned cs with
      | some n => if n < 4294967296 then some (BitVec.ofNat 32 n) else none
      | none => none

/-- The operands of a line, split at the commas that are not inside a character literal; `k` characters of one are still to
come. -/
def splitOperands : Nat → List Char → List (List Char)
  | _, [] => [[]]
  | 0, c :: cs =>
    if c = ',' then [] :: splitOperands 0 cs
    else
      match splitOperands (if c = tick then 2 else 0) cs with
      | p :: ps => (c :: p) :: ps
      | [] => [[c]]
  | k + 1, c :: cs =>
    match splitOperands k cs with
    | p :: ps => (c :: p) :: ps
    | [] => [[c]]

/-- The operand list of a line (R82). -/
def operandList (cs : List Char) : Option (List Word) :=
  if trim cs = [] then some [] else (splitOperands 0 cs).mapM fun o => operand (trim o)

/-! ## Mnemonics and colours -/

/-- The mnemonic of an opcode (R74). -/
def mnemonic : Opcode → String
  | .beginInst => "BEGIN" | .endInst => "END" | .getWidth => "GETWIDTH" | .getHeight => "GETHEIGHT"
  | .setPixel => "SETPIXEL" | .getPixel => "GETPIXEL" | .clear => "CLEAR"
  | .drawLine => "DRAWLINE" | .drawRect => "DRAWRECT" | .fillRect => "FILLRECT"
  | .drawCircle => "DRAWCIRCLE" | .fillCircle => "FILLCIRCLE"
  | .drawGlyph => "DRAWGLYPH" | .setCursor => "SETCURSOR" | .setTextSize => "SETTEXTSIZE"
  | .setTextColor => "SETTEXTCOLOR" | .print => "PRINT"
  | .flush => "FLUSH" | .invert => "INVERT" | .dim => "DIM" | .setContrast => "SETCONTRAST"
  | .scrollRight => "SCROLLRIGHT" | .scrollLeft => "SCROLLLEFT"
  | .scrollDiagRight => "SCROLLDIAGRIGHT" | .scrollDiagLeft => "SCROLLDIAGLEFT" | .stopScroll => "STOPSCROLL"

/-- A colour field (R82). -/
def color (cs : List Char) : Option Color :=
  if cs = "off".toList then some .off
  else if cs = "on".toList then some .on
  else if cs = "inv".toList then some .inverse
  else none

/-- The colour fields that an opcode takes, exactly those it uses (R75, R82). -/
def colors (row : OpRow) (fields : List (List Char)) : Option (Color × Color) :=
  match row.usesC, row.usesB, fields with
  | false, false, [] => some (.off, .off)
  | true, false, [c] => (color c).map fun c => (c, .off)
  | true, true, [c, b] =>
    match color c, color b with
    | some c, some b => some (c, b)
    | _, _ => none
  | _, _, _ => none

/-! ## PRINT's string -/

/-- The bytes of a double-quoted string after its opening quote, and the text after its closing one (R82). -/
def stringBytes : List Char → Option (List Byte × List Char)
  | [] => none
  | c :: cs =>
    if c = quote then some ([], cs)
    else if c = backslash then
      match cs with
      | [] => none
      | e :: cs' =>
        if e = 'n' then (stringBytes cs').map fun r => (10 :: r.1, r.2)
        else if e = 'r' then (stringBytes cs').map fun r => (13 :: r.1, r.2)
        else if e = backslash then (stringBytes cs').map fun r => (92 :: r.1, r.2)
        else if e = 'x' then
          match cs' with
          | h :: l :: cs'' =>
            match digits 16 0 [h, l] with
            | some v => (stringBytes cs'').map fun r => (BitVec.ofNat 8 v :: r.1, r.2)
            | none => none
          | _ => none
        else none
    else if c.toNat < 128 then (stringBytes cs).map fun r => (BitVec.ofNat 8 c.toNat :: r.1, r.2)
    else none

/-- Bytes packed least significant byte first, the last word padded with zeros (R76). -/
def packBytes : List Byte → List Word
  | b0 :: b1 :: b2 :: b3 :: rest => bytesWord b0 b1 b2 b3 :: packBytes rest
  | [b0, b1, b2] => [bytesWord b0 b1 b2 0]
  | [b0, b1] => [bytesWord b0 b1 0 0]
  | [b0] => [bytesWord b0 0 0 0]
  | [] => []

/-- PRINT of a string: `n` is its byte length (R82). -/
def printOf (bytes : List Byte) : Instr := .print (BitVec.ofNat 32 bytes.length) (packBytes bytes)

/-! ## Lines -/

/-- A command with its colours and operands, for every opcode but PRINT: the operand words must be exactly as many as R74
gives. -/
def command (op : Opcode) (fields : List (List Char)) (rest : List Char) : Option Instr :=
  match colors op.row fields, operandList rest with
  | some (c, b), some ws =>
    match decodeOperands ⟨op, c, b⟩ ws with
    | .command i [] => some i
    | _ => none
  | _, _ => none

/-- The pseudo-commands (R83); none for any other mnemonic. -/
def pseudo (name : List Char) (fields : List (List Char)) (rest : List Char) : Option Instr :=
  match fields, operandList rest with
  | [c], some [] => if name = "TEXTCOLOR".toList then (color c).map fun c => Instr.textColor c else none
  | [], some [] => if name = "DISPLAY".toList then some Instr.display else none
  | [c], some [x, y, v] =>
    if name = "HLINE".toList then (color c).map fun c => Instr.hLine c x y v
    else if name = "VLINE".toList then (color c).map fun c => Instr.vLine c x y v
    else none
  | _, _ => none

/-- One line: `MNEMONIC[.c[.b]] operand, operand, ...` (R82), or a pseudo-command (R83). -/
def line (cs : List Char) : Option Instr :=
  let cs := trim cs
  let head := cs.takeWhile fun c => c ≠ ' '
  let rest := trim (cs.dropWhile fun c => c ≠ ' ')
  match splitAt '.' head with
  | [] => none
  | name :: fields =>
    match Opcode.all.find? fun o => (mnemonic o).toList = name with
    | some .print =>
      match fields, rest with
      | [], q :: body =>
        if q = quote then
          match stringBytes body with
          | some (bytes, []) => some (printOf bytes)
          | _ => none
        else none
      | _, _ => none
    | some op => command op fields rest
    | none => pseudo name fields rest

/-- The commands of a text, one to a line; a line of spaces holds none. -/
def commands (text : List Char) : Option (List Instr) :=
  ((splitAt (Char.ofNat 10) text).filter fun l => trim l ≠ []).mapM line

/-- The words of a text (R82, R74). -/
def assemble (text : String) : Option (List Word) :=
  (commands text.toList).map fun is => is.flatMap encode

end Sys2Proof.Asm
end

