-- ==== Sys2Proof/Tests/Slice0.lean ====
section
/-! SUPPORT. Tests, and witnesses. Expected values come from spec/95_test_vectors.md, whose vector each test names, or from the
encoding rules by hand. After the tests, for each obligation with hypotheses, a state and operands that meet them. -/

namespace Sys2Proof.Tests

open Sys2Proof.Machine

-- The kernel's evaluations run one after another, so that they share one stack.
set_option Elab.async false

/-! ## Helpers -/

/-- `GLYPH_T(c, i) = (c + i) mod 256` (95_test_vectors, conventions). -/
def glyphT : GlyphRom := Vector.ofFn fun k : Fin 475 => BitVec.ofNat 8 (32 + k.val / 5 + k.val % 5)

/-- The configuration of the vectors. -/
def cfgT : Config where
  fbCapacity := none
  glyph := glyphT
  cmd := {}

/-- A fresh instance, internal power mode. -/
def fresh (w h : Nat) : DisplayHandle where
  width := w
  height := h
  vcc := .internal
  busId := 1
  devAddr := 0x3C
  fb := []
  contrast := 0xCF
  cursorX := 0
  cursorY := 0
  textScale := 1
  textColor := .on
  textBg := .on
  wrap := true

/-- A block after reset, with the environment's coming answers. -/
def cold (answers : List BusAnswer) : State := { State.reset with cfg := cfgT, answers := answers }

/-- A block with a fresh instance and the environment's coming answers. -/
def live (w h : Nat) (answers : List BusAnswer) : State :=
  { cold answers with active := true, busOpen := true, handle := fresh w h, busTrace := [⟨.openBus 1, .ok⟩] }

/-- `n` answers Ok. -/
def oks (n : Nat) : List BusAnswer := List.replicate n .ok

/-- A fresh 128×64 instance whose framebuffer holds `m`. -/
def drawnOn (m : Memory) : State := { live 128 64 [] with handle := { fresh 128 64 with fb := m } }

/-- The words that the host has written, from word 0. -/
def withWords (s : State) (ws : List Word) : State := { s with host := { words := ws, interleaveAt := none } }

/-- A next state of which `p` holds. -/
def check (r : Result) (p : State → Bool) : Bool :=
  match r with
  | .next t => p t
  | .fault _ => false
  | .refused _ => false

/-- The bytes of the command frames after the first entry of the trace. -/
def sent (t : State) : List Byte :=
  t.busTrace.filterMap fun e =>
    match e.prim with
    | .cmdFrame b => some b
    | _ => none

theorem next_of_check {r : Result} {p : State → Bool} (h : check r p = true) : ∃ t, r = .next t ∧ p t = true := by
  cases r with
  | next t => exact ⟨t, rfl, h⟩
  | fault f => cases h
  | refused f => cases h

/-- The refusal that an instruction or a step ends in. -/
def refusal (r : Result) : Option Refusal :=
  match r with
  | .next _ => none
  | .fault _ => none
  | .refused f => some f

theorem refused_of {r : Result} {f : Refusal} (h : refusal r = some f) : r = .refused f := by
  cases r with
  | next t => cases h
  | fault g => cases h
  | refused g => exact congrArg _ (Option.some.inj h)

/-! ## Well-formedness -/

theorem test_wf_refuses_short_payload : (Instr.print 9 [0, 0]).wf = false := by decide
theorem test_wf_refuses_long_payload : (Instr.print 0 [0]).wf = false := by decide
theorem test_wf_takes_exact_payload : (Instr.print 9 [0, 0, 0]).wf = true ∧ (Instr.print 0 []).wf = true := by decide

/-! ## Decoding: words written out from 30_encoding R71 and R74 -/

theorem test_decode_lifecycle :
    decode [0x00000001, 1, 0x3C, 128, 64, 2] = .command (.beginInst 1 0x3C 128 64 2) [] ∧
    decode [0x00000002] = .command .endInst [] ∧ decode [0x00000003] = .command .getWidth [] ∧
    decode [0x00000004] = .command .getHeight [] := by decide

theorem test_decode_pixel :
    decode [0x00000110, 3, 10] = .command (.setPixel .on 3 10) [] ∧
    decode [0x00000011, 3, 10, 7] = .command (.getPixel 3 10) [7] ∧ decode [0x00000012] = .command .clear [] := by decide

theorem test_decode_raster :
    decode [0x00000220, 1, 2, 3, 4] = .command (.drawLine .inverse 1 2 3 4) [] ∧
    decode [0x00000121, 1, 2, 3, 4] = .command (.drawRect .on 1 2 3 4) [] ∧
    decode [0x00000022, 1, 2, 3, 4] = .command (.fillRect .off 1 2 3 4) [] ∧
    decode [0x00000123, 1, 2, 3] = .command (.drawCircle .on 1 2 3) [] ∧
    decode [0x00000224, 1, 2, 3] = .command (.fillCircle .inverse 1 2 3) [] := by decide

theorem test_decode_text :
    decode [0x00000930, 1, 2, 3, 4] = .command (.drawGlyph .on .inverse 1 2 3 4) [] ∧
    decode [0x00000031, 1, 2] = .command (.setCursor 1 2) [] ∧
    decode [0x00000032, 2] = .command (.setTextSize 2) [] ∧
    decode [0x00000433] = .command (.setTextColor .off .on) [] ∧
    decode [0x00000034, 4, 0x430A4241, 9] = .command (.print 4 [0x430A4241]) [9] := by decide

theorem test_decode_sync :
    decode [0x00000040] = .command .flush [] ∧ decode [0x00000041, 5] = .command (.invert 5) [] ∧
    decode [0x00000042, 1] = .command (.dim 1) [] ∧ decode [0x00000043, 255] = .command (.setContrast 255) [] ∧
    decode [0x00000044, 0, 7] = .command (.scrollRight 0 7) [] ∧ decode [0x00000045, 2, 3] = .command (.scrollLeft 2 3) [] ∧
    decode [0x00000046, 0, 7] = .command (.scrollDiagRight 0 7) [] ∧
    decode [0x00000047, 1, 2] = .command (.scrollDiagLeft 1 2) [] ∧ decode [0x00000048] = .command .stopScroll [] := by decide

/-- V-ENC-6 to V-ENC-14. -/
theorem test_decode_illegal :
    decode [0x00000000] = .illegal .unassignedOpcode ∧ decode [0x00000005] = .illegal .unassignedOpcode ∧
    decode [0x000000FF] = .illegal .unassignedOpcode ∧ decode [0x00000310, 0, 0] = .illegal .reservedColor ∧
    decode [0x00000140] = .illegal .unusedField ∧ decode [0x00000410, 0, 0] = .illegal .unusedField ∧
    decode [0x00001010, 0, 0] = .illegal .reservedBits ∧ decode [0x00000C30, 0, 0, 0, 0] = .illegal .reservedColor ∧
    decode [0x80000001, 0, 0, 0, 0, 0] = .illegal .reservedBits := by decide

theorem test_encode_words : encode (.drawGlyph .on .inverse 0 0 0x41 1) = [0x00000930, 0, 0, 0x41, 1] := by decide
theorem test_decode_bytes : decodeBytes [0x43, 0, 0, 0, 0x40, 0, 0, 0] = .command (.setContrast 0x40) [] := by decide
theorem test_table_word : decodeTableWord 32 0x034 = some (.print 0 []) ∧ decodeTableWord 32 0x210 = some (.setPixel .inverse 0 0) ∧
    decodeTableWord 32 0x310 = none := by decide

/-! ## The assembly syntax (30_encoding R82, R83) -/

theorem test_asm_examples :
    Asm.line "SETPIXEL.on 3, 4".toList = some (.setPixel .on 3 4) ∧
    Asm.line "DRAWGLYPH.on.off 0, 0, 'A', 1".toList = some (.drawGlyph .on .off 0 0 0x41 1) ∧
    Asm.line "PRINT \"AB\\nC\"".toList = some (.print 4 [0x430A4241]) := by decide +kernel
theorem test_asm_begin : Asm.assemble "BEGIN 1, 0x3C, 128, 64, 2" = some [1, 1, 0x3C, 128, 64, 2] := by decide +kernel
theorem test_asm_pseudo :
    Asm.line "TEXTCOLOR.inv".toList = some (.setTextColor .inverse .inverse) ∧ Asm.line "DISPLAY".toList = some .flush ∧
    Asm.line "HLINE.on 1, 2, 9".toList = some (.fillRect .on 1 2 9 1) ∧
    Asm.line "VLINE.off 1, 2, 9".toList = some (.fillRect .off 1 2 1 9) := by decide +kernel
theorem test_asm_refuses :
    Asm.line "SETPIXEL 3, 4".toList = none ∧ Asm.line "CLEAR.on".toList = none ∧ Asm.line "GETPIXEL 3".toList = none := by
  decide +kernel

/-! ## Single steps -/

/-- V-LIFE-1. -/
theorem test_begin : check (exec (.beginInst 1 0x3C 128 64 2) (cold (oks 28))) (fun t =>
    t.status = .ok && t.cp = 6 && t.active && t.busOpen && t.handle = fresh 128 64 &&
    t.busTrace.take 2 = [⟨.openBus 1, .ok⟩, ⟨.bindAddr 0x3C, .ok⟩] &&
    sent t = [0xAE, 0xD5, 0x80, 0xA8, 0x3F, 0xD3, 0x00, 0x40, 0x8D, 0x14, 0x20, 0x00, 0xA1, 0xC8, 0xDA, 0x12, 0x81, 0xCF,
      0xD9, 0xF1, 0xDB, 0x40, 0xA4, 0xA6, 0x2E, 0xAF]) = true := by decide +kernel

/-- V-LIFE-12: the fifth initialization frame fails. -/
theorem test_begin_fails : check (exec (.beginInst 1 0x3C 128 32 2) (cold (oks 6 ++ [.fail 1]))) (fun t =>
    t.status = .ioError && !t.active && !t.busOpen && sent t = [0xAE, 0xD5, 0x80, 0xA8, 0x1F] &&
    t.busTrace.drop 6 = [⟨.cmdFrame 0x1F, .fail 1⟩, ⟨.closeBus, .ok⟩]) = true := by decide +kernel

/-- V-LIFE-16: the power-off frame fails. -/
theorem test_end : check (exec .endInst (live 128 64 [.fail 0])) (fun t =>
    t.status = .ok && t.cp = 1 && !t.active && !t.busOpen &&
    t.busTrace.drop 1 = [⟨.cmdFrame 0xAE, .fail 0⟩, ⟨.closeBus, .ok⟩]) = true := by decide +kernel

/-- V-LIFE-18. -/
theorem test_getwidth : check (exec .getWidth (live 96 16 [])) (fun t => t.status = .ok && t.result = 96) = true := by
  decide +kernel
theorem test_getheight : check (exec .getHeight (live 96 16 [])) (fun t => t.status = .ok && t.result = 16) = true := by
  decide +kernel

/-- V-PIX-1 and V-PIX-6. -/
theorem test_setpixel : check (exec (.setPixel .on 3 10) (live 128 64 [])) (fun t => t.handle.fb = [(131, 0x04)]) = true := by
  decide +kernel
theorem test_setpixel_corner :
    check (exec (.setPixel .on 127 63) (live 128 64 [])) (fun t => t.handle.fb = [(1023, 0x80)]) = true := by decide +kernel

/-- V-PIX-1 and V-PIX-5. -/
theorem test_getpixel : check (exec (.getPixel 3 10) (drawnOn [(131, 0x04)])) (fun t => t.result = 1) = true := by
  decide +kernel
theorem test_getpixel_outside :
    check (exec (.getPixel (-1) 0) (drawnOn [(0, 0xFF)])) (fun t => t.status = .ok && t.result = 0) = true := by decide +kernel

/-- V-PIX-7, V-PIX-8, on a smaller panel. -/
theorem test_clear :
    check (exec .clear { live 16 8 [] with handle := { fresh 16 8 with fb := [(0, 0xFF), (15, 1)], cursorX := 5, cursorY := 6 } })
      (fun t => t.handle.fb = [] && t.handle.cursorX = 5 && t.handle.cursorY = 6) = true := by decide +kernel

/-- V-LINE-3, V-LINE-7, V-LINE-11. -/
theorem test_line_points :
    linePoints 0 0 5 2 = [(0, 0), (1, 0), (2, 1), (3, 1), (4, 2), (5, 2)] ∧
    linePoints (-2) (-1) 2 1 = [(-2, -1), (-1, -1), (0, 0), (1, 0), (2, 1)] ∧
    linePoints 0 3 4 0 = [(0, 3), (1, 2), (2, 2), (3, 1), (4, 0)] := by decide +kernel
theorem test_drawline : check (exec (.drawLine .on 0 3 4 0) (live 128 64 []))
    (fun t => t.handle.fb = [(0, 0x08), (1, 0x04), (2, 0x04), (3, 0x02), (4, 0x01)]) = true := by decide +kernel

/-- V-RECT-2. -/
theorem test_drawrect : check (exec (.drawRect .inverse 0 0 4 3) (live 128 64 []))
    (fun t => t.handle.fb = [(0, 0x07), (1, 0x05), (2, 0x05), (3, 0x07)]) = true := by decide +kernel

/-- V-RECT-4, V-RECT-6. -/
theorem test_fillrect : check (exec (.fillRect .on 2 6 2 4) (live 128 64 []))
    (fun t => t.handle.fb = [(2, 0xC0), (3, 0xC0), (130, 0x03), (131, 0x03)]) = true := by decide +kernel
theorem test_fillrect_clipped : check (exec (.fillRect .on 126 62 5 5) (live 128 64 []))
    (fun t => t.handle.fb = [(1022, 0xC0), (1023, 0xC0)]) = true := by decide +kernel

/-- V-CIRC-5. -/
theorem test_drawcircle : check (exec (.drawCircle .on 3 3 2) (live 128 64 []))
    (fun t => t.handle.fb = [(1, 0x1C), (2, 0x22), (3, 0x22), (4, 0x22), (5, 0x1C)]) = true := by decide +kernel

/-- V-CIRC-6. -/
theorem test_fillcircle : check (exec (.fillCircle .on 3 3 2) (live 128 64 []))
    (fun t => t.handle.fb = [(1, 0x08), (2, 0x1C), (3, 0x3E), (4, 0x1C), (5, 0x08)]) = true := by decide +kernel

/-- V-GLY-7, V-GLY-6. -/
theorem test_drawglyph_blank : check (exec (.drawGlyph .on .on 0 0 0x141 1) (live 128 64 []))
    (fun t => t.status = .ok && t.handle = fresh 128 64) = true := by decide +kernel
theorem test_drawglyph_clipped : check (exec (.drawGlyph .on .off (-2) (-3) 0x41 1) (live 128 64 []))
    (fun t => t.handle.fb = [(0, 0x08), (1, 0x08), (2, 0x08)]) = true := by decide +kernel

theorem test_setcursor : check (exec (.setCursor (-6) 7) (live 128 64 []))
    (fun t => t.handle.cursorX.toInt = -6 && t.handle.cursorY = 7) = true := by decide +kernel

/-- V-TXT-12. -/
theorem test_settextsize : check (exec (.setTextSize (-5)) (live 128 64 [])) (fun t => t.handle.textScale = 1) = true := by
  decide +kernel
theorem test_settextcolor : check (exec (.setTextColor .off .inverse) (live 128 64 []))
    (fun t => t.handle.textColor = .off && t.handle.textBg = .inverse) = true := by decide +kernel

/-- V-TXT-8, and the third character of V-TXT-5. -/
theorem test_print : check (exec (.print 2 [0xFFFF4241]) { live 128 64 [] with handle := { fresh 128 64 with cursorX := -6 } })
    (fun t => t.cp = 3 && t.handle.cursorX = 6 && t.handle.cursorY = 0 && t.handle.fb.read 0 = 0x42) = true := by
  decide +kernel
theorem test_print_wraps : check (exec (.print 1 [0x43]) { live 16 8 [] with handle := { fresh 16 8 with cursorX := 12 } })
    (fun t => t.handle.cursorX = 0 && t.handle.cursorY = 8 && t.handle.fb = []) = true := by decide +kernel

/-- V-SYNC-3, V-SYNC-5. -/
theorem test_flush : check (exec .flush (live 96 16 (oks 7))) (fun t =>
    t.status = .ok && sent t = [0x21, 0x00, 0x5F, 0x22, 0x00, 0x01] &&
    t.busTrace.drop 7 = [⟨.dataFrame (List.replicate 192 0), .ok⟩]) = true := by decide +kernel
theorem test_flush_fails : check (exec .flush (live 128 64 [.ok, .ok, .fail 0])) (fun t =>
    t.status = .ioError && sent t = [0x21, 0x00, 0x7F] && t.busTrace.length = 4 && t.cp = 1) = true := by decide +kernel

/-- V-SYNC-6. -/
theorem test_invert : check (exec (.invert 5) (live 128 64 (oks 1))) (fun t => sent t = [0xA7]) = true := by decide +kernel

/-- V-SYNC-7. -/
theorem test_dim : check (exec (.dim 1) (live 128 64 (oks 2)))
    (fun t => sent t = [0x81, 0x00] && t.handle.contrast = 0xCF) = true := by decide +kernel
theorem test_dim_off : check (exec (.dim 0) (live 128 64 [])) (fun t => t.status = .ok && sent t = []) = true := by
  decide +kernel

/-- V-SYNC-10, V-SYNC-11. -/
theorem test_setcontrast : check (exec (.setContrast 255) (live 128 64 (oks 2)))
    (fun t => sent t = [0x81, 0xFF] && t.handle.contrast = 0xFF) = true := by decide +kernel
theorem test_setcontrast_fails : check (exec (.setContrast 0x40) (live 128 64 [.ok, .fail 2]))
    (fun t => t.status = .ioError && sent t = [0x81, 0x40] && t.handle.contrast = 0xCF) = true := by decide +kernel

/-- V-SYNC-16, V-SYNC-13, V-SYNC-14, V-SYNC-15, V-SYNC-17. -/
theorem test_scrollright : check (exec (.scrollRight 300 2) (live 128 64 (oks 8)))
    (fun t => sent t = [0x26, 0x00, 0x2C, 0x00, 0x02, 0x00, 0xFF, 0x2F]) = true := by decide +kernel
theorem test_scrollleft : check (exec (.scrollLeft 2 3) (live 128 64 (oks 8)))
    (fun t => sent t = [0x27, 0x00, 0x02, 0x00, 0x03, 0x00, 0xFF, 0x2F]) = true := by decide +kernel
theorem test_scrolldiagright : check (exec (.scrollDiagRight 0 7) (live 128 64 (oks 10)))
    (fun t => sent t = [0xA3, 0x00, 0x40, 0x29, 0x00, 0x00, 0x00, 0x07, 0x01, 0x2F]) = true := by decide +kernel
theorem test_scrolldiagleft : check (exec (.scrollDiagLeft 1 2) (live 128 32 (oks 10)))
    (fun t => sent t = [0xA3, 0x00, 0x20, 0x2A, 0x00, 0x01, 0x00, 0x02, 0x01, 0x2F]) = true := by decide +kernel
theorem test_stopscroll : check (exec .stopScroll (live 128 64 (oks 1))) (fun t => sent t = [0x2E]) = true := by
  decide +kernel

/-- V-ERR-2. -/
theorem test_not_initialized : check (exec (.setContrast 256) (cold []))
    (fun t => t.status = .notInitialized && t.result = 0 && t.cp = 2 && t.busTrace = []) = true := by decide +kernel

/-- V-ERR-3: the illegal header, then the reset. -/
theorem test_illegal_header : check (step (withWords (live 128 64 []) [0, 3])) (fun t =>
    t.responses = [(.illegalCommand, 0)] && t.cp = 0 && t.faulted && t.active && t.latch.hdr = 0) = true := by decide +kernel
theorem test_reset_input :
    check (step { live 128 64 [.ok] with faulted := true, resetInput := some { words := [2], interleaveAt := none } }) (fun t =>
      t.busTrace.drop 1 = [⟨.cmdFrame 0xAE, .ok⟩, ⟨.closeBus, .ok⟩] && t.cp = 0 && !t.faulted && !t.active &&
      t.host.words = [2]) = true := by decide +kernel

/-- The word that `withFetchWord` lays down is the next one to run, after reset and after a command. -/
theorem test_fetch_word : check (step (State.reset.withFetchWord 32 0x40)) (fun t =>
    t.status = .notInitialized && t.cp = 1) = true := by decide +kernel
theorem test_fetch_word_later :
    check (step (State.withFetchWord { withWords (live 96 16 []) [2, 2, 2] with cp := 2 } 32 0x03)) (fun t =>
      t.result = 96 && t.cp = 3) = true := by decide +kernel

/-! ## Witnesses for the hypotheses of the obligations

`witness_<Name>` shows that the hypotheses of Obligations.<Name> are met together, clause by clause, at boundary values. -/

/-- PRINT of nine bytes: the longest operand list of V-ENC-4. -/
def print9 : Instr := .print 9 [0x44434241, 0x48474645, 0x49]

theorem witness_DecodeOfEncode : print9.wf = true ∧ (Instr.print 0 []).wf = true ∧ Instr.flush.wf = true := by decide

theorem witness_EncodeOfDecode : decode [0x34, 9, 1, 2, 3, 7] = .command (.print 9 [1, 2, 3]) [7] := by decide

theorem witness_CommandLength :
    print9.wf = true ∧ decode [0x34, 0, 7] = .command (.print 0 []) [7] ∧
    (decode [0x34, 5, 1, 2] = .command (.print 5 [1, 2]) [] ∧ decode [0x34, 5, 3, 4, 9] = .command (.print 5 [3, 4]) [9]) ∧
    ((0x110 : Word).toNat % 256 ≠ 0x34 ∧ decode [0x110, 1, 2] = .command (.setPixel .on 1 2) [] ∧
      decode [0x110, 3, 4, 5] = .command (.setPixel .on 3 4) [5]) := by decide

theorem witness_PrintPayload :
    decode [0x34, 5, 1, 2] = .command (.print 5 [1, 2]) [] ∧ [1, (2 : Word)].length = ((5 : Word).toNat + 3) / 4 ∧
    textBytes 5 [0x44434241, 0x00000045] = textBytes 5 [0x44434241, 0xFFFFFF45] := by decide

/-- A 128×64 instance about to read `ws`. -/
def about (ws : List Word) : State := withWords (live 128 64 (oks 28)) ws

theorem about_ready (ws : List Word) : (about ws).Ready := ⟨rfl, rfl, rfl⟩

theorem witness_StepRunsTheDecodedCommand :
    (about [0x110, 1, 2, 7]).Ready ∧ (about [0x110, 1, 2, 7]).host.words.drop (about [0x110, 1, 2, 7]).cp = 0x110 :: [1, 2, 7] ∧
    decode (0x110 :: [1, 2, 7]) = .command (.setPixel .on 1 2) [7] := ⟨about_ready _, rfl, by decide⟩

theorem illegal_zero : IllegalHeader 0 := by unfold IllegalHeader; decide

theorem legal_clear : ¬ IllegalHeader 0x12 := by unfold IllegalHeader; decide

theorem witness_IllegalHeaderFaults :
    ((about [0, 3]).Ready ∧ (about [0, 3]).host.words.drop (about [0, 3]).cp = 0 :: [3] ∧ IllegalHeader 0) ∧
    ((about [0x03]).Ready ∧ (about [0x03]).host.words.drop (about [0x03]).cp = 0x03 :: [] ∧ ¬ IllegalHeader 0x03 ∧
      ∃ t, step (about [0x03]) = .next t) := by
  refine ⟨⟨about_ready _, rfl, illegal_zero⟩, about_ready _, rfl, by unfold IllegalHeader; decide, ?_⟩
  obtain ⟨t, h, -⟩ := next_of_check (p := fun _ => true) (r := step (about [0x03])) (by decide +kernel)
  exact ⟨t, h⟩

/-- A faulted block. -/
def halted : State := { about [0] with faulted := true }

theorem witness_FaultHaltsTheEngine :
    (halted.faulted = true ∧ halted.resetInput = none) ∧
    (∃ t, step (about [0]) = .next t ∧ (about [0]).faulted = false ∧ t.faulted = true) ∧
    (∃ t, step (halted.assertReset ⟨[], none⟩) = .next t ∧ (halted.assertReset ⟨[], none⟩).faulted = true) ∧
    (∃ t, exec .getWidth halted = .next t) := by
  refine ⟨⟨rfl, rfl⟩, ?_, ?_, ⟨_, rfl⟩⟩
  · obtain ⟨t, h, e⟩ := next_of_check (p := fun t => t.faulted) (r := step (about [0])) (by decide +kernel)
    exact ⟨t, h, rfl, e⟩
  · obtain ⟨t, h, -⟩ := next_of_check (p := fun _ => true) (r := step (halted.assertReset ⟨[], none⟩)) (by decide +kernel)
    exact ⟨t, h, rfl⟩

theorem witness_IncompleteCommandWaits :
    ((about []).Ready ∧ (about []).host.words.length ≤ (about []).cp) ∧
    ((about [0x110, 1]).Ready ∧ ∃ i n, i.wf = true ∧ n < i.len ∧
      (about [0x110, 1]).host.words.drop (about [0x110, 1]).cp = (encode i).take n) ∧
    (∃ i n, i.wf = true ∧ n < i.len ∧ [0x34, 9, 0x44434241] = (encode i).take n) :=
  ⟨⟨about_ready _, by decide⟩, ⟨about_ready _, .setPixel .on 1 2, 2, by decide⟩, print9, 3, by decide⟩

theorem witness_CompletedCommandAdvances : ∃ t, exec (.print 0 []) (cold []) = .next t := ⟨_, rfl⟩

theorem live_active : (live 128 64 (oks 28)).active = true := rfl

theorem witness_EveryCommandResponds :
    (∃ t, exec (.setContrast 256) (live 128 64 []) = .next t) ∧ (live 96 16 []).active = true := ⟨⟨_, rfl⟩, rfl⟩

/-- Reset asserted over an instance whose power-off frame fails, over a faulted one, and without an instance. -/
theorem witness_ResetInput :
    (((live 128 64 [.fail 2]).assertReset ⟨[2], none⟩).resetInput = some ⟨[2], none⟩ ∧
      TeardownAnswered ((live 128 64 [.fail 2]).assertReset ⟨[2], none⟩)) ∧
    ((halted.assertReset ⟨[], none⟩).resetInput = some ⟨[], none⟩ ∧ TeardownAnswered (halted.assertReset ⟨[], none⟩)) ∧
    TeardownAnswered ((cold []).assertReset ⟨[], none⟩) :=
  ⟨⟨rfl, fun _ => by decide⟩, ⟨rfl, fun _ => by decide⟩, fun h => by cases h⟩

/-- The cursor at its greatest value, above the bottom edge of a panel without wrap. -/
def atTheEdge : State :=
  { live 128 64 [] with handle := { fresh 128 64 with cursorX := 0x7FFFFFFF, wrap := false } }

theorem witness_OnlyTheSpecsStops :
    exec (.print 1 [0x00000080]) atTheEdge = .refused .cursorRange ∧
    step (withWords atTheEdge [0x34, 1, 0x80]) = .refused .cursorRange ∧
    step { about [0x03] with host := { words := [0x03], interleaveAt := some 0 } } = .refused .hostInterleave ∧
    exec .stopScroll (live 128 64 [.never]) = .fault .transferStalled ∧
    exec .endInst (live 128 64 [.never]) = .fault .transferStalled ∧
    step ((live 128 64 [.never]).assertReset ⟨[], none⟩) = .fault .transferStalled ∧
    step (withWords (live 128 64 [.never]) [0x48]) = .fault .transferStalled := by
  exact ⟨refused_of (by decide +kernel), refused_of (by decide +kernel), rfl, rfl, rfl, rfl, rfl⟩

/-- One SETPIXEL, of which word `k` is the first that another host wrote. -/
def shared (k : Nat) : State := { about [0x110, 1, 2] with host := { words := [0x110, 1, 2], interleaveAt := some k } }

theorem witness_InterleavedCommandRefused :
    ((shared 0).resetInput = none ∧ (shared 0).faulted = false ∧ (shared 0).host.interleaveAt = some 0 ∧ 0 ≤ (shared 0).cp) ∧
    (decode ((shared 2).host.words.drop (shared 2).cp) = .command (.setPixel .on 1 2) [] ∧
      2 < (shared 2).cp + (Instr.setPixel .on 1 2).len) ∧
    (decode ((shared 3).host.words.drop (shared 3).cp) = .command (.setPixel .on 1 2) [] ∧
      (shared 3).cp + (Instr.setPixel .on 1 2).len ≤ 3) := by decide

theorem witness_ConfigurationIsFixed : ∃ t, step (about [0x40]) = .next t ∧ (about [0x40]).resetInput = none := by
  obtain ⟨t, h, -⟩ := next_of_check (p := fun _ => true) (r := step (about [0x40])) (by decide +kernel)
  exact ⟨t, h, rfl⟩

theorem witness_NotInitialized :
    (cold []).active = false ∧ Instr.flush ≠ .endInst ∧ ∀ a b c d e, Instr.flush ≠ .beginInst a b c d e :=
  ⟨rfl, by simp, by simp⟩

/-- A geometry that is not valid: a height of 12 (V-LIFE-6), addresses 128 and -1 (V-LIFE-7), a width of 0 (V-LIFE-5), the
power modes 0 and 3 (V-LIFE-9). -/
theorem witness_InvalidGeometry :
    (∀ mode, ¬ ValidGeometry none 0x3C 1 12 2 mode) ∧ (∀ mode, ¬ ValidGeometry none 128 128 64 2 mode) ∧
    (∀ mode, ¬ ValidGeometry none (-1) 128 64 2 mode) ∧ (∀ mode, ¬ ValidGeometry none 0x3C 0 8 2 mode) ∧
    (∀ mode, ¬ ValidGeometry none 0x3C 128 64 0 mode) ∧ (∀ mode, ¬ ValidGeometry none 0x3C 128 64 3 mode) ∧
    (∀ mode, ¬ ValidGeometry (some 1023) 0x3C 128 64 2 mode) := by
  refine ⟨?_, ?_, ?_, ?_, ?_, ?_, ?_⟩ <;> exact validGeometry_none.mp (by decide)

/-- The smallest and an ordinary valid geometry, at the ends of the address range and at the capacity. -/
theorem witness_ValidGeometry :
    ValidGeometry none 0 1 8 1 .external ∧ ValidGeometry none 127 128 64 2 .internal ∧
    ValidGeometry (some 1024) 0x3C 128 64 2 .internal := by
  refine ⟨?_, ?_, ?_⟩ <;> exact validGeometry_some.mp (by decide)

theorem witness_ErrorPriority :
    ((about [0]).Ready ∧ IllegalHeader 0) ∧ ((cold []).active = false ∧ ∃ t, exec (.setContrast 256) (cold []) = .next t) ∧
    ((live 128 64 []).active = true ∧ ¬ ArgumentsValid (.setContrast 256) ∧
      ∃ t, exec (.setContrast 256) (live 128 64 []) = .next t) ∧
    ((∀ mode, ¬ ValidGeometry (live 128 64 []).cfg.fbCapacity 0x3C 96 12 1 mode) ∧
      ∃ t, exec (.beginInst 2 0x3C 96 12 1) (live 128 64 []) = .next t) := by
  refine ⟨⟨about_ready _, illegal_zero⟩, ⟨rfl, _, rfl⟩, ⟨rfl, by unfold ArgumentsValid; decide, _, rfl⟩,
    validGeometry_none.mp (by decide), _, rfl⟩

theorem witness_InvalidArgument :
    ((live 128 64 []).active = true ∧ ¬ ArgumentsValid (.setContrast 256) ∧ ¬ ArgumentsValid (.setContrast (-1))) ∧
    (∃ t, exec (.setContrast (-1)) (live 128 64 []) = .next t ∧ t.status = .invalidArgument) ∧
    (∃ t, exec (.beginInst 1 0x3C 0 8 2) (cold []) = .next t ∧ t.status = .invalidArgument) :=
  ⟨⟨rfl, by unfold ArgumentsValid; decide, by unfold ArgumentsValid; decide⟩, ⟨_, rfl, rfl⟩, ⟨_, rfl, rfl⟩⟩

/-! ### Lifecycle -/

theorem witness_BeginCreatesTheInstance :
    (ValidGeometry (cold (oks 28)).cfg.fbCapacity 127 128 64 2 .internal ∧ TeardownAnswered (cold (oks 28)) ∧
      ∀ k, k < 28 → (cold (oks 28)).answerAt (teardownAnswers (cold (oks 28)) + k) = .ok) ∧
    (TeardownAnswered (live 128 64 (.fail 0 :: oks 28)) ∧
      ∀ k, k < 28 → (live 128 64 (.fail 0 :: oks 28)).answerAt (teardownAnswers (live 128 64 (.fail 0 :: oks 28)) + k) = .ok) :=
  ⟨⟨validGeometry_some.mp (by decide), fun h => (by cases h), by decide +kernel⟩, fun _ => by decide +kernel, by decide +kernel⟩

/-- An instance to tear down, then a first primitive that fails. -/
def firstFails : State := live 128 64 [.ok, .fail 0]

/-- No instance, and a twenty-eighth primitive that fails. -/
def lastFails : State := cold (oks 27 ++ [.fail 1])

/-- The first primitive fails, after a teardown and without one; the last one fails. -/
theorem witness_FailedBeginReleases :
    (firstFails.busOpen = firstFails.active ∧ TeardownAnswered firstFails ∧
      firstFails.answerAt (teardownAnswers firstFails + 0) = .fail 0) ∧
    (lastFails.busOpen = lastFails.active ∧ TeardownAnswered lastFails ∧
      (∀ k, k < 27 → lastFails.answerAt (teardownAnswers lastFails + k) = .ok) ∧
      lastFails.answerAt (teardownAnswers lastFails + 27) = .fail 1) :=
  ⟨⟨rfl, fun _ => by decide, by decide⟩, rfl, fun h => (by cases h), by decide +kernel, by decide +kernel⟩

theorem witness_BeginBusTrace :
    (∃ t, exec (.beginInst 1 0x3C 128 64 2) (cold (oks 28)) = .next t) ∧
    (∃ t, exec (.beginInst 1 0x3C 128 64 2) (cold [.fail 0]) = .next t) ∧
    (∃ t, exec (.beginInst 1 0x3C 128 12 2) (cold []) = .next t) := by
  refine ⟨?_, ?_, ⟨_, rfl⟩⟩
  · obtain ⟨t, h, -⟩ := next_of_check (p := fun _ => true) (r := exec (.beginInst 1 0x3C 128 64 2) (cold (oks 28))) (by decide +kernel)
    exact ⟨t, h⟩
  · obtain ⟨t, h, -⟩ := next_of_check (p := fun _ => true) (r := exec (.beginInst 1 0x3C 128 64 2) (cold [.fail 0])) (by decide +kernel)
    exact ⟨t, h⟩

theorem witness_EndTearsDown : TeardownAnswered (live 128 64 [.fail 1]) ∧ TeardownAnswered (cold []) :=
  ⟨fun _ => by decide, fun h => by cases h⟩

theorem witness_GeometryGetters :
    (live 4294967295 8 []).active = true ∧ (live 4294967295 8 []).handle.width < 4294967296 ∧
    (live 4294967295 8 []).handle.height < 4294967296 := ⟨rfl, by decide, by decide⟩

/-! ### Pixels and raster -/

theorem fresh_dark (w h : Nat) (x y : Int) : (fresh w h).pixel x y = false := by
  unfold DisplayHandle.pixel
  split
  · have e : (fresh w h).fb.read ((fresh w h).pixIndex x y) = 0 := rfl
    rw [e]
    simp
  · rfl

/-- The hypotheses of the drawing statements: an instance, its framebuffer in canonical form, every pixel off. -/
theorem witness_Drawing :
    (live 128 64 []).active = true ∧ (live 128 64 []).handle.fb.wf ∧ ∀ x y, (live 128 64 []).handle.pixel x y = false :=
  ⟨rfl, Memory.wf_nil, fresh_dark 128 64⟩

theorem witness_PixelPacking :
    (fresh 128 64).height % 8 = 0 ∧ (fresh 128 64).InBounds 0 0 ∧ (fresh 128 64).InBounds 127 63 ∧
    1023 < (fresh 128 64).width * ((fresh 128 64).height / 8) ∧ 7 < 8 := by decide

theorem witness_SetPixelPaintsOnePixel : (live 128 64 []).active = true ∧ (live 128 64 []).handle.fb.wf :=
  ⟨rfl, Memory.wf_nil⟩

theorem witness_GetPixelReadsTheBit : (live 128 64 []).active = true := rfl

theorem witness_ClearBlanksTheBuffer : (drawnOn [(0, 0xFF)]).active = true ∧ (drawnOn [(0, 0xFF)]).handle.fb.wf :=
  ⟨rfl, by decide⟩

theorem witness_PixelLaws :
    (live 128 64 []).active = true ∧ (live 128 64 []).handle.fb.wf ∧
    (live 128 64 []).handle.InBounds (127 : Word).toInt (63 : Word).toInt ∧
    ¬ (live 128 64 []).handle.InBounds (128 : Word).toInt (0 : Word).toInt ∧
    ¬ (live 128 64 []).handle.InBounds (5 : Word).toInt (-1 : Word).toInt :=
  ⟨rfl, Memory.wf_nil, by decide⟩

theorem witness_DrawLineDrawsLineSet : (live 128 64 []).active = true ∧ (live 128 64 []).handle.fb.wf := ⟨rfl, Memory.wf_nil⟩
theorem witness_DrawRectDrawsTheOutline : (live 128 64 []).active = true ∧ (live 128 64 []).handle.fb.wf := ⟨rfl, Memory.wf_nil⟩
theorem witness_FillRectFillsTheRectangle : (live 16 8 []).active = true ∧ (live 16 8 []).handle.fb.wf := ⟨rfl, Memory.wf_nil⟩

/-- A whole panel and a single pixel; no width and no height. -/
theorem witness_FillRectPixelCount :
    ((live 128 64 []).active = true ∧ (live 128 64 []).handle.fb.wf ∧ ∀ x y, (live 128 64 []).handle.pixel x y = false) ∧
    ((0 : Int) < (128 : Word).toInt ∧ (0 : Int) < (64 : Word).toInt ∧ (0 : Int) ≤ (0 : Word).toInt ∧
      (0 : Word).toInt + (128 : Word).toInt ≤ ((live 128 64 []).handle.width : Int) ∧
      (0 : Word).toInt + (64 : Word).toInt ≤ ((live 128 64 []).handle.height : Int)) ∧
    ((127 : Word).toInt + (1 : Word).toInt ≤ ((live 128 64 []).handle.width : Int)) ∧ (0 : Word).toInt = 0 :=
  ⟨witness_Drawing, by decide, by decide, by decide⟩

theorem witness_DrawCircleDrawsTheOutline : (live 128 64 []).active = true ∧ (live 128 64 []).handle.fb.wf :=
  ⟨rfl, Memory.wf_nil⟩
theorem witness_FillCircleFillsTheDisc : (live 128 64 []).active = true ∧ (live 128 64 []).handle.fb.wf :=
  ⟨rfl, Memory.wf_nil⟩

/-- DRAWCIRCLE and FILLCIRCLE of radius 5 at (10, 10), and of radius 0: an offset and its mirror images are on the panel. -/
theorem witness_CircleSymmetryAndDisc :
    ((live 128 64 []).active = true ∧ (live 128 64 []).handle.fb.wf ∧ ∀ x y, (live 128 64 []).handle.pixel x y = false) ∧
    ((live 128 64 []).handle.InBounds ((10 : Word).toInt + 3) ((10 : Word).toInt + 4) ∧
      (live 128 64 []).handle.InBounds ((10 : Word).toInt - 3) ((10 : Word).toInt + 4) ∧
      (live 128 64 []).handle.InBounds ((10 : Word).toInt + 3) ((10 : Word).toInt - 4) ∧
      (live 128 64 []).handle.InBounds ((10 : Word).toInt + 4) ((10 : Word).toInt + 3) ∧
      (live 128 64 []).handle.InBounds ((10 : Word).toInt - 4) ((10 : Word).toInt - 3)) ∧
    (0 : Int) ≤ (0 : Word).toInt := ⟨witness_Drawing, by decide, by decide⟩

/-! ### Text -/

theorem witness_DrawGlyphDrawsTheCell : (live 128 64 []).active = true ∧ (live 128 64 []).handle.fb.wf := ⟨rfl, Memory.wf_nil⟩

/-- The least scale; the codes next to the ends of the range, and the ends; a glyph drawn with two colours and with one. -/
theorem witness_GlyphCell :
    1 ≤ 1 ∧ (31 < 32 ∧ 126 < 127) ∧ (32 ≤ 32 ∧ 126 ≤ 126 ∧ 4 ≤ 4) ∧
    (∃ t, exec (.drawGlyph .on .off 0 0 0x41 1) (live 128 64 []) = .next t ∧ Color.off ≠ Color.on) ∧
    (∃ t, exec (.drawGlyph .on .on 0 0 0x41 1) (live 128 64 []) = .next t) :=
  ⟨by decide, by decide, by decide, ⟨_, rfl, by decide⟩, ⟨_, rfl⟩⟩

theorem witness_TextSetters : (live 128 64 []).active = true := rfl

/-- PRINT runs in the first state, and is refused in the second (see `witness_OnlyTheSpecsStops`). -/
theorem witness_PrintFollowsItsLoop :
    ((live 128 64 []).active = true ∧ (live 128 64 []).handle.fb.wf) ∧ (atTheEdge.active = true ∧ atTheEdge.handle.fb.wf) :=
  ⟨⟨rfl, Memory.wf_nil⟩, rfl, Memory.wf_nil⟩

/-- The largest text whose cursor the bounds admit on a fresh instance, and a text of no bytes at the greatest cursor. -/
theorem witness_PrintCompletes :
    ((live 128 64 []).active = true ∧ (live 128 64 []).handle.fb.wf ∧
      max (live 128 64 []).handle.cursorX.toInt 0 + 6 * (live 128 64 []).handle.textScale * (268435455 : Word).toNat < 2147483648 ∧
      (live 128 64 []).handle.cursorY.toInt + 8 * (live 128 64 []).handle.textScale * (268435455 : Word).toNat < 2147483648) ∧
    (max atTheEdge.handle.cursorX.toInt 0 + 6 * atTheEdge.handle.textScale * (0 : Word).toNat < 2147483648 ∧
      atTheEdge.handle.cursorY.toInt + 8 * atTheEdge.handle.textScale * (0 : Word).toNat < 2147483648) :=
  ⟨⟨rfl, Memory.wf_nil, by decide, by decide⟩, by decide, by decide⟩

theorem witness_PrintCursorIgnoresGlyphs :
    (∃ t, exec (.print 1 [0x0A]) (live 128 16 []) = .next t) ∧
    ((live 128 16 []).active = true ∧ (live 128 16 []).handle.width = 128 ∧ 16 ≤ (live 128 16 []).handle.height ∧
      (live 128 16 []).handle.cursorX = 0 ∧ (live 128 16 []).handle.cursorY = 0 ∧ (live 128 16 []).handle.textScale = 1) := by
  refine ⟨?_, rfl, rfl, by decide, rfl, rfl, rfl⟩
  obtain ⟨t, h, -⟩ := next_of_check (p := fun _ => true) (r := exec (.print 1 [0x0A]) (live 128 16 [])) (by decide +kernel)
  exact ⟨t, h⟩

/-! ### Display sync -/

theorem witness_FlushSendsTheFramebuffer :
    (live 128 64 (oks 7)).active = true ∧ ∀ k, k < 7 → (live 128 64 (oks 7)).answerAt k = .ok := ⟨rfl, by decide⟩

/-- FLUSH runs, completes with a data frame in its events, and runs after CLEAR. -/
theorem witness_FlushBusTrace :
    (∃ t events bytes, exec .flush (live 16 8 (oks 7)) = .next t ∧ t.busTrace = (live 16 8 (oks 7)).busTrace ++ events ∧
      ⟨.dataFrame bytes, .ok⟩ ∈ events) ∧
    (∃ t u, exec .clear (live 16 8 (oks 7)) = .next t ∧ exec .flush t = .next u) ∧ (live 16 8 (oks 7)).handle.fb.wf := by
  refine ⟨?_, ⟨_, _, rfl, rfl⟩, Memory.wf_nil⟩
  obtain ⟨t, h, e⟩ := next_of_check (r := exec .flush (live 16 8 (oks 7))) (p := fun t => decide
    (t.busTrace = (live 16 8 (oks 7)).busTrace ++ t.busTrace.drop 1 ∧
      (⟨.dataFrame (List.replicate 16 0), .ok⟩ : BusEvent) ∈ t.busTrace.drop 1)) (by decide +kernel)
  exact ⟨t, _, _, h, of_decide_eq_true e⟩

theorem witness_PolarityAndDimming :
    (live 128 64 (oks 2)).active = true ∧ (live 128 64 (oks 2)).answerAt 0 = .ok ∧
    ((1 : Word) ≠ 0 → (live 128 64 (oks 2)).answerAt 0 = .ok ∧ (live 128 64 (oks 2)).answerAt 1 = .ok) ∧
    ((0 : Word) ≠ 0 → (live 128 64 []).answerAt 0 = .ok ∧ (live 128 64 []).answerAt 1 = .ok) :=
  ⟨rfl, by decide, by decide, fun h => absurd rfl h⟩

/-- The ends of the range of SETCONTRAST, and the two values outside it that R217 names. -/
theorem witness_SetContrastStoresTheValue :
    (live 128 64 (oks 2)).active = true ∧ (0 : Int) ≤ (0 : Word).toInt ∧ (255 : Word).toInt ≤ 255 ∧
    (live 128 64 (oks 2)).answerAt 0 = .ok ∧ (live 128 64 (oks 2)).answerAt 1 = .ok ∧
    (-1 : Word).toInt = -1 := ⟨rfl, by decide, by decide, by decide, by decide, by decide⟩

theorem witness_ScrollCommandsSendTheirBytes :
    (live 128 64 (oks 10)).active = true ∧ (∀ k, k < 10 → (live 128 64 (oks 10)).answerAt k = .ok) ∧
    (live 128 64 (oks 10)).cfg.cmd.scrollDummy00 = 0x00 ∧ (live 128 64 (oks 10)).cfg.cmd.scrollDummyFF = 0xFF ∧
    (live 128 64 (oks 10)).cfg.cmd.scrollVOffset = 0x01 := ⟨rfl, by decide, rfl, rfl, rfl⟩

theorem witness_SyncCommandCompletes :
    IsSync (.setContrast 255) ∧ (live 128 64 (oks 2)).active = true ∧ ArgumentsValid (.setContrast 255) ∧
    (∀ k, k < (syncPrims (live 128 64 (oks 2)).cfg.cmd (live 128 64 (oks 2)).handle (.setContrast 255)).length →
      (live 128 64 (oks 2)).answerAt k = .ok) ∧ (∀ v, Instr.flush ≠ .setContrast v) :=
  ⟨trivial, rfl, by unfold ArgumentsValid; decide, by decide, by simp⟩

/-- An instance whose seventh primitive fails. -/
def dataFails : State := live 16 8 (oks 6 ++ [.fail 3])

/-- The data frame of FLUSH fails: its last primitive. -/
theorem witness_FailedFrameEndsTheCommand :
    IsSync .flush ∧ dataFails.active = true ∧ ArgumentsValid .flush ∧
    (syncPrims dataFails.cfg.cmd dataFails.handle .flush)[6]? = some (.dataFrame (List.replicate 16 0)) ∧
    (∀ k, k < 6 → dataFails.answerAt k = .ok) ∧ dataFails.answerAt 6 = .fail 3 :=
  ⟨trivial, rfl, trivial, by decide +kernel, by decide, by decide⟩

/-- A scroll command's only frame and FLUSH's last one, END's power-off frame, and BEGIN's: the teardown's, the first one after
it, and the last one. -/
theorem stalls_forms :
    Stalls .stopScroll (live 16 8 [.never]) ∧ Stalls .flush (live 16 8 (oks 6 ++ [.never])) ∧
    Stalls .endInst (live 16 8 [.never]) ∧
    Stalls (.beginInst 1 0x3C 128 64 2) (live 16 8 [.never]) ∧
    Stalls (.beginInst 1 0x3C 128 64 2) (live 16 8 [.fail 1, .never]) ∧
    Stalls (.beginInst 1 0x3C 128 64 2) (cold (oks 27 ++ [.never])) := by
  have valid : ValidGeometry (cold []).cfg.fbCapacity 0x3C 128 64 2 .internal := validGeometry_some.mp (by decide)
  exact ⟨.inl ⟨trivial, rfl, trivial, 0, by decide, by decide, by decide⟩,
    .inl ⟨trivial, rfl, trivial, 6, by decide, by decide, by decide⟩,
    .inr (.inl ⟨rfl, rfl, by decide⟩),
    .inr (.inr ⟨_, _, _, _, _, _, rfl, valid, .inl ⟨rfl, by decide⟩⟩),
    .inr (.inr ⟨_, _, _, _, _, _, rfl, valid, .inr ⟨fun _ => by decide, 0, by decide, by decide, by decide⟩⟩),
    .inr (.inr ⟨_, _, _, _, _, _, rfl, valid, .inr ⟨fun h => (by cases h), 27, by decide, by decide +kernel, by decide +kernel⟩⟩)⟩

theorem witness_StalledFrameHoldsTheEngine :
    (Stalls .stopScroll (live 16 8 [.never]) ∧ Stalls (.beginInst 1 0x3C 128 64 2) (cold (oks 27 ++ [.never])) ∧
      Stalls .endInst (live 16 8 [.never])) ∧
    ((withWords (live 16 8 [.never]) [0x48]).Ready ∧
      decode ((withWords (live 16 8 [.never]) [0x48]).host.words.drop 0) = .command .stopScroll [] ∧
      Stalls .stopScroll (withWords (live 16 8 [.never]) [0x48])) ∧
    (((live 16 8 [.never]).assertReset ⟨[2], none⟩).resetInput = some ⟨[2], none⟩ ∧
      PowerOffStalls ((live 16 8 [.never]).assertReset ⟨[2], none⟩)) :=
  ⟨⟨stalls_forms.1, stalls_forms.2.2.2.2.2, stalls_forms.2.2.1⟩, ⟨⟨rfl, rfl, rfl⟩, by decide, stalls_forms.1⟩, rfl, rfl, by decide⟩

theorem witness_FailedFrameMayDeliverAnyPart :
    (∃ t, (cold [.ok]).issue (.cmdFrame 0xAE) = .ok t) ∧ (∃ t, (cold [.fail 2]).issue (.cmdFrame 0xAE) = .fail t) ∧
    2 ≤ (BusPrim.cmdFrame 0xAE).frame.length := ⟨⟨_, rfl⟩, ⟨_, rfl⟩, by decide⟩

/-! ### Frames and the invariant -/

theorem witness_RegisterWriters :
    (∃ t, exec (.setCursor 1 2) (live 16 8 []) = .next t) ∧ Instr.setCursor 1 2 ≠ .endInst ∧
    (∀ a b c d e, Instr.setCursor 1 2 ≠ .beginInst a b c d e) ∧ (∀ v, Instr.setCursor 1 2 ≠ .setContrast v) ∧
    (∀ v, Instr.setCursor 1 2 ≠ .setTextSize v) ∧ (∀ c b, Instr.setCursor 1 2 ≠ .setTextColor c b) ∧
    (∀ x y, Instr.flush ≠ .setCursor x y) ∧ (∀ n p, Instr.flush ≠ .print n p) ∧
    Instr.flush.opcode ∉ [.setPixel, .clear, .drawLine, .drawRect, .fillRect, .drawCircle, .fillCircle, .drawGlyph, .print] :=
  ⟨⟨_, rfl⟩, by simp, by simp, by simp, by simp, by simp, by simp, by simp, by decide⟩

theorem witness_DrawingIsOffTheBus :
    ((∃ t, exec .clear (live 16 8 []) = .next t) ∧ ¬ IsSync .clear ∧ Instr.clear ≠ .endInst ∧
      ∀ a b c d e, Instr.clear ≠ .beginInst a b c d e) ∧
    ((∃ t, exec .stopScroll (live 16 8 (oks 1)) = .next t) ∧ IsSync .stopScroll ∧ Instr.stopScroll ≠ .flush) :=
  ⟨⟨⟨_, rfl⟩, fun h => h, by simp, by simp⟩, ⟨_, rfl⟩, trivial, by simp⟩

theorem witness_HistoriesOnlyGrow : ∃ t, step (about [0x48]) = .next t := by
  obtain ⟨t, h, -⟩ := next_of_check (p := fun _ => true) (r := step (about [0x48])) (by decide +kernel)
  exact ⟨t, h⟩

/-- A live instance with the invariant that takes a step. -/
theorem witness_StepKeepsTheInvariant : (about [0x48]).Inv ∧ ∃ t, step (about [0x48]) = .next t := by
  refine ⟨⟨Memory.wf_nil, rfl, by decide, by decide, by decide, by decide, fun _ p hp => (by cases hp), fun _ c hc => (by cases hc),
    fun _ => rfl, by decide, by decide⟩, witness_HistoriesOnlyGrow⟩

end Sys2Proof.Tests
end

section
/-! SUPPORT. Proofs of the statements of 10_state: what every completed command writes to STATUS and RESULT. -/

namespace Sys2Proof.Machine

theorem resultFor_of_ne_ok {st : Status} (h : st ≠ .ok) (r : Word) : resultFor st r = 0 := if_neg h

/-- A command off the bus, with an instance, completes with OK and the RESULT of its row. -/
theorem exec_offBus_response {i : Instr} {s : State} {d : DisplayHandle} {r : Word} (ha : s.active = true)
    (e : offBus s.cfg.glyph s.handle i = some (d, r)) :
    ∃ t, exec i s = .next t ∧ t.status = .ok ∧ t.result = r :=
  ⟨s.drawn d i.len r, exec_offBus_some ha e, State.complete_status .., State.complete_result ..⟩

/-- Settles O13: `exec_next` ends every command in one `complete`, which writes the response; the getters' values are their rows
in `offBus`. -/
theorem everyCommandResponds : Obligations.EveryCommandResponds := by
  refine ⟨fun i s t h => ?_, fun s ha =>
    ⟨exec_offBus_response ha rfl, exec_offBus_response ha rfl, fun x y => exec_offBus_response ha rfl⟩⟩
  obtain ⟨u, st, r, before, rfl, -, -, hr⟩ := exec_next h
  refine ⟨?_, fun hst => resultFor_of_ne_ok hst r, fun hw hh hp => ?_⟩
  · rw [State.complete_responses, State.complete_status, State.complete_result, before.responses]
  · rw [State.complete_result, hr hw hh hp, resultFor_zero]

end Sys2Proof.Machine
end

section
/-! SUPPORT. Proofs of the statements of 20_memory: the pixels of the panel and the bits of the framebuffer are in bijection. -/

namespace Sys2Proof.Machine

/-- Division with remainder finds the pixel of a bit: column `a mod W` of page `a div W`. -/
theorem DisplayHandle.exists_pixel {d : DisplayHandle} {a k : Nat} (ha : a < d.fbSize) (hk : k < 8) :
    ∃ x y : Nat, d.InBounds x y ∧ d.pixIndex x y = a ∧ pixBit y = k := by
  have hW : 0 < d.width := Nat.pos_of_mul_pos_right (Nat.zero_lt_of_lt ha)
  have hx : a % d.width < d.width := Nat.mod_lt a hW
  have hpage : a / d.width < d.height / 8 := Nat.div_lt_of_lt_mul ha
  have hdiv : (8 * (a / d.width) + k) / 8 = a / d.width := by omega
  refine ⟨a % d.width, 8 * (a / d.width) + k, by omega, ?_, ?_⟩
  · show a % d.width + (8 * (a / d.width) + k) / 8 * d.width = a
    rw [hdiv, Nat.mod_add_div']
  · show (8 * (a / d.width) + k) % 8 = k
    omega

/-- Settles O28: a pixel is its bit inside the framebuffer (`pixel_eq`, `pixIndex_lt`); every bit is a pixel's (`exists_pixel`),
and of one pixel only (`pix_inj`). -/
theorem pixelPacking : Obligations.PixelPacking := by
  refine fun d h8 => ⟨fun x y hb => ⟨DisplayHandle.pixIndex_lt hb h8, DisplayHandle.pixel_eq hb⟩, fun a k ha hk => ?_⟩
  obtain ⟨x, y, hb, rfl, rfl⟩ := DisplayHandle.exists_pixel ha hk
  refine ⟨x, y, hb, rfl, rfl, fun x' y' hb' hi hbit => ?_⟩
  obtain ⟨hx, hy⟩ := DisplayHandle.pix_inj hb' hb hi hbit
  exact ⟨Int.ofNat_inj.mp hx, Int.ofNat_inj.mp hy⟩

end Sys2Proof.Machine
end

section
/-! SUPPORT. Proofs of the statements of 30_encoding: PRINT's payload as words and as bytes, and CP past a completed command. -/

namespace Sys2Proof

/-! ## The bytes of a payload -/

@[simp] theorem length_wordBytes (w : Word) : (wordBytes w).length = 4 := rfl

/-- Byte `k` of a word (20_memory R53). -/
theorem getElem?_wordBytes (w : Word) {k : Nat} (hk : k < 4) : (wordBytes w)[k]? = some (w.extractLsb' (8 * k) 8) := by
  match k, hk with
  | 0, _ | 1, _ | 2, _ | 3, _ => rfl

/-- Byte `k` of a list of words lies in word `k div 4` (30_encoding R76). -/
theorem getElem?_flatMap_wordBytes (ws : List Word) (k : Nat) :
    (ws.flatMap wordBytes)[k]? = ws[k / 4]?.map fun w => w.extractLsb' (8 * (k % 4)) 8 := by
  induction ws generalizing k with
  | nil => rfl
  | cons w ws ih =>
    rw [List.flatMap_cons]
    by_cases hk : k < 4
    · rw [List.getElem?_append_left hk, getElem?_wordBytes w hk, Nat.div_eq_of_lt hk, Nat.mod_eq_of_lt hk]
      rfl
    · have hdiv : k / 4 = (k - 4) / 4 + 1 := by omega
      have hmod : k % 4 = (k - 4) % 4 := by omega
      rw [List.getElem?_append_right (Nat.le_of_not_lt hk), length_wordBytes, ih, hdiv, hmod, List.getElem?_cons_succ]

/-- The header 0x34 is PRINT's. -/
theorem decode_print_header (ws : List Word) : decode (0x34 :: ws) = operandsPrint ws := rfl

end Sys2Proof

namespace Sys2Proof.Machine

/-- The payload that `n` asks for holds all `n` bytes (30_encoding R76). -/
theorem length_textBytes {n : Word} {payload : List Word} (h : payload.length = (n.toNat + 3) / 4) :
    (textBytes n payload).length = n.toNat := by
  have hbytes : (payload.flatMap wordBytes).length = payload.length * 4 := by simp [List.length_flatMap]
  rw [textBytes, zext32, List.length_take, hbytes, h]
  omega

/-- A text byte is the payload's byte of the same number (30_encoding R76). -/
theorem getElem?_textBytes {n : Word} {k : Nat} (hk : k < n.toNat) (payload : List Word) :
    (textBytes n payload)[k]? = payload[k / 4]?.map fun w => w.extractLsb' (8 * (k % 4)) 8 := by
  rw [textBytes, zext32, List.getElem?_take_of_lt hk, getElem?_flatMap_wordBytes]

/-- PRINT reads its payload through `textBytes` alone. -/
theorem exec_print_congr {n : Word} {payload payload' : List Word} (h : textBytes n payload = textBytes n payload')
    (s : State) : exec (.print n payload) s = exec (.print n payload') s := by
  show execPrint n payload s = execPrint n payload' s
  rw [execPrint, execPrint, h]

/-- Settles O6: the payload's words by `operandsPrint_command`, its bytes by `getElem?_textBytes`, and the padding by
`exec_print_congr`. -/
theorem printPayload : Obligations.PrintPayload := by
  refine ⟨fun n rest more payload h => ?_, fun n payload hl => ⟨length_textBytes hl, fun k hk => ?_⟩,
    fun n payload payload' s h => exec_print_congr h s⟩
  · rw [decode_print_header] at h
    obtain ⟨_, _, hprint, hl, hws⟩ := operandsPrint_command.mp h
    cases hprint
    exact ⟨hl, (List.cons.inj hws).2.symm⟩
  · have hword : k / 4 < payload.length := by omega
    exact ⟨payload[k / 4], List.getElem?_eq_getElem hword, by
      rw [getElem?_textBytes hk, List.getElem?_eq_getElem hword, Option.map_some]⟩

/-! ## CP -/

/-- Settles O12: every command that completes ends in one `complete` of its own length (`exec_next`), and nothing before it moves
CP. -/
theorem completedCommandAdvances : Obligations.CompletedCommandAdvances := by
  intro i s t h
  obtain ⟨u, st, r, before, rfl, -, -, -⟩ := exec_next h
  rw [State.complete_cp, before.cp]

end Sys2Proof.Machine
end

section
/-! SUPPORT. Proofs of the statements of 40_lifecycle: BEGIN that succeeds and BEGIN that fails, END, partial delivery, and the
initialization sequence. -/

namespace Sys2Proof.Machine

/-! ## From one state to the next -/

/-- A command whose response is the last thing it does, with RESULT 0, completes as 10_state R35 and 30_encoding R79 say. -/
theorem Before.completes {s u : State} (h : Before s u) (len : Nat) (st : Status) :
    Completes s (u.complete len st 0) len st 0 where
  status := rfl
  result := resultFor_zero st
  responses := by rw [State.complete_responses, h.responses, resultFor_zero]
  cp := by rw [State.complete_cp, h.cp]
  faulted := h.faulted
  cfg := h.cfg
  host := h.host
  reset_input := h.resetInput

theorem State.allocate_before (s : State) (bus addr w h : Word) (mode : Vcc) : Before s (s.allocate bus addr w h mode) :=
  ⟨rfl, rfl, rfl, rfl, rfl, rfl, [], (List.append_nil _).symm⟩

theorem State.activate_before (s : State) (mode : Vcc) : Before s (s.activate mode) :=
  ⟨rfl, rfl, rfl, rfl, rfl, rfl, [], (List.append_nil _).symm⟩

theorem State.freeHandle_before (s : State) : Before s s.freeHandle :=
  ⟨rfl, rfl, rfl, rfl, rfl, rfl, [], (List.append_nil _).symm⟩

theorem State.release_before (s : State) : Before s s.release := ⟨rfl, rfl, rfl, rfl, rfl, rfl, _, rfl⟩

/-- Opening the bus is in the state, not in the histories. -/
theorem Bused.before_of_open {s t : State} {b : Bool} {e : List BusEvent} {n : Nat} (h : Bused { s with busOpen := b } t e n) :
    Before s t :=
  ⟨h.cp, h.faulted, h.responses, h.cfg, h.host, h.resetInput, e, h.busTrace⟩

theorem Bused.issued_of_open {s t : State} {b : Bool} {e : List BusEvent} {n : Nat} (h : Bused { s with busOpen := b } t e n) :
    Issued s t e n :=
  ⟨h.busTrace, h.answers⟩

theorem Issued.trans {s t u : State} {e f : List BusEvent} {m n : Nat} (h : Issued s t e m) (g : Issued t u f n) :
    Issued s u (e ++ f) (m + n) :=
  ⟨by rw [g.trace, h.trace, List.append_assoc], fun k => by rw [g.answers, h.answers, Nat.add_assoc]⟩

/-- The response issues nothing. -/
theorem Issued.complete {s t : State} {e : List BusEvent} {n : Nat} (h : Issued s t e n) (len : Nat) (st : Status) (r : Word) :
    Issued s (t.complete len st r) e n :=
  ⟨h.trace, h.answers⟩

theorem TornDown.issued {s t : State} (h : TornDown s t) : Issued s t (teardownEvents s) (teardownAnswers s) :=
  ⟨by rw [h.eq], h.answers⟩

theorem TornDown.active {s t : State} (h : TornDown s t) : t.active = false := by rw [h.eq]

theorem TornDown.cfg {s t : State} (h : TornDown s t) : t.cfg = s.cfg := h.before.cfg

theorem TornDown.busOpen {s t : State} (h : TornDown s t) : t.busOpen = if s.active then false else s.busOpen := by rw [h.eq]

/-- With the bus open exactly while an instance is, a teardown leaves it closed. -/
theorem TornDown.busOpen_eq_false {s t : State} (h : TornDown s t) (hs : s.busOpen = s.active) : t.busOpen = false := by
  rw [h.busOpen, hs]
  cases s.active <;> rfl

/-! ## BEGIN -/

/-- The power mode of valid operands is one. -/
theorem ValidGeometry.mode_unique {cap : Option Nat} {addr w h vcc : Word} {m m' : Vcc}
    (hm : ValidGeometry cap addr w h vcc m) (hm' : ValidGeometry cap addr w h vcc m') : m = m' :=
  Option.some.inj ((validGeometry_some.mpr hm).symm.trans (validGeometry_some.mpr hm'))

/-- Two places in one sequence of answers, each the first that is not Ok, are the same. -/
theorem firstNotOk_unique {s : State} {i j : Nat} (hi : ∀ k, k < i → s.answerAt k = .ok) (hi' : s.answerAt i ≠ .ok)
    (hj : ∀ k, k < j → s.answerAt k = .ok) (hj' : s.answerAt j ≠ .ok) : i = j :=
  Nat.le_antisymm (Nat.le_of_not_lt fun h => hj' (hi j h)) (Nat.le_of_not_lt fun h => hi' (hj i h))

/-- BEGIN with valid operands brings the new instance up from the state that the teardown left (40_lifecycle R104, R106). -/
theorem exec_begin_valid {bus addr w h vcc : Word} {mode : Vcc} {s : State}
    (hv : ValidGeometry s.cfg.fbCapacity addr w h vcc mode) (ht : TeardownAnswered s) :
    ∃ u, TornDown s u ∧
      exec (.beginInst bus addr w h vcc) s = (u.allocate bus addr w h mode).bringUp bus addr h mode := by
  rcases exec_begin_cases bus addr w h vcc s with ⟨hn, -⟩ | ⟨-, -, hn, -⟩ | ⟨m, u, hm, -, hu, e⟩
  · exact absurd hv (hn mode)
  · exact absurd ht hn
  · exact ⟨u, hu, hm.mode_unique hv ▸ e⟩

/-- Allocation issues nothing: the new instance's primitives follow the teardown's. -/
theorem TornDown.issued_allocate {s u : State} (hu : TornDown s u) (bus addr w h : Word) (mode : Vcc) :
    Issued s (u.allocate bus addr w h mode) (teardownEvents s) (teardownAnswers s) :=
  ⟨hu.issued.trace, hu.issued.answers⟩

/-- The bring-up when all 28 primitives succeed (40_lifecycle R104). -/
theorem State.bringUp_ok {s : State} (bus addr h : Word) (mode : Vcc) (hk : ∀ k, k < 28 → s.answerAt k = .ok) :
    ∃ t, s.bringUp bus addr h mode = .next ((t.activate mode).complete 6 .ok 0) ∧
      Bused { s with busOpen := true } t (allOk (beginPrims s.cfg.cmd bus addr h mode)) 28 := by
  have hlen : (beginPrims s.cfg.cmd bus addr h mode).length = 28 := rfl
  rcases State.bringUp_cases s bus addr h mode with ⟨-, t⟩ | ⟨r, hf, -⟩ | ⟨j, p, r, hp, -, -, hf, -⟩ | ⟨j, hj, -, hf, -⟩
  · exact t
  · exact nomatch hf.symm.trans (hk 0 (by decide))
  · exact nomatch hf.symm.trans (hk j (hlen ▸ (List.getElem?_eq_some_iff.mp hp).1))
  · exact nomatch hf.symm.trans (hk j hj)

/-- The bring-up whose `j`-th primitive is the first to fail: it ends there, and closes the bus if it had opened it
(40_lifecycle R108). -/
theorem State.bringUp_fail {s : State} (bus addr h : Word) (mode : Vcc) {j reached : Nat} (hopen : s.busOpen = false)
    (hk : ∀ k, k < j → s.answerAt k = .ok) (hf : s.answerAt j = .fail reached) (hj : j < 28) :
    ∃ t p, s.bringUp bus addr h mode = .next (t.complete 6 .ioError 0) ∧
      (beginPrims s.cfg.cmd bus addr h mode)[j]? = some p ∧ Before s t ∧
      Issued s t (allOk ((beginPrims s.cfg.cmd bus addr h mode).take j) ++ [⟨p, outcomeOf p (.fail reached)⟩] ++
        (if j = 0 then [] else [⟨.closeBus, .ok⟩])) (j + 1) ∧
      t.active = s.active ∧ t.busOpen = false := by
  have hne : s.answerAt j ≠ .ok := by simp [hf]
  rcases State.bringUp_cases s bus addr h mode with
    ⟨hok, -⟩ | ⟨r, hr, t, e, b⟩ | ⟨i, p, r, hp, hpos, hok, hr, t, e, b⟩ | ⟨i, -, hok, hr, -⟩
  · exact absurd (hok j hj) hne
  · obtain rfl : 0 = j := firstNotOk_unique (by simp) (by simp [hr]) hk hne
    obtain rfl : r = reached := BusAnswer.fail.inj (hr.symm.trans hf)
    exact ⟨t.freeHandle, .openBus bus, e, rfl, b.before.trans t.freeHandle_before,
      ⟨b.busTrace, b.answers⟩, b.active, b.busOpen.trans hopen⟩
  · obtain rfl : i = j := firstNotOk_unique hok (by simp [hr]) hk hne
    obtain rfl : r = reached := BusAnswer.fail.inj (hr.symm.trans hf)
    refine ⟨t.release, p, e, hp, b.before_of_open.trans t.release_before, ⟨?_, b.answers⟩, b.active, rfl⟩
    rw [State.release_busTrace, b.busTrace, if_neg hpos.ne', List.append_assoc]
  · obtain rfl : i = j := firstNotOk_unique hok (by simp [hr]) hk hne
    exact nomatch hr.symm.trans hf

/-- CONTRAST of a new instance, as R110 writes it. -/
theorem defaultContrast_eq_ite (cmd : Cmd) (mode : Vcc) :
    defaultContrast cmd mode = if mode = .external then cmd.contrastExt else cmd.contrastInt := by
  cases mode <;> rfl

/-- A device address that BEGIN takes fits DEV_ADDR (40_lifecycle R105). -/
theorem toNat_devAddr {a : Int} (h0 : 0 ≤ a) (h1 : a ≤ 127) : ((BitVec.ofInt 7 a).toNat : Int) = a := by
  rw [BitVec.toNat_ofInt]
  omega

/-- Settles O23: `exec_begin_valid` reduces BEGIN to the bring-up from the torn-down state, `State.bringUp_ok` runs that; the
registers are those of `State.allocate`, which no primitive writes, and of `State.activate`. -/
theorem beginCreatesTheInstance : Obligations.BeginCreatesTheInstance := by
  intro bus addr w h vcc mode s hv ht hk
  obtain ⟨u, hu, he⟩ := exec_begin_valid (bus := bus) hv ht
  have hans : ∀ k, k < 28 → (u.allocate bus addr w h mode).answerAt k = .ok := fun k hlt => (hu.answers k).trans (hk k hlt)
  obtain ⟨t, hrun, b⟩ := State.bringUp_ok bus addr h mode hans
  have hcfg : t.cfg = s.cfg := b.cfg.trans hu.cfg
  have hhandle : t.handle = (u.allocate bus addr w h mode).handle := b.handle
  have hbefore : Before s (t.activate mode) := (hu.before.trans (u.allocate_before bus addr w h mode)).trans
    (b.before_of_open.trans (t.activate_before mode))
  have hissued : Issued s t (teardownEvents s ++ allOk (beginPrims s.cfg.cmd bus addr h mode)) (teardownAnswers s + 28) := by
    rw [← hu.cfg]
    exact (hu.issued_allocate bus addr w h mode).trans b.issued_of_open
  obtain ⟨hw, hh, -, ha0, ha1, -, -⟩ := hv
  refine ⟨(t.activate mode).complete 6 .ok 0, he.trans hrun, hbefore.completes 6 .ok, ⟨hissued.trace, hissued.answers⟩, rfl,
    b.busOpen, ?_⟩
  rw [State.complete_handle, State.activate_handle, hhandle, hcfg]
  exact ⟨Int.toNat_of_nonneg (Int.le_trans (by decide) hw), Int.toNat_of_nonneg (Int.le_trans (by decide) hh), rfl, rfl,
    toNat_devAddr ha0 ha1, Memory.wf_nil, fun _ => rfl, defaultContrast_eq_ite _ _, rfl, rfl, rfl, rfl, rfl, rfl⟩

/-- Settles O24: `exec_begin_valid` reduces BEGIN to the bring-up from the torn-down state, where no bus is open, and
`State.bringUp_fail` says how that ends. -/
theorem failedBeginReleases : Obligations.FailedBeginReleases := by
  intro bus addr w h vcc mode s j reached hv hs ht hk hf hj
  obtain ⟨u, hu, he⟩ := exec_begin_valid (bus := bus) hv ht
  have hans : ∀ k, (u.allocate bus addr w h mode).answerAt k = s.answerAt (teardownAnswers s + k) := hu.answers
  obtain ⟨t, p, hrun, hp, hbefore, hissued, hactive, hclosed⟩ := State.bringUp_fail (s := u.allocate bus addr w h mode)
    bus addr h mode (hu.busOpen_eq_false hs) (fun k hlt => (hans k).trans (hk k hlt)) ((hans j).trans hf) hj
  rw [State.allocate_cfg, hu.cfg] at hp hissued
  refine ⟨t.complete 6 .ioError 0, p, he.trans hrun,
    ((hu.before.trans (u.allocate_before bus addr w h mode)).trans hbefore).completes 6 .ioError, hp, ?_,
    hactive.trans hu.active, hclosed⟩
  simpa only [List.append_assoc, Nat.add_assoc] using
    ((hu.issued_allocate bus addr w h mode).trans hissued).complete 6 .ioError 0

/-! ## END -/

/-- Settles O26: END is the teardown (`exec_end_cases`), whose effects `TornDown` lists, and then one response. -/
theorem endTearsDown : Obligations.EndTearsDown := by
  intro s ht
  rcases exec_end_cases s with ⟨hn, -⟩ | ⟨-, u, hu, he⟩
  · exact absurd ht hn
  · have hopen := hu.busOpen
    have hhandle := hu.handle
    refine ⟨u.complete 1 .ok 0, he, hu.before.completes 1 .ok, hu.issued.complete 1 .ok 0, hu.active, fun ha => ?_,
      fun ha => ?_⟩
    · rwa [ha, if_pos rfl] at hopen
    · rw [ha] at hopen hhandle
      exact ⟨hopen, hhandle⟩

/-! ## Partial delivery -/

/-- A failed primitive of which `reached` bytes arrived, at most its whole frame, delivered that front part (R101). -/
theorem delivered_fail (p : BusPrim) (reached : Nat) :
    BusEvent.delivered ⟨p, outcomeOf p (.fail reached)⟩ = p.frame.take (min reached p.frame.length) := rfl

/-- Settles O55: `State.issue_cases` gives the one entry that a primitive adds; the answer `fail n` is the environment in which
the front part of length `n` arrives. -/
theorem failedFrameMayDeliverAnyPart : Obligations.FailedFrameMayDeliverAnyPart := by
  refine ⟨fun s t p h => ?_, fun s t p h => ?_, fun s p n hn => ?_⟩
  · rcases State.issue_cases s p with ⟨-, u, e, b⟩ | ⟨-, -, u, e, -⟩ | ⟨-, e⟩ <;> rw [e] at h <;> cases h
    exact ⟨_, b.busTrace, rfl, rfl⟩
  · rcases State.issue_cases s p with ⟨-, u, e, -⟩ | ⟨reached, -, u, e, b⟩ | ⟨-, e⟩ <;> rw [e] at h <;> cases h
    exact ⟨_, _, b.busTrace, rfl, Nat.min_le_right _ _, delivered_fail p reached⟩
  · have hans : State.answerAt { s with answers := [.fail n] } 0 = .fail n := rfl
    exact ⟨[.fail n], _, _, State.issue_fail hans, (bused_record _ _ _).busTrace, rfl, by
      rw [delivered_fail, Nat.min_eq_left hn]⟩

/-! ## The initialization sequence -/

/-- Settles O22: the two power modes are the two cases of each byte that depends on the mode. -/
theorem initializationSequence : Obligations.InitializationSequence :=
  ⟨fun cmd h mode => by cases mode <;> rfl, by decide, by decide⟩

end Sys2Proof.Machine
end

section
/-! SUPPORT. Proofs of the statements of 43_glyph_text: the loop of PRINT as a function has a result wherever its relation has one.
The relation fixes a glyph's drawing up to the bytes of the framebuffer, so the two are compared on all other registers. -/

namespace Sys2Proof.Machine

/-! ## The loop byte by byte -/

theorem DisplayHandle.printBytes_newline {d d1 : DisplayHandle} (h : d.newLine = some d1) (rom : GlyphRom)
    (rest : List Byte) : d.printBytes rom (10 :: rest) = d1.printBytes rom rest := by
  simp [DisplayHandle.printBytes, h]

theorem DisplayHandle.printBytes_carriageReturn (d : DisplayHandle) (rom : GlyphRom) (rest : List Byte) :
    d.printBytes rom (13 :: rest) = DisplayHandle.printBytes { d with cursorX := 0 } rom rest := by
  simp [DisplayHandle.printBytes]

theorem DisplayHandle.printBytes_stop {d d0 : DisplayHandle} {ch : Byte} (h10 : ch ≠ 10) (h13 : ch ≠ 13)
    (hwrap : d.wrapFirst = some d0) (hy : sext32 d0.cursorY ≥ d0.height) (rom : GlyphRom) (rest : List Byte) :
    d.printBytes rom (ch :: rest) = some d0 := by
  simp only [DisplayHandle.printBytes, if_neg h10, if_neg h13, hwrap, if_pos hy]

theorem DisplayHandle.printBytes_draw {d d0 d1 : DisplayHandle} {rom : GlyphRom} {ch : Byte} (h10 : ch ≠ 10) (h13 : ch ≠ 13)
    (hwrap : d.wrapFirst = some d0) (hy : ¬ sext32 d0.cursorY ≥ d0.height) (hput : d0.putChar rom ch = some d1)
    (rest : List Byte) : d.printBytes rom (ch :: rest) = d1.printBytes rom rest := by
  simp only [DisplayHandle.printBytes, if_neg h10, if_neg h13, hwrap, if_neg hy, hput]

/-! ## The cursor beside the framebuffer -/

/-- A new line at a cursor that can move down, on any framebuffer (43_glyph_text R189). -/
theorem DisplayHandle.newLine_withFb {d : DisplayHandle} {y : Word} (hrange : InCursorRange (d.cursorY.toInt + 8 * d.textScale))
    (hy : y.toInt = d.cursorY.toInt + 8 * d.textScale) (m : Memory) :
    DisplayHandle.newLine { d with fb := m } = some { d with fb := m, cursorX := 0, cursorY := y } :=
  DisplayHandle.newLine_some.mpr ⟨y, hrange, hy, rfl⟩

/-- The wrap neither reads nor writes the framebuffer (43_glyph_text R189). -/
theorem AfterWrap.withFb {d d0 : DisplayHandle} (h : AfterWrap d d0) (m : Memory) :
    AfterWrap { d with fb := m } { d0 with fb := m } := by
  rcases h with ⟨hneeded, y, hrange, hy, rfl⟩ | ⟨hnot, rfl⟩
  · exact .inl ⟨hneeded, y, hrange, hy, rfl⟩
  · exact .inr ⟨hnot, rfl⟩

/-- Drawing a character writes the framebuffer only (43_glyph_text R182). -/
theorem DrawsChar.registers {rom : GlyphRom} {d d' : DisplayHandle} {x y : Int} {ch : Nat} {c b : Color} {s : Nat}
    (h : DrawsChar rom d d' x y ch c b s) : d' = { d with fb := d'.fb } := by
  obtain ⟨d1, hglyph, hsame, hback⟩ := h
  by_cases hbc : b = c
  · exact hsame hbc ▸ hglyph.registers
  · exact DisplayHandle.registers_trans hglyph.registers (hback hbc).registers

/-- A glyph at a cursor that can advance, on any framebuffer: what it leaves besides the framebuffer (43_glyph_text R189). -/
theorem DisplayHandle.putChar_withFb {d : DisplayHandle} {x : Word} (hrange : InCursorRange (d.cursorX.toInt + 6 * d.textScale))
    (hx : x.toInt = d.cursorX.toInt + 6 * d.textScale) (rom : GlyphRom) (ch : Byte) (m : Memory) :
    ∃ m', DisplayHandle.putChar { d with fb := m } rom ch = some { d with fb := m', cursorX := x } :=
  ⟨_, DisplayHandle.putChar_some.mpr ⟨x, hrange, hx, by rw [DisplayHandle.drawChar_registers]⟩⟩

/-- Where a run of the spec's loop exists, the model's loop has a result, and the same registers but for the framebuffer; neither
the framebuffer nor the glyph table it starts with matters (43_glyph_text R189, R191). -/
theorem Prints.printBytes_withFb {rom : GlyphRom} {text : List Byte} {d d' : DisplayHandle} (h : Prints rom d text d')
    (rom' : GlyphRom) (m : Memory) :
    ∃ m', DisplayHandle.printBytes { d with fb := m } rom' text = some { d' with fb := m' } := by
  induction h generalizing m with
  | finish d => exact ⟨m, rfl⟩
  | newline hrange hy _ ih =>
    obtain ⟨m', hrest⟩ := ih m
    exact ⟨m', (DisplayHandle.printBytes_newline (DisplayHandle.newLine_withFb hrange hy m) _ _).trans hrest⟩
  | carriageReturn _ ih =>
    obtain ⟨m', hrest⟩ := ih m
    exact ⟨m', (DisplayHandle.printBytes_carriageReturn _ _ _).trans hrest⟩
  | stop h10 h13 hwrap hy =>
    exact ⟨m, DisplayHandle.printBytes_stop h10 h13 (DisplayHandle.wrapFirst_some.mpr (hwrap.withFb m)) hy _ _⟩
  | @draw d d0 d1 d' ch rest x h10 h13 hwrap hy hdraw hrange hx _ ih =>
    obtain ⟨m1, hput⟩ := DisplayHandle.putChar_withFb hrange hx rom' ch m
    obtain ⟨m', hrest⟩ := ih m1
    rw [hdraw.registers] at hrest
    exact ⟨m', (DisplayHandle.printBytes_draw h10 h13 (DisplayHandle.wrapFirst_some.mpr (hwrap.withFb m)) hy hput _).trans
      hrest⟩

/-- The model's loop has a result exactly where the spec's loop has a run (43_glyph_text R190). -/
theorem DisplayHandle.printBytes_eq_none_iff {rom : GlyphRom} {text : List Byte} {d : DisplayHandle} (hw : d.fb.wf) :
    d.printBytes rom text = none ↔ ¬ ∃ d', Prints rom d text d' := by
  constructor
  · rintro hnone ⟨d', h⟩
    obtain ⟨m', hsome⟩ := h.printBytes_withFb rom d.fb
    exact nomatch hnone.symm.trans hsome
  · intro hrun
    exact Option.eq_none_iff_forall_ne_some.mpr fun d' h => hrun ⟨d', DisplayHandle.printBytes_prints hw h⟩

/-! ## PRINT -/

/-- PRINT with an instance completes with what its loop leaves, or is refused where the loop has no result
(43_glyph_text R189, R190). -/
theorem exec_print_cases (n : Word) (payload : List Word) {s : State} (ha : s.active = true) :
    (∃ d, s.handle.printBytes s.cfg.glyph (textBytes n payload) = some d ∧
      exec (.print n payload) s = .next (s.drawn d (2 + (n.toNat + 3) / 4) 0)) ∨
    (s.handle.printBytes s.cfg.glyph (textBytes n payload) = none ∧ exec (.print n payload) s = .refused .cursorRange) := by
  cases hloop : s.handle.printBytes s.cfg.glyph (textBytes n payload) with
  | some d => exact .inl ⟨d, rfl, exec_offBus_some ha (by rw [offBus, hloop]; rfl)⟩
  | none =>
    rcases exec_offBus (i := .print n payload) id id ha with ⟨d, r, hrow, -⟩ | ⟨-, -, he⟩
    · rw [offBus, hloop] at hrow
      cases hrow
    · exact .inr ⟨rfl, he⟩

theorem Before.withHandle (s : State) (d : DisplayHandle) : Before s { s with handle := d } :=
  ⟨rfl, rfl, rfl, rfl, rfl, rfl, [], (List.append_nil _).symm⟩

/-- A command that writes only the instance completes with OK and RESULT 0. -/
theorem State.drawn_completes (s : State) (d : DisplayHandle) (len : Nat) : Completes s (s.drawn d len 0) len .ok 0 :=
  (Before.withHandle s d).completes len .ok

theorem State.drawn_noBus (s : State) (d : DisplayHandle) (len : Nat) (r : Word) : NoBus s (s.drawn d len r) :=
  ⟨rfl, rfl, fun _ => rfl⟩

/-- Settles O44: PRINT is its loop (`exec_print_cases`), what the loop leaves is a run of the relation (`printBytes_prints`), and
it has no result exactly where no run exists (`printBytes_eq_none_iff`). -/
theorem printFollowsItsLoop : Obligations.PrintFollowsItsLoop := by
  intro n payload s ha hw
  have hnone := DisplayHandle.printBytes_eq_none_iff (rom := s.cfg.glyph) (text := textBytes n payload) hw
  rcases exec_print_cases n payload ha with ⟨d, hloop, he⟩ | ⟨hloop, he⟩
  · rw [he, ← hnone, hloop]
    refine ⟨fun t ht => ?_, .inl ⟨_, rfl⟩, by simp⟩
    cases ht
    exact ⟨DisplayHandle.printBytes_prints hw hloop, s.drawn_completes d _, s.drawn_noBus d _ 0, rfl⟩
  · rw [he]
    exact ⟨fun t ht => (nomatch ht), .inr rfl, fun _ => hnone.mp hloop, fun _ => rfl⟩

end Sys2Proof.Machine
end

section
/-! SUPPORT. Proofs of the statements of 44_display_sync: what keeps drawing off the bus and display sync off the framebuffer.
That a command does not read the framebuffer is said as a commutation: replacing the framebuffer before it or after it is the
same. -/

namespace Sys2Proof.Machine

/-! ## Bus primitives beside the instance registers -/

/-- The states of a sequence's end, under a map. -/
def BusResult.map (g : State → State) : BusResult → BusResult
  | .ok s => .ok (g s)
  | .fail s => .fail (g s)
  | .stalled => .stalled

theorem BusResult.map_andThen {g : State → State} {k : State → BusResult} (hk : ∀ s, k (g s) = (k s).map g)
    (r : BusResult) : (r.map g).andThen k = (r.andThen k).map g := by
  cases r with
  | ok s => exact hk s
  | fail s => rfl
  | stalled => rfl

theorem State.dropAnswer_mapHandle (s : State) (f : DisplayHandle → DisplayHandle) :
    (s.mapHandle f).dropAnswer = s.dropAnswer.mapHandle f := by
  unfold State.dropAnswer
  rw [State.mapHandle_answers]
  split <;> rfl

/-- A primitive neither reads nor writes an instance register (40_lifecycle R100). -/
theorem State.issue_mapHandle (s : State) (p : BusPrim) (f : DisplayHandle → DisplayHandle) :
    (s.mapHandle f).issue p = (s.issue p).map (·.mapHandle f) := by
  unfold State.issue
  rw [State.mapHandle_answerAt, State.dropAnswer_mapHandle]
  split <;> rfl

theorem State.issueAll_mapHandle (s : State) (ps : List BusPrim) (f : DisplayHandle → DisplayHandle) :
    (s.mapHandle f).issueAll ps = (s.issueAll ps).map (·.mapHandle f) := by
  induction ps generalizing s with
  | nil => rfl
  | cons p ps ih =>
    rw [State.issueAll, State.issueAll, State.issue_mapHandle, BusResult.map_andThen ih]

/-- The end of a command, with a map that passes the command's effect: `mapHandle` always passes the response. -/
theorem BusResult.conclude_mapHandle {r : BusResult} {len : Nat} {k : State → State} {t : State}
    {f : DisplayHandle → DisplayHandle} (hk : ∀ s, k (s.mapHandle f) = (k s).mapHandle f) (h : r.conclude len k = .next t) :
    (r.map (·.mapHandle f)).conclude len k = .next (t.mapHandle f) := by
  cases r with
  | ok s =>
    cases h
    exact congrArg (fun u : State => (.next (u.done len) : Result)) (hk s)
  | fail s => cases h; rfl
  | stalled => cases h

/-! ## Display sync beside the framebuffer -/

theorem IsSync.not_isLifecycle {i : Instr} (h : IsSync i) : ¬ IsLifecycle i := by
  cases i with
  | beginInst | endInst => exact False.elim h
  | _ => exact id

/-- The instance with the bytes `m` for a framebuffer. -/
def DisplayHandle.setFb (m : Memory) (d : DisplayHandle) : DisplayHandle := { d with fb := m }

/-- FLUSH alone sends bytes of the framebuffer (44_display_sync R223). -/
theorem syncPrims_setFb {i : Instr} (hf : i ≠ .flush) (cmd : Cmd) (d : DisplayHandle) (m : Memory) :
    syncPrims cmd (d.setFb m) i = syncPrims cmd d i := by
  cases i with
  | flush => exact absurd rfl hf
  | _ => rfl

theorem syncEffect_setFb (i : Instr) (m : Memory) (s : State) :
    syncEffect i (s.mapHandle (.setFb m)) = (syncEffect i s).mapHandle (.setFb m) := by
  unfold syncEffect
  split <;> rfl

theorem syncEffect_fb (i : Instr) (s : State) : (syncEffect i s).handle.fb = s.handle.fb := by
  unfold syncEffect
  split <;> rfl

/-- No display-sync command writes the framebuffer (44_display_sync R223). -/
theorem exec_sync_fb {i : Instr} {s t : State} (hi : IsSync i) (h : exec i s = .next t) : t.handle.fb = s.handle.fb := by
  rcases exec_cases (s := s) hi.not_isLifecycle with ⟨-, e⟩ | ⟨-, hn, -⟩ | ⟨-, hn, -⟩ | ⟨-, -, -, e⟩ | ⟨-, -, -, u, e, -, b⟩ |
    ⟨-, -, -, u, j, p, r, e, -, -, -, b⟩ | ⟨-, -, -, e, -⟩
  · cases e.symm.trans h; rfl
  · exact absurd hi hn
  · exact absurd hi hn
  · cases e.symm.trans h; rfl
  · cases e.symm.trans h
    rw [State.complete_handle, syncEffect_fb, b.handle]
  · cases e.symm.trans h
    rw [State.complete_handle, b.handle]
  · cases e.symm.trans h

/-- No display-sync command but FLUSH reads the framebuffer (44_display_sync R223). -/
theorem exec_sync_setFb {i : Instr} {s t : State} (hi : IsSync i) (hf : i ≠ .flush) (m : Memory) (h : exec i s = .next t) :
    exec i (s.mapHandle (.setFb m)) = .next (t.mapHandle (.setFb m)) := by
  by_cases ha : s.active = true
  · by_cases hv : ArgumentsValid i
    · rw [exec_sync hi ha hv] at h
      have hprims : syncPrims (s.mapHandle (.setFb m)).cfg.cmd (s.mapHandle (.setFb m)).handle i =
          syncPrims s.cfg.cmd s.handle i := syncPrims_setFb hf _ _ m
      rw [exec_sync (s := s.mapHandle (.setFb m)) hi ha hv, hprims, State.issueAll_mapHandle]
      exact BusResult.conclude_mapHandle (syncEffect_setFb i m) h
    · cases (exec_badArgument ha hv).symm.trans h
      exact exec_badArgument ha hv
  · have hinactive : s.active = false := Bool.eq_false_of_not_eq_true ha
    cases (exec_inactive hi.not_isLifecycle hinactive).symm.trans h
    exact exec_inactive hi.not_isLifecycle hinactive

/-! ## Drawing beside the bus -/

theorem State.complete_noBus (s : State) (len : Nat) (st : Status) (r : Word) : NoBus s (s.complete len st r) :=
  ⟨rfl, rfl, fun _ => rfl⟩

/-- A command that is neither of the lifecycle nor of display sync issues no primitive, with an instance or without one. -/
theorem exec_offBus_noBus {i : Instr} {s t : State} (hl : ¬ IsLifecycle i) (hs : ¬ IsSync i) (h : exec i s = .next t) :
    NoBus s t := by
  by_cases ha : s.active = true
  · rcases exec_offBus hl hs ha with ⟨d, r, -, e⟩ | ⟨-, -, e⟩
    · cases e.symm.trans h
      exact s.drawn_noBus d _ r
    · cases e.symm.trans h
  · cases (exec_inactive hl (Bool.eq_false_of_not_eq_true ha)).symm.trans h
    exact s.complete_noBus _ _ _

/-- Settles O57: a command off the bus ends in its row of `offBus` or in NOT_INITIALIZED (`exec_offBus_noBus`); a display-sync
command is primitives, which pass the instance by, and then `syncEffect`, which passes the framebuffer by (`exec_sync_fb`,
`exec_sync_setFb`). -/
theorem drawingIsOffTheBus : Obligations.DrawingIsOffTheBus :=
  ⟨fun _ _ _ h hs hend hbegin => exec_offBus_noBus (not_isLifecycle hend hbegin) hs h, fun _ _ _ h hi => exec_sync_fb hi h,
    fun _ _ _ m hi hf h => exec_sync_setFb hi hf m h⟩

end Sys2Proof.Machine
end

section
/-! SUPPORT. Proofs of the statements of 60_exceptions on the errors: NOT_INITIALIZED, INVALID_ARGUMENT, and their order. -/

namespace Sys2Proof

/-! ## Illegal headers -/

theorem Opcode.code_mem_assignedOps (o : Opcode) : o.row.code.toNat ∈ Machine.assignedOps := by cases o <;> decide

theorem Opcode.usesC_iff (o : Opcode) : o.row.usesC = true ↔ o.row.code.toNat ∈ Machine.usesFieldC := by
  cases o <;> decide

theorem Opcode.usesB_iff (o : Opcode) : o.row.usesB = true ↔ o.row.code.toNat ∈ Machine.usesFieldB := by
  cases o <;> decide

theorem Color.code_ne_three (c : Color) : c.code.toNat ≠ 3 := by cases c <;> decide

end Sys2Proof

namespace Sys2Proof.Machine

/-- A header that decodes meets none of the conditions of R78. -/
theorem not_illegalHeader_of_decodeHeader_ok {h : Word} {hd : Header} (e : decodeHeader h = .ok hd) : ¬ IllegalHeader h := by
  obtain ⟨rfl, hc, hb⟩ := decodeHeader_ok.mp e
  obtain ⟨hop, hfc, hfb, hrsv⟩ := Laws.EncodedHeader.fields_encodeHeader hd.op.row.code hd.c.code hd.b.code
  rw [Opcode.usesC_iff] at hc
  rw [Opcode.usesB_iff] at hb
  unfold IllegalHeader
  rw [← headerOp_toNat, ← headerC_toNat, ← headerB_toNat, ← headerRsv_toNat, hop, hfc, hfb, hrsv]
  rintro (hcode | hr | ⟨hu, h0⟩ | ⟨hu, h0⟩ | ⟨-, h3⟩ | ⟨-, h3⟩)
  · exact hcode hd.op.code_mem_assignedOps
  · exact hr rfl
  · exact h0 (by rw [hc.resolve_left hu]; rfl)
  · exact h0 (by rw [hb.resolve_left hu]; rfl)
  · exact hd.c.code_ne_three h3
  · exact hd.b.code_ne_three h3

theorem IllegalHeader.decodeHeader_error {h : Word} (hi : IllegalHeader h) : ∃ why, decodeHeader h = .error why := by
  cases e : decodeHeader h with
  | error why => exact ⟨why, rfl⟩
  | ok hd => exact absurd hi (not_illegalHeader_of_decodeHeader_ok e)

/-- With one host, no word breaks the discipline. -/
theorem State.Ready.interleavedBelow {s : State} (hs : s.Ready) (n : Nat) : s.host.interleavedBelow n = false := by
  rw [HostStream.interleavedBelow, hs.one_host]

/-- An illegal header at CP is what the step reports (30_encoding R78). -/
theorem step_illegalHeader {s : State} {h : Word} {xs : List Word} (hs : s.Ready) (hw : s.host.words.drop s.cp = h :: xs)
    (hi : IllegalHeader h) : step s = .next (s.illegalHeader h) := by
  obtain ⟨why, e⟩ := hi.decodeHeader_error
  have hfetch : s.fetch = .illegal h := by
    rw [State.fetch, if_neg (by rw [hs.interleavedBelow]; decide), hw]
    simp only [decode_illegal.mpr e]
  rw [step_fetch hs.no_reset hs.not_faulted, hfetch]

/-! ## Errors that change nothing but the response -/

/-- The whole state after an error that comes before any effect: STATUS, RESULT, the response trace and CP, and the latch with
its new unspecified contents (10_state R34, R35). -/
theorem State.complete_zero (s : State) (len : Nat) (st : Status) : s.complete len st 0 = { s with
    status := st, result := 0, cp := s.cp + len, responses := s.responses ++ [(st, 0)],
    latch := Machine.freeLatch s.draws, draws := s.draws + 1 } := by
  simp only [State.complete, State.respond, State.freeLatch, resultFor_zero]

/-- Settles O19: `exec_inactive` answers every such command with one response from the state as it was. -/
theorem notInitialized : Obligations.NotInitialized := fun i s ha hend hbegin =>
  ⟨_, _, (exec_inactive (not_isLifecycle hend hbegin) ha).trans (congrArg _ (s.complete_zero i.len .notInitialized))⟩

/-- BEGIN with an invalid geometry, whatever the bus and whatever the instance before (40_lifecycle R104, R105). -/
theorem exec_begin_invalid {addr w h vcc : Word} {s : State}
    (hv : ∀ mode, ¬ ValidGeometry s.cfg.fbCapacity addr w h vcc mode) (bus : Word) :
    exec (.beginInst bus addr w h vcc) s = .next (s.complete 6 .invalidArgument 0) := by
  rcases exec_begin_cases bus addr w h vcc s with ⟨-, e⟩ | ⟨mode, hm, -⟩ | ⟨mode, -, hm, -⟩
  · exact e
  · exact absurd hm (hv mode)
  · exact absurd hm (hv mode)

/-! ## Where INVALID_ARGUMENT comes from -/

theorem eq_setContrast_of_not_argumentsValid {i : Instr} (hv : ¬ ArgumentsValid i) : ∃ v, i = .setContrast v := by
  cases i with
  | setContrast v => exact ⟨v, rfl⟩
  | _ => exact absurd trivial hv

/-- Bringing an instance up ends with OK or with IO_ERROR (40_lifecycle R104, R108). -/
theorem State.bringUp_status {s t : State} {bus addr h : Word} {mode : Vcc} (e : s.bringUp bus addr h mode = .next t) :
    t.status = .ok ∨ t.status = .ioError := by
  rcases State.bringUp_cases s bus addr h mode with ⟨-, u, e', -⟩ | ⟨r, -, u, e', -⟩ | ⟨j, p, r, -, -, -, -, u, e', -⟩ |
    ⟨j, -, -, -, e'⟩ <;> cases e'.symm.trans e
  · exact .inl rfl
  · exact .inr rfl
  · exact .inr rfl

/-- BEGIN raises INVALID_ARGUMENT only for its geometry. -/
theorem not_validGeometry_of_invalidArgument {bus addr w h vcc : Word} {s t : State}
    (e : exec (.beginInst bus addr w h vcc) s = .next t) (hst : t.status = .invalidArgument) :
    ∀ mode, ¬ ValidGeometry s.cfg.fbCapacity addr w h vcc mode := by
  rcases exec_begin_cases bus addr w h vcc s with ⟨hn, -⟩ | ⟨-, -, -, e'⟩ | ⟨mode, u, -, -, -, e'⟩
  · exact hn
  · cases e'.symm.trans e
  · rcases State.bringUp_status (e'.symm.trans e) with h | h <;> cases h.symm.trans hst

/-- A command that needs an instance raises INVALID_ARGUMENT only for its operands. -/
theorem not_argumentsValid_of_invalidArgument {i : Instr} {s t : State} (hl : ¬ IsLifecycle i) (e : exec i s = .next t)
    (hst : t.status = .invalidArgument) : ¬ ArgumentsValid i := by
  rcases exec_cases (s := s) hl with ⟨-, e'⟩ | ⟨-, -, d, r, -, e'⟩ | ⟨-, -, -, -, e'⟩ | ⟨-, -, hv, e'⟩ |
    ⟨-, -, -, u, e', -⟩ | ⟨-, -, -, u, j, p, r, e', -⟩ | ⟨-, -, -, e', -⟩ <;> cases e'.symm.trans e
  · cases hst
  · cases hst
  · exact hv
  · cases hst
  · cases hst

/-- Settles O21: SETCONTRAST raises it by `exec_badArgument` and BEGIN by `exec_begin_invalid`, in each case as one response from
the state as it was; every other end of a command has another status. -/
theorem invalidArgument : Obligations.InvalidArgument := by
  refine ⟨fun v s ha hv => ⟨_, _, (exec_badArgument ha hv).trans (congrArg _ (s.complete_zero 2 _))⟩,
    fun bus addr w h vcc s hv => ⟨_, _, (exec_begin_invalid hv bus).trans (congrArg _ (s.complete_zero 6 _))⟩,
    fun i s t e hst => ?_⟩
  by_cases hl : IsLifecycle i
  · cases i with
    | beginInst bus addr w h vcc => exact .inr ⟨bus, addr, w, h, vcc, rfl, not_validGeometry_of_invalidArgument e hst⟩
    | endInst =>
      rcases exec_end_cases s with ⟨-, e'⟩ | ⟨-, u, -, e'⟩ <;> cases e'.symm.trans e
      cases hst
    | _ => exact hl.elim
  · have hv := not_argumentsValid_of_invalidArgument hl e hst
    obtain ⟨v, rfl⟩ := eq_setContrast_of_not_argumentsValid hv
    exact .inl ⟨v, rfl, hv⟩

/-! ## The order of errors -/

/-- Settles O20: each error is the whole answer where no error before it in R247's order applies, with no premise on the operands
or the bus that a later one would need. The power-on block, which has no instance, orders the two errors of SETCONTRAST 256. -/
theorem errorPriority : Obligations.ErrorPriority := by
  refine ⟨fun s h xs hs hw hi => ⟨s.illegalHeader h, step_illegalHeader hs hw hi, rfl⟩, fun i s t ha hend hbegin e => ?_,
    fun v s t ha hv e => ?_, fun bus addr w h vcc s t hv e => ?_,
    ⟨State.reset.complete 2 .notInitialized 0, exec_inactive id rfl, rfl⟩⟩
  · cases (exec_inactive (not_isLifecycle hend hbegin) ha).symm.trans e
    rfl
  · cases (exec_badArgument ha hv).symm.trans e
    rfl
  · cases (exec_begin_invalid hv bus).symm.trans e
    rfl

end Sys2Proof.Machine
end

section
/-! SUPPORT. Proof of the statement of 70_reset_and_hazards on the block at power-on. -/

namespace Sys2Proof.Machine

/-- Settles O15: `State.reset` writes out each value of R41's table, STATUS as OK, whose code is 0; its bus trace is empty, so no
teardown frame or other primitive comes before the first command. The registers that R41 leaves unspecified play no part. -/
theorem resetValues : Obligations.ResetValues :=
  ⟨rfl, rfl, rfl, rfl, rfl, rfl, rfl⟩

end Sys2Proof.Machine
end

section
/-! SUPPORT. Proofs of the statements of 30_encoding and 20_memory on the codec: the decoder and the encoder are inverse to each
other, what makes a header illegal, what fixes a command's length, and the words of a byte-serial link. -/

namespace Sys2Proof

/-! ## The decoder and the encoder -/

/-- Two colours of a field that are equal where the field is used, and off where it is not, are equal. -/
theorem Color.eq_of_used {used : Bool} {c d : Color} (h : used = true → c = d) (hc : used = true ∨ c = .off)
    (hd : used = true ∨ d = .off) : c = d := by
  cases used with
  | true => exact h rfl
  | false => rw [hc.resolve_left nofun, hd.resolve_left nofun]

/-- The header of a command decodes to its opcode and its colours (30_encoding R71, R75). -/
theorem decodeHeader_encodeHeader (i : Instr) :
    decodeHeader (encodeHeader i.opcode.row.code i.fieldC.code i.fieldB.code) = .ok ⟨i.opcode, i.fieldC, i.fieldB⟩ :=
  decodeHeader_ok.mpr ⟨rfl, i.fields_used⟩

/-- Settles O1: the header decodes to the command's opcode and colours, and with these the operands are read back
(`decodeOperands_operands`). -/
theorem decodeOfEncode : Obligations.DecodeOfEncode := fun i rest h =>
  decode_command.mpr ⟨_, _, _, rfl, decodeHeader_encodeHeader i, decodeOperands_operands i rest h⟩

/-- Settles O2: the decoded command has the header's opcode and its colours where they are used (`decodeOperands_command`); where
they are not, both are off. -/
theorem encodeOfDecode : Obligations.EncodeOfDecode := by
  intro ws rest i e
  obtain ⟨h, xs, hd, rfl, hh, ho⟩ := decode_command.mp e
  obtain ⟨rfl, hc, hb⟩ := decodeHeader_ok.mp hh
  obtain ⟨hop, hfc, hfb, hwf, rfl⟩ := decodeOperands_command ho
  obtain ⟨huc, hub⟩ := i.fields_used
  rw [hop] at huc hub
  have ec : i.fieldC = hd.c := Color.eq_of_used hfc huc hc
  have eb : i.fieldB = hd.b := Color.eq_of_used hfb hub hb
  exact ⟨hwf, by rw [encode, hop, ec, eb, List.cons_append]⟩

/-- Settles O3: each written list is the encoding of its command. -/
theorem writtenWordsDecode : Obligations.WrittenWordsDecode :=
  ⟨decodeOfEncode (.setPixel .on 3 10) [] rfl, decodeOfEncode (.drawGlyph .on .inverse 0 0 0x41 1) [] rfl,
    decodeOfEncode (.setTextColor .off .on) [] rfl, decodeOfEncode (.print 0 []) [] rfl,
    decodeOfEncode (.print 9 [0x44434241, 0x48474645, 0x49]) [] rfl,
    decodeOfEncode (.beginInst 1 0x3C 0x80 0x40 2) [] rfl, decodeOfEncode .flush [] rfl⟩

/-! ## Illegal headers -/

/-- The opcode numbers are those of the map's rows (30_encoding R74). -/
theorem exists_opcode_of_mem_assignedOps {n : Nat} (h : n ∈ Machine.assignedOps) : ∃ o : Opcode, o.row.code.toNat = n := by
  have hrows : Machine.assignedOps = Opcode.all.map fun o => o.row.code.toNat := rfl
  rw [hrows] at h
  obtain ⟨o, -, ho⟩ := List.mem_map.mp h
  exact ⟨o, ho⟩

/-- A colour field is refused when it is unused and not 0, or used and 3 (30_encoding R73, R75). -/
theorem colorField_error {used : Bool} {f : BitVec 2} {why : Illegal} (h : colorField used f = .error why) :
    (used ≠ true ∧ f.toNat ≠ 0) ∨ (used = true ∧ f.toNat = 3) := by
  unfold colorField at h
  split at h
  · next hu =>
    split at h
    · cases h
    · next hnone => exact .inr ⟨hu, Color.ofCode_none.mp hnone⟩
  · next hu =>
    split at h
    · cases h
    · next h0 => exact .inl ⟨hu, fun e => h0 (BitVec.eq_of_toNat_eq e)⟩

/-- A header that the decoder refuses meets one of the conditions of R78. -/
theorem illegalHeader_of_decodeHeader_error {h : Word} {why : Illegal} (e : decodeHeader h = .error why) :
    Machine.IllegalHeader h := by
  unfold Machine.IllegalHeader
  rw [← headerOp_toNat, ← headerC_toNat, ← headerB_toNat, ← headerRsv_toNat]
  unfold decodeHeader at e
  split at e
  · next hnone =>
    refine .inl fun hmem => ?_
    obtain ⟨o, ho⟩ := exists_opcode_of_mem_assignedOps hmem
    exact Opcode.ofCode_none.mp hnone o (BitVec.eq_of_toNat_eq ho)
  · next op hop =>
    dsimp only
    rw [← Opcode.code_of_ofCode hop, ← op.usesC_iff, ← op.usesB_iff]
    split at e
    · split at e
      · cases e
      · next hc =>
        rcases colorField_error hc with hc | hc
        · exact .inr (.inr (.inl hc))
        · exact .inr (.inr (.inr (.inr (.inl hc))))
      · next hb =>
        rcases colorField_error hb with hb | hb
        · exact .inr (.inr (.inr (.inl hb)))
        · exact .inr (.inr (.inr (.inr (.inr hb))))
    · next hr => exact .inr (.inl fun h0 => hr (BitVec.eq_of_toNat_eq h0))

/-- Settles O4: one direction by the branches of `decodeHeader`, the other because a header that decodes is one of the map's. -/
theorem headerLegality : Obligations.HeaderLegality := fun _ =>
  ⟨fun ⟨_, e⟩ => illegalHeader_of_decodeHeader_error e, fun h => h.decodeHeader_error⟩

/-! ## The length of a command -/

/-- The length in terms of the opcode and the first operand word (30_encoding R77). -/
theorem Instr.len_eq (i : Instr) :
    i.len = 1 + i.opcode.row.nops + if i.opcode = .print then payloadWords (i.operands.headD 0) else 0 := by
  cases i with
  | print n payload => rfl
  | _ => rfl

/-- PRINT has an operand. -/
theorem Instr.operands_ne_nil_of_print {i : Instr} (h : i.opcode = .print) : i.operands ≠ [] := by
  cases i with
  | print n payload => exact List.cons_ne_nil n payload
  | _ => cases h

/-- The header of a decoded command, with the first word after it for PRINT, gives the length (30_encoding R77). -/
theorem decode_len {h : Word} {xs rest : List Word} {i : Instr} (e : decode (h :: xs) = .command i rest) :
    ∃ hd, decodeHeader h = .ok hd ∧
      i.len = 1 + hd.op.row.nops + if hd.op = .print then payloadWords (xs.headD 0) else 0 := by
  obtain ⟨_, _, hd, hcons, hh, ho⟩ := decode_command.mp e
  cases hcons
  obtain ⟨hop, -, -, -, rfl⟩ := decodeOperands_command ho
  refine ⟨hd, hh, ?_⟩
  rw [i.len_eq, hop]
  split
  · next hp =>
    obtain ⟨x, xs, hx⟩ := List.exists_cons_of_ne_nil (Instr.operands_ne_nil_of_print (hop.trans hp))
    rw [hx]
    rfl
  · rfl

/-- The words of a command are as many as its length (30_encoding R77). -/
theorem length_encode {i : Instr} (h : i.wf = true) : (encode i).length = i.len := by
  rw [encode, List.length_cons, Nat.add_comm, Instr.length_operands_of_wf h]

/-- Settles O5: a decoded command's words are its encoding (`encodeOfDecode`), and `decode_len` gives its length from the header
and the first word after it. -/
theorem commandLength : Obligations.CommandLength := by
  refine ⟨fun i => ?_, fun i h => length_encode h, fun ws rest i e => ?_, fun h x0 ws ws' rest rest' i i' e e' => ?_,
    fun h ws ws' rest rest' i i' hp e e' => ?_⟩
  · cases i with
    | print n payload => rfl
    | _ => rfl
  · obtain ⟨hwf, rfl⟩ := encodeOfDecode ws rest i e
    rw [List.length_append, length_encode hwf]
  · obtain ⟨hd, hh, hl⟩ := decode_len e
    obtain ⟨hd', hh', hl'⟩ := decode_len e'
    cases hh.symm.trans hh'
    rw [hl, hl', List.headD_cons, List.headD_cons]
  · obtain ⟨hd, hh, hl⟩ := decode_len e
    obtain ⟨hd', hh', hl'⟩ := decode_len e'
    cases hh.symm.trans hh'
    have hop : hd.op ≠ .print := by
      intro hprint
      obtain ⟨rfl, -, -⟩ := decodeHeader_ok.mp hh
      rw [← headerOp_toNat, (Laws.EncodedHeader.fields_encodeHeader _ _ _).1, hprint] at hp
      exact hp rfl
    rw [hl, hl', if_neg hop, if_neg hop]

/-! ## Byte-serial links -/

/-- The byte at bit `m` of a word, shifted back to its place, has the word's bits there and no others. -/
theorem getLsbD_byte_shiftLeft (w : Word) (m : Nat) {k : Nat} (hk : k < 32) :
    ((w.extractLsb' m 8).setWidth 32 <<< m).getLsbD k = (decide (m ≤ k ∧ k < m + 8) && w.getLsbD k) := by
  rw [BitVec.getLsbD_shiftLeft, BitVec.getLsbD_setWidth, BitVec.getLsbD_extractLsb']
  by_cases hm : k < m
  · simp [hm, Nat.not_le_of_lt hm]
  · have hplace : m + (k - m) = k := by omega
    have hwidth : k - m < 32 := by omega
    have hbyte : k - m < 8 ↔ m ≤ k ∧ k < m + 8 := by omega
    simp only [hk, hm, hwidth, hplace, hbyte, decide_true, decide_false, Bool.not_false, Bool.true_and]

/-- A word is put together again from its four bytes (20_memory R53). -/
theorem bytesWord_extract (w : Word) :
    bytesWord (w.extractLsb' 0 8) (w.extractLsb' 8 8) (w.extractLsb' 16 8) (w.extractLsb' 24 8) = w := by
  apply BitVec.eq_of_getLsbD_eq
  intro k hk
  have h0 := getLsbD_byte_shiftLeft w 0 hk
  rw [BitVec.shiftLeft_zero] at h0
  have hplace : ((0 ≤ k ∧ k < 0 + 8 ∨ 8 ≤ k ∧ k < 8 + 8) ∨ 16 ≤ k ∧ k < 16 + 8) ∨ 24 ≤ k ∧ k < 24 + 8 := by omega
  simp only [bytesWord, BitVec.getLsbD_or, h0, getLsbD_byte_shiftLeft w _ hk, ← Bool.and_or_distrib_right]
  rw [← Bool.decide_or, ← Bool.decide_or, ← Bool.decide_or, decide_eq_true hplace, Bool.true_and]

/-- Settles O7: one word at a time, by `bytesWord_extract`. -/
theorem serialLinkWords : Obligations.SerialLinkWords := by
  intro ws
  induction ws with
  | nil => rfl
  | cons w ws ih =>
    show bytesWord _ _ _ _ :: serialWords (ws.flatMap wordBytes) = w :: ws
    rw [ih, bytesWord_extract]

end Sys2Proof
end

section
/-! SUPPORT. Proofs of the statements on the invariant. Its part on the instance and the bus is kept by everything that can happen
before a command's response; the response then adds the part on FAULT, STATUS and RESULT. -/

namespace Sys2Proof.Machine

/-! ## The parts of the invariant -/

/-- The registers' ranges and the framebuffer's form, with an instance or without (10_state R20, R25, R31). -/
structure DisplayHandle.InRange (d : DisplayHandle) : Prop where
  fb_wf : d.fb.wf
  width : 1 ≤ d.width ∧ d.width < 2147483648
  height : 8 ≤ d.height ∧ d.height < 2147483648 ∧ d.height % 8 = 0
  scale : 1 ≤ d.textScale ∧ d.textScale < 2147483648

/-- What holds of an active instance besides (10_state R28, R33, 40_lifecycle R105). -/
structure DisplayHandle.Live (cap : Option Nat) (d : DisplayHandle) : Prop where
  addr : ∀ p ∈ d.fb, p.1 < d.fbSize
  capacity : ∀ c, cap = some c → d.fbSize ≤ c
  wrap : d.wrap = true

/-- The invariant without STATUS, RESULT and FAULT. -/
structure State.InstanceInv (s : State) : Prop where
  range : s.handle.InRange
  bus_open : s.busOpen = s.active
  bus_trace : busProtocol s.busTrace = some s.busOpen
  live : s.active = true → s.handle.Live s.cfg.fbCapacity

theorem State.Inv.instanceInv {s : State} (h : s.Inv) : s.InstanceInv where
  range := ⟨h.fb_wf, h.width_range, h.height_range, h.scale_range⟩
  bus_open := h.bus_open
  bus_trace := h.bus_trace
  live ha := ⟨h.fb_addr ha, h.fb_capacity ha, h.wrap_on ha⟩

theorem State.InstanceInv.inv {s : State} (h : s.InstanceInv) (hf : s.faulted = true ↔ s.status = .illegalCommand)
    (hr : s.status ≠ .ok → s.result = 0) : s.Inv where
  fb_wf := h.range.fb_wf
  bus_open := h.bus_open
  bus_trace := h.bus_trace
  width_range := h.range.width
  height_range := h.range.height
  scale_range := h.range.scale
  fb_addr ha := (h.live ha).addr
  fb_capacity ha := (h.live ha).capacity
  wrap_on ha := (h.live ha).wrap
  fault_status := hf
  result_zero := hr

/-- Without an instance nothing is asked of the framebuffer's addresses. -/
theorem State.InstanceInv.of_inactive {s : State} (hrange : s.handle.InRange) (ha : s.active = false) (ho : s.busOpen = false)
    (ht : busProtocol s.busTrace = some false) : s.InstanceInv where
  range := hrange
  bus_open := ho.trans ha.symm
  bus_trace := ho ▸ ht
  live h := nomatch ha.symm.trans h

/-- The response of a legal command adds the rest of the invariant (10_state R35, 60_exceptions R245). -/
theorem State.InstanceInv.complete {u : State} (h : u.InstanceInv) (hf : u.faulted = false) {st : Status}
    (hst : st ≠ .illegalCommand) (len : Nat) (r : Word) : (u.complete len st r).Inv :=
  State.InstanceInv.inv ⟨h.range, h.bus_open, h.bus_trace, h.live⟩
    ⟨fun e => absurd (hf.symm.trans e) (by decide), fun e => absurd e hst⟩ fun hok => resultFor_of_ne_ok hok r

/-- Settles O59: every field is a value that `State.reset` writes out. -/
theorem resetHasTheInvariant : Obligations.ResetHasTheInvariant :=
  State.InstanceInv.inv (.of_inactive ⟨Memory.wf_nil, by decide, by decide, by decide⟩ rfl rfl rfl) (by decide) fun _ => rfl

/-! ## The bus protocol -/

/-- The primitives that need an open handle and leave it open (40_lifecycle R109). -/
def BusPrim.NeedsOpen : BusPrim → Prop
  | .bindAddr _ | .cmdFrame _ | .dataFrame _ => True
  | .openBus _ | .closeBus => False

/-- The protocol goes on from where it is (40_lifecycle R109). -/
theorem busProtocol_append {trace : List BusEvent} {b : Bool} (h : busProtocol trace = some b) (es : List BusEvent) :
    busProtocol (trace ++ es) = es.foldlM busProtocolStep b := by
  unfold busProtocol at h ⊢
  rw [List.foldlM_append, h]
  rfl

theorem busProtocolStep_needsOpen {e : BusEvent} (h : e.prim.NeedsOpen) : busProtocolStep true e = some true := by
  obtain ⟨p, o⟩ := e
  cases p with
  | openBus | closeBus => exact h.elim
  | _ => rfl

/-- Frames keep the handle open, whatever their outcomes. -/
theorem busProtocol_needsOpen {trace es : List BusEvent} (h : busProtocol trace = some true)
    (hes : ∀ e ∈ es, e.prim.NeedsOpen) : busProtocol (trace ++ es) = some true := by
  rw [busProtocol_append h]
  induction es with
  | nil => rfl
  | cons e es ih =>
    rw [List.foldlM_cons, busProtocolStep_needsOpen (hes e List.mem_cons_self)]
    exact ih fun e he => hes e (List.mem_cons_of_mem _ he)

theorem forall_allOk {Q : BusPrim → Prop} {ps : List BusPrim} (h : ∀ p ∈ ps, Q p) : ∀ e ∈ allOk ps, Q e.prim := by
  intro e he
  obtain ⟨p, hp, rfl⟩ := List.mem_map.mp he
  exact h p hp

/-- The entries up to a failed primitive are entries of primitives of the list. -/
theorem forall_allOk_take_fail {Q : BusPrim → Prop} {ps : List BusPrim} {j : Nat} {p : BusPrim} (h : ∀ p ∈ ps, Q p)
    (hp : ps[j]? = some p) (o : BusOutcome) : ∀ e ∈ allOk (ps.take j) ++ [⟨p, o⟩], Q e.prim := by
  intro e he
  rcases List.mem_append.mp he with he | he
  · exact forall_allOk (fun p hp => h p (List.mem_of_mem_take hp)) e he
  · obtain rfl := List.mem_singleton.mp he
    exact h p (List.mem_of_getElem? hp)

theorem map_cmdFrame_needsOpen {bs : List Byte} : ∀ p ∈ bs.map BusPrim.cmdFrame, p.NeedsOpen := by
  intro p hp
  obtain ⟨b, -, rfl⟩ := List.mem_map.mp hp
  trivial

/-- Display sync sends frames only (44_display_sync R210 to R222). -/
theorem syncPrims_needsOpen (cmd : Cmd) (d : DisplayHandle) (i : Instr) : ∀ p ∈ syncPrims cmd d i, p.NeedsOpen := by
  cases i with
  | flush =>
    intro p hp
    rcases List.mem_append.mp hp with hp | hp
    · exact map_cmdFrame_needsOpen p hp
    · obtain rfl := List.mem_singleton.mp hp
      trivial
  | dim flag =>
    by_cases h : flag = 0
    · rw [syncPrims, if_pos h]
      exact nofun
    · rw [syncPrims, if_neg h]
      exact map_cmdFrame_needsOpen (bs := [_, _])
  | invert flag => exact map_cmdFrame_needsOpen (bs := [_])
  | stopScroll => exact map_cmdFrame_needsOpen (bs := [_])
  | setContrast v => exact map_cmdFrame_needsOpen (bs := [_, _])
  | scrollRight _ _ | scrollLeft _ _ | scrollDiagRight _ _ | scrollDiagLeft _ _ => exact map_cmdFrame_needsOpen
  | _ => exact nofun

/-- The primitives of BEGIN after the opening (40_lifecycle R104). -/
theorem beginPrims_tail_needsOpen (cmd : Cmd) (bus addr h : Word) (mode : Vcc) :
    ∀ p ∈ (beginPrims cmd bus addr h mode).tail, p.NeedsOpen := by
  intro p hp
  rcases List.mem_cons.mp hp with rfl | hp
  · trivial
  · exact map_cmdFrame_needsOpen p hp

/-- A teardown leaves the handle closed (40_lifecycle R111). -/
theorem TornDown.busProtocol_eq {s u : State} (hu : TornDown s u) (hs : s.InstanceInv) :
    busProtocol u.busTrace = some false := by
  have htrace := hs.bus_trace
  rw [hs.bus_open] at htrace
  rw [hu.issued.trace, busProtocol_append htrace]
  unfold teardownEvents
  cases s.active with
  | true => rfl
  | false => rfl

/-! ## The instance registers -/

/-- Unspecified registers keep their ranges (log 1). -/
theorem freeHandle_inRange (n : Nat) : (freeHandle n).InRange where
  fb_wf := Memory.ofCells_wf _
  width := by simp only [freeHandle]; omega
  height := by simp only [freeHandle]; omega
  scale := by simp only [freeHandle]; omega

theorem TornDown.handle_inRange {s u : State} (hu : TornDown s u) (hs : s.handle.InRange) : u.handle.InRange := by
  have h := hu.handle
  split at h
  · obtain ⟨n, e⟩ := h
    exact e ▸ freeHandle_inRange n
  · exact h ▸ hs

/-- A scale that SETTEXTSIZE takes is in the register's range (43_glyph_text R183, 10_state R31). -/
theorem effScale_range (v : Word) : 1 ≤ effScale v.toInt ∧ effScale v.toInt < 2147483648 := by
  have := v.toInt_lt
  unfold effScale
  split <;> omega

/-- A write inside the framebuffer lists no byte outside it. -/
theorem DisplayHandle.Live.write {cap : Option Nat} {d : DisplayHandle} (h : d.Live cap) {a : Nat} (ha : a < d.fbSize)
    (v : Byte) : DisplayHandle.Live cap { d with fb := d.fb.write a v } where
  addr p hp := by
    rcases Memory.mem_write hp with hp | ⟨rfl, -⟩
    · exact h.addr p hp
    · exact ha
  capacity := h.capacity
  wrap := h.wrap

section Induct

variable {P : DisplayHandle → Prop} (h8 : ∀ d, P d → d.height % 8 = 0)
  (write : ∀ (d : DisplayHandle) (a : Nat) (v : Byte), P d → a < d.fbSize → P { d with fb := d.fb.write a v })
include h8 write

theorem DisplayHandle.plot_induct {d : DisplayHandle} (x y : Int) (c : Color) (h : P d) : P (d.plot x y c) := by
  unfold DisplayHandle.plot
  split
  · next hi => exact write d _ _ h (d.pixIndex_lt hi (h8 d h))
  · exact h

theorem DisplayHandle.apply_induct {d : DisplayHandle} (S : PixelSet) (c : Color) (h : P d) : P (d.apply S c) := by
  induction S generalizing d with
  | nil => exact h
  | cons p S ih => exact ih (DisplayHandle.plot_induct h8 write p.1 p.2 c h)

theorem DisplayHandle.drawChar_induct {d : DisplayHandle} (rom : GlyphRom) (x y : Int) (ch : Nat) (c b : Color) (s : Nat)
    (h : P d) : P (d.drawChar rom x y ch c b s) := by
  simp only [DisplayHandle.drawChar]
  split
  · exact DisplayHandle.apply_induct h8 write _ c h
  · exact DisplayHandle.apply_induct h8 write _ b (DisplayHandle.apply_induct h8 write _ c h)

omit h8 in
theorem DisplayHandle.clear_induct {as : List Nat} {d : DisplayHandle} (ha : ∀ a ∈ as, a < d.fbSize) (h : P d) :
    P { d with fb := as.foldl (fun m a => m.write a 0x00) d.fb } := by
  induction as generalizing d with
  | nil => exact h
  | cons a as ih =>
    exact ih (d := { d with fb := d.fb.write a 0x00 }) (fun b hb => ha b (List.mem_cons_of_mem _ hb))
      (write d a 0x00 h (ha a List.mem_cons_self))

/-- What a command off the bus can do to the instance, said once: bytes of the framebuffer, the cursor, the scale within its
range, the colours (10_state R42). -/
theorem offBus_induct (cursor : ∀ (d : DisplayHandle) (x y : Word), P d → P { d with cursorX := x, cursorY := y })
    (scale : ∀ (d : DisplayHandle) (v : Word), P d → P { d with textScale := effScale v.toInt })
    (colors : ∀ (d : DisplayHandle) (c b : Color), P d → P { d with textColor := c, textBg := b })
    {rom : GlyphRom} {i : Instr} {d d' : DisplayHandle} {r : Word} (e : offBus rom d i = some (d', r)) (h : P d) : P d' := by
  cases i with
  | print n payload =>
    obtain ⟨d1, hloop, he⟩ := Option.map_eq_some_iff.mp e
    cases he
    exact DisplayHandle.printBytes_induct cursor
      (fun d ch hd => DisplayHandle.drawChar_induct h8 write rom _ _ ch _ _ _ hd) hloop h
  | beginInst | endInst | flush | invert | dim | setContrast | scrollRight | scrollLeft | scrollDiagRight | scrollDiagLeft
    | stopScroll => cases e
  | getWidth | getHeight | getPixel => cases e; exact h
  | setPixel c x y => cases e; exact DisplayHandle.plot_induct h8 write _ _ c h
  | clear => cases e; exact DisplayHandle.clear_induct write (fun a ha => List.mem_range.mp ha) h
  | drawLine c | drawRect c | fillRect c | drawCircle c | fillCircle c => cases e; exact DisplayHandle.apply_induct h8 write _ c h
  | drawGlyph c b => cases e; exact DisplayHandle.drawChar_induct h8 write rom _ _ _ c b _ h
  | setCursor x y => cases e; exact cursor d x y h
  | setTextSize v => cases e; exact scale d v h
  | setTextColor c b => cases e; exact colors d c b h

end Induct

/-- A command off the bus keeps the ranges of the instance and what holds of an active one. -/
theorem offBus_keeps {rom : GlyphRom} {i : Instr} {d d' : DisplayHandle} {r : Word} (e : offBus rom d i = some (d', r))
    {cap : Option Nat} (h : d.InRange ∧ d.Live cap) : d'.InRange ∧ d'.Live cap :=
  offBus_induct (P := fun d => d.InRange ∧ d.Live cap) (fun _ h => h.1.height.2.2)
    (fun _ _ v ⟨hr, hl⟩ ha => ⟨{ hr with fb_wf := Memory.write_wf hr.fb_wf }, hl.write ha v⟩)
    (fun _ _ _ ⟨hr, hl⟩ => ⟨{ hr with }, { hl with }⟩)
    (fun _ v ⟨hr, hl⟩ => ⟨{ hr with scale := effScale_range v }, { hl with }⟩)
    (fun _ _ _ ⟨hr, hl⟩ => ⟨{ hr with }, { hl with }⟩) e h

/-- The new instance of a BEGIN with valid operands (40_lifecycle R104, R105, R110). -/
theorem allocate_activate_handle {u t : State} {bus addr w h vcc : Word} {mode : Vcc}
    (hv : ValidGeometry u.cfg.fbCapacity addr w h vcc mode) (ht : t.handle = (u.allocate bus addr w h mode).handle) :
    (t.activate mode).handle.InRange ∧ (t.activate mode).handle.Live u.cfg.fbCapacity := by
  obtain ⟨hw, hh, h8, -, -, -, hcap⟩ := hv
  have hwlt := w.toInt_lt
  have hhlt := h.toInt_lt
  rw [State.activate_handle, ht, State.allocate_handle]
  refine ⟨⟨Memory.wf_nil, ?_, ?_, ⟨le_rfl, Nat.one_lt_ofNat⟩⟩, ⟨nofun, fun c hc => ?_, rfl⟩⟩
  · simp only [sext32]; omega
  · simp only [sext32]; omega
  · have hsize : (((sext32 w).toNat * ((sext32 h).toNat / 8) : Nat) : Int) ≤ c := by
      rw [Nat.cast_mul, Int.natCast_ediv, Int.toNat_of_nonneg (by unfold sext32; omega),
        Int.toNat_of_nonneg (by unfold sext32; omega)]
      exact hcap c hc
    exact_mod_cast hsize

/-! ## Commands and steps -/

/-- BEGIN with valid operands, from the teardown on. -/
theorem State.bringUp_keeps {u t : State} {bus addr w h vcc : Word} {mode : Vcc}
    (hv : ValidGeometry u.cfg.fbCapacity addr w h vcc mode) (ha : u.active = false) (ho : u.busOpen = false)
    (hp : busProtocol u.busTrace = some false) (hf : u.faulted = false)
    (e : (u.allocate bus addr w h mode).bringUp bus addr h mode = .next t) : t.Inv := by
  have hopened : busProtocol (u.busTrace ++ [⟨.openBus bus, .ok⟩]) = some true := busProtocol_append hp _
  have htail := beginPrims_tail_needsOpen u.cfg.cmd bus addr h mode
  rcases State.bringUp_cases (u.allocate bus addr w h mode) bus addr h mode with
    ⟨-, v, e', b⟩ | ⟨r, -, v, e', b⟩ | ⟨j, p, r, hj, hpos, -, -, v, e', b⟩ | ⟨j, -, -, -, e'⟩ <;> cases e'.symm.trans e
  · obtain ⟨hrange, hlive⟩ := allocate_activate_handle hv (b.handle : v.handle = _)
    have hopen : v.busOpen = true := b.busOpen
    have hcfg : v.cfg = u.cfg := b.cfg
    have htrace : busProtocol v.busTrace = some true := by
      rw [b.busTrace, beginPrims, allOk, List.map_cons, List.append_cons]
      exact busProtocol_needsOpen hopened (forall_allOk htail)
    exact State.InstanceInv.complete (u := v.activate mode) ⟨hrange, hopen, hopen.symm ▸ htrace, fun _ => hcfg.symm ▸ hlive⟩
      (b.faulted.trans hf) (by decide) 6 0
  · have htrace : busProtocol v.busTrace = some false := by
      rw [b.busTrace]
      exact busProtocol_append hp _
    exact (State.InstanceInv.of_inactive (s := v.freeHandle) (freeHandle_inRange _) (b.active.trans ha) (b.busOpen.trans ho)
      htrace).complete (b.faulted.trans hf) (by decide) 6 0
  · obtain ⟨k, rfl⟩ : ∃ k, j = k + 1 := ⟨j - 1, by omega⟩
    have htrace : busProtocol v.busTrace = some true := by
      rw [b.busTrace, beginPrims, List.take_succ_cons, allOk, List.map_cons, List.cons_append, List.append_cons]
      exact busProtocol_needsOpen hopened (forall_allOk_take_fail htail hj _)
    exact (State.InstanceInv.of_inactive (s := v.release) (freeHandle_inRange _) (b.active.trans ha) rfl
      (busProtocol_append htrace _)).complete (b.faulted.trans hf) (by decide) 6 0

/-- The primitives of display sync keep the bus in step with the instance. -/
theorem Bused.instanceInv {s t : State} {es : List BusEvent} {n : Nat} (b : Bused s t es n) (hs : s.InstanceInv)
    (ha : s.active = true) (hes : ∀ e ∈ es, e.prim.NeedsOpen) : t.InstanceInv where
  range := b.handle.symm ▸ hs.range
  bus_open := b.busOpen.trans (hs.bus_open.trans b.active.symm)
  bus_trace := by
    have hopen : s.busOpen = true := hs.bus_open.trans ha
    rw [b.busTrace, b.busOpen, hopen]
    exact busProtocol_needsOpen (hopen ▸ hs.bus_trace) hes
  live _ := by
    rw [b.handle, b.cfg]
    exact hs.live ha

/-- CONTRAST has no part in the invariant. -/
theorem syncEffect_instanceInv {s : State} (i : Instr) (hs : s.InstanceInv) : (syncEffect i s).InstanceInv := by
  unfold syncEffect
  split
  · exact ⟨{ hs.range with }, hs.bus_open, hs.bus_trace, fun ha => { hs.live ha with }⟩
  · exact hs

/-- Every command that completes keeps the invariant. -/
theorem exec_keeps {i : Instr} {s t : State} (hs : s.InstanceInv) (hf : s.faulted = false) (e : exec i s = .next t) :
    t.Inv := by
  by_cases hl : IsLifecycle i
  · cases i with
    | endInst =>
      rcases exec_end_cases s with ⟨-, e'⟩ | ⟨-, u, hu, e'⟩ <;> cases e'.symm.trans e
      exact (State.InstanceInv.of_inactive (hu.handle_inRange hs.range) hu.active (hu.busOpen_eq_false hs.bus_open)
        (hu.busProtocol_eq hs)).complete (hu.before.faulted.trans hf) (by decide) 1 0
    | beginInst bus addr w h vcc =>
      rcases exec_begin_cases bus addr w h vcc s with ⟨-, e'⟩ | ⟨-, -, -, e'⟩ | ⟨mode, u, hv, -, hu, e'⟩
      · cases e'.symm.trans e
        exact hs.complete hf (by decide) 6 0
      · cases e'.symm.trans e
      · exact State.bringUp_keeps (hu.cfg ▸ hv) hu.active (hu.busOpen_eq_false hs.bus_open) (hu.busProtocol_eq hs)
          (hu.before.faulted.trans hf) (e'.symm.trans e)
    | _ => exact hl.elim
  · rcases exec_cases (s := s) hl with ⟨-, e'⟩ | ⟨ha, -, d, r, hrow, e'⟩ | ⟨-, -, -, -, e'⟩ | ⟨-, -, -, e'⟩ |
      ⟨ha, -, -, u, e', -, b⟩ | ⟨ha, -, -, u, j, p, r, e', hp, -, -, b⟩ | ⟨-, -, -, e', -⟩ <;> cases e'.symm.trans e
    · exact hs.complete hf (by decide) _ 0
    · obtain ⟨hrange, hlive⟩ := offBus_keeps hrow ⟨hs.range, hs.live ha⟩
      exact State.InstanceInv.complete (u := { s with handle := d }) ⟨hrange, hs.bus_open, hs.bus_trace, fun _ => hlive⟩ hf
        (by decide) _ r
    · exact hs.complete hf (by decide) _ 0
    · exact (syncEffect_instanceInv i (b.instanceInv hs ha (forall_allOk (syncPrims_needsOpen _ _ _)))).complete
        ((syncEffect_before i u).faulted.trans (b.faulted.trans hf)) (by decide) _ 0
    · exact (b.instanceInv hs ha (forall_allOk_take_fail (syncPrims_needsOpen _ _ _) hp _)).complete (b.faulted.trans hf)
        (by decide) _ 0

/-- Settles O60: a step serves the reset input, or reports an illegal header, or runs one command (`step_cases`, `exec_keeps`). -/
theorem stepKeepsTheInvariant : Obligations.StepKeepsTheInvariant := by
  intro s t hs e
  have hi := hs.instanceInv
  rcases step_cases e with ⟨stream, u, -, -, hu, rfl⟩ | ⟨-, -, hdr, xs, w, -, -, rfl⟩ | ⟨-, hf, i, l, -, he⟩
  · refine State.InstanceInv.inv (.of_inactive (freeHandle_inRange _) rfl rfl ?_) (by simp) fun _ => rfl
    exact hu.busProtocol_eq hi
  · exact State.InstanceInv.inv ⟨hi.range, hi.bus_open, hi.bus_trace, hi.live⟩ (by simp) fun _ => rfl
  · exact exec_keeps (s := { s with latch := l }) ⟨hi.range, hi.bus_open, hi.bus_trace, hi.live⟩ hf he

end Sys2Proof.Machine
end

section
/-! SUPPORT. Proofs of the statements on a step: what the fetch finds, when a step runs a command, faults, waits or is refused, and
what every step keeps. -/

namespace Sys2Proof.Machine

/-! ## The fetch, forwards -/

theorem interleavedBelow_some {hs : HostStream} {k : Nat} (h : hs.interleaveAt = some k) (n : Nat) :
    hs.interleavedBelow n = decide (k < n) := by
  rw [HostStream.interleavedBelow, h]

/-- A whole command of the one host is fetched (30_encoding R70). -/
theorem fetch_command {s : State} {hdr : Word} {xs rest : List Word} {i : Instr} (hw : s.host.words.drop s.cp = hdr :: xs)
    (hd : decode (hdr :: xs) = .command i rest) (hi : s.host.interleavedBelow (s.cp + 1) = false)
    (hl : s.host.interleavedBelow (s.cp + i.len) = false) :
    s.fetch = .run i { s with latch := s.latch.load hdr (xs.take i.opcode.row.nops) } := by
  simp only [State.fetch, hi, hw, hd, hl, Bool.false_eq_true, if_false]

/-- A command with a word that is not the one host's is not fetched (20_memory R60). -/
theorem fetch_interleaved {s : State} {rest : List Word} {i : Instr} (hd : decode (s.host.words.drop s.cp) = .command i rest)
    (hl : s.host.interleavedBelow (s.cp + i.len) = true) : s.fetch = .interleaved := by
  unfold State.fetch
  split
  · rfl
  · cases hw : s.host.words.drop s.cp with
    | nil => rw [hw] at hd; cases hd
    | cons hdr xs =>
      rw [hw] at hd
      simp only [hd, hl, if_true]

/-- With no whole command from CP and no illegal header there is nothing to run (30_encoding R80). -/
theorem fetch_waiting {s : State} (hs : s.Ready) (hd : decode (s.host.words.drop s.cp) = .incomplete) :
    s.fetch = .waiting := by
  unfold State.fetch
  rw [hs.interleavedBelow, if_neg (by decide)]
  cases hw : s.host.words.drop s.cp with
  | nil => rfl
  | cons hdr xs =>
    rw [hw] at hd
    simp only [hd, hs.interleavedBelow, Bool.false_eq_true, if_false]

/-- The fetch finds a foreign word only where the host's input names one (log 11). -/
theorem interleaveAt_of_fetch_interleaved {s : State} (h : s.fetch = .interleaved) : s.host.interleaveAt ≠ none := by
  intro hnone
  have hbelow : ∀ n, s.host.interleavedBelow n = false := fun n => by rw [HostStream.interleavedBelow, hnone]
  unfold State.fetch at h
  rw [hbelow, if_neg (by decide)] at h
  split at h
  · cases h
  · split at h
    · cases h
    · rw [hbelow, if_neg (by decide)] at h; cases h
    · rw [hbelow, if_neg (by decide)] at h; cases h

/-! ## A step runs the command at CP -/

/-- Reading the first `n` words of a list, the default standing beyond them. -/
theorem getD_take {xs : List Word} {n : Nat} (hn : n ≤ xs.length) (k : Nat) (a : Word) :
    (xs.take n)[k]?.getD a = if k < n then xs[k]?.getD 0 else a := by
  rw [List.getElem?_take]
  split
  · next hk => rw [List.getElem?_eq_getElem (Nat.lt_of_lt_of_le hk hn), Option.getD_some, Option.getD_some]
  · rfl

/-- A decoded command has all its operand words in the stream (30_encoding R77). -/
theorem nops_le_of_decode {hdr : Word} {xs rest : List Word} {i : Instr} (h : decode (hdr :: xs) = .command i rest) :
    i.opcode.row.nops ≤ xs.length := by
  obtain ⟨-, e⟩ := encodeOfDecode _ _ _ h
  rw [encode, List.cons_append] at e
  rw [(List.cons.inj e).2, List.length_append, i.operands_length]
  omega

/-- Settles O8: the fetch finds the decoded command (`fetch_command`), and the latch it loads is the one written out. -/
theorem stepRunsTheDecodedCommand : Obligations.StepRunsTheDecodedCommand := by
  intro s i h xs rest hs hw hd
  have hn := nops_le_of_decode hd
  rw [step_fetch hs.no_reset hs.not_faulted, fetch_command hw hd (hs.interleavedBelow _) (hs.interleavedBelow _)]
  simp only [Latch.load, getD_take hn]

/-! ## FAULT -/

/-- Settles O9: an illegal header is `State.illegalHeader`; after any other header the step runs a command, which leaves FAULT
alone (`exec_next`). -/
theorem illegalHeaderFaults : Obligations.IllegalHeaderFaults := by
  refine ⟨fun s h xs hs hw hi => step_illegalHeader hs hw hi, fun s t h xs hs hw hi e => ?_,
    by unfold IllegalHeader; decide⟩
  rcases step_cases e with ⟨stream, u, hr, -⟩ | ⟨-, -, hdr, ys, w, hw', herr, -⟩ | ⟨-, hf, i, l, -, he⟩
  · exact nomatch hs.no_reset.symm.trans hr
  · cases hw.symm.trans hw'
    exact absurd (illegalHeader_of_decodeHeader_error herr) hi
  · obtain ⟨u, st, r, hb, rfl, -⟩ := exec_next he
    exact hb.faulted.trans hf

/-! ## Waits -/

/-- More words behind a command change nothing of it (30_encoding R77). -/
theorem decode_append {ws rest : List Word} {i : Instr} (h : decode ws = .command i rest) (more : List Word) :
    decode (ws ++ more) = .command i (rest ++ more) := by
  obtain ⟨hwf, rfl⟩ := encodeOfDecode _ _ _ h
  rw [List.append_assoc]
  exact decodeOfEncode i _ hwf

/-- A proper front part of a command's words is no whole command: with the words that are missing behind it, it would leave
words over (30_encoding R80). -/
theorem decode_take_encode {i : Instr} (hwf : i.wf = true) {n : Nat} (hn : n < i.len) :
    decode ((encode i).take n) = .incomplete := by
  cases hd : decode ((encode i).take n) with
  | incomplete => rfl
  | illegal why =>
    cases n with
    | zero => cases hd
    | succ n =>
      rw [encode, List.take_succ_cons, decode_illegal, decodeHeader_encodeHeader] at hd
      cases hd
  | command j rest =>
    have hwhole := decode_append hd ((encode i).drop n)
    have hself := decodeOfEncode i [] hwf
    rw [List.take_append_drop] at hwhole
    rw [List.append_nil] at hself
    rw [hself] at hwhole
    have hrest : rest ++ (encode i).drop n = [] := (Decoded.command.inj hwhole).2.symm
    have hlen := List.drop_eq_nil_iff.mp (List.append_eq_nil_iff.mp hrest).2
    rw [length_encode hwf] at hlen
    exact absurd hn (Nat.not_lt_of_le hlen)

/-- Settles O11: no whole command stands at CP (`decode_take_encode`), and its header, if there is one, is legal. -/
theorem incompleteCommandWaits : Obligations.IncompleteCommandWaits := by
  intro s hs h
  have hd : decode (s.host.words.drop s.cp) = .incomplete := by
    rcases h with hend | ⟨i, n, hwf, hn, hw⟩
    · rw [List.drop_eq_nil_of_le hend]
      rfl
    · rw [hw]
      exact decode_take_encode hwf hn
  rw [step_fetch hs.no_reset hs.not_faulted, fetch_waiting hs hd]

/-! ## The one host -/

/-- Settles O17: a word of the command, or its first word, lies at or past the foreign one in the first two clauses, and none in
the third. -/
theorem interleavedCommandRefused : Obligations.InterleavedCommandRefused := by
  intro s k hr hf hk
  have hbelow := interleavedBelow_some hk
  refine ⟨fun hcp => ?_, fun i rest hd hlt => ?_, fun i rest hd hle => ?_⟩
  · rw [step_fetch hr hf, State.fetch, if_pos (by rw [hbelow]; exact decide_eq_true (by omega))]
  · rw [step_fetch hr hf, fetch_interleaved hd (by rw [hbelow]; exact decide_eq_true hlt)]
  · have hpos : 1 ≤ i.len := by rw [i.len_eq]; omega
    obtain ⟨hdr, xs, hd', hw, -⟩ := decode_command.mp hd
    rw [hw] at hd
    exact ⟨_, by rw [step_fetch hr hf, fetch_command hw hd (by rw [hbelow]; exact decide_eq_false (by omega))
      (by rw [hbelow]; exact decide_eq_false (by omega))]⟩

/-! ## What every step keeps -/

/-- Settles O18: nothing before a response writes the configuration or the host's inputs (`exec_next`, `TornDown.before`). -/
theorem configurationIsFixed : Obligations.ConfigurationIsFixed := by
  refine ⟨fun s t e => ?_, fun s t e hr => ?_⟩
  · rcases step_cases e with ⟨stream, u, -, -, hu, rfl⟩ | ⟨-, -, hdr, xs, w, -, -, rfl⟩ | ⟨-, -, i, l, -, he⟩
    · exact hu.cfg
    · rfl
    · obtain ⟨u, st, r, hb, rfl, -⟩ := exec_next he
      exact hb.cfg
  · rcases step_cases e with ⟨stream, u, hsome, -⟩ | ⟨-, -, hdr, xs, w, -, -, rfl⟩ | ⟨-, -, i, l, -, he⟩
    · exact nomatch hr.symm.trans hsome
    · exact ⟨rfl, hr⟩
    · obtain ⟨u, st, r, hb, rfl, -⟩ := exec_next he
      exact ⟨hb.host, hb.resetInput.trans hr⟩

/-- Settles O58: a teardown and a command only add to the bus trace, and each response is added at the end. -/
theorem historiesOnlyGrow : Obligations.HistoriesOnlyGrow := by
  intro s t e
  rcases step_cases e with ⟨stream, u, -, -, hu, rfl⟩ | ⟨-, -, hdr, xs, w, -, -, rfl⟩ | ⟨-, -, i, l, -, he⟩
  · exact ⟨hu.before.trace, [], by rw [List.append_nil]; exact hu.before.responses⟩
  · exact ⟨⟨[], (List.append_nil _).symm⟩, _, rfl⟩
  · obtain ⟨u, st, r, hb, rfl, -⟩ := exec_next he
    exact ⟨hb.trace, _, by rw [State.complete_responses, hb.responses]⟩

/-! ## The reset input -/

/-- The reset input is served whatever FAULT is, unless its teardown is held (70_reset R270). -/
theorem step_reset {s u : State} {stream : HostStream} (h : s.resetInput = some stream) (hu : s.teardownIfActive = some u) :
    step s = .next { u.freeHandle.freeLatch with
      cp := 0, faulted := false, active := false, busOpen := false, status := .ok, result := 0,
      host := stream, resetInput := none } := by
  simp only [step, h, State.takeReset, hu, Option.map_some]

theorem step_reset_stalled {s : State} {stream : HostStream} (h : s.resetInput = some stream) (hu : s.teardownIfActive = none) :
    step s = .fault .transferStalled := by
  simp only [step, h, State.takeReset, hu, Option.map_none]

/-- Settles O14: the reset is the teardown (`State.teardownIfActive_some`) and then writes the control registers. -/
theorem resetInput : Obligations.ResetInput := by
  intro s stream h ht
  obtain ⟨u, hu', hu⟩ := State.teardownIfActive_some ht
  exact ⟨_, step_reset h hu', ⟨hu.issued.trace, hu.issued.answers⟩, rfl, rfl, rfl, rfl, rfl, rfl, rfl, rfl, hu.cfg,
    hu.before.responses⟩

/-! ## Refusals and stalls -/

/-- Only PRINT is refused (43_glyph_text R190). -/
theorem exec_refused {i : Instr} {s : State} {r : Refusal} (e : exec i s = .refused r) :
    r = .cursorRange ∧ ∃ n payload, i = .print n payload := by
  by_cases hl : IsLifecycle i
  · cases i with
    | endInst => rcases exec_end_cases s with ⟨-, e'⟩ | ⟨-, u, -, e'⟩ <;> cases e'.symm.trans e
    | beginInst bus addr w h vcc =>
      rcases exec_begin_cases bus addr w h vcc s with ⟨-, e'⟩ | ⟨-, -, -, e'⟩ | ⟨mode, u, -, -, -, e'⟩
      · cases e'.symm.trans e
      · cases e'.symm.trans e
      · rcases State.bringUp_cases (u.allocate bus addr w h mode) bus addr h mode with
          ⟨-, v, e'', -⟩ | ⟨-, -, v, e'', -⟩ | ⟨-, -, -, -, -, -, -, v, e'', -⟩ | ⟨-, -, -, -, e''⟩ <;>
          cases e''.symm.trans (e'.symm.trans e)
    | _ => exact hl.elim
  · rcases exec_cases (s := s) hl with ⟨-, e'⟩ | ⟨-, -, d, r, -, e'⟩ | ⟨-, -, -, hp, e'⟩ | ⟨-, -, -, e'⟩ |
      ⟨-, -, -, u, e', -⟩ | ⟨-, -, -, u, j, p, r, e', -⟩ | ⟨-, -, -, e', -⟩ <;> cases e'.symm.trans e
    exact ⟨rfl, hp⟩

theorem powerOffStalls_of_not_teardownAnswered {s : State} (h : ¬ TeardownAnswered s) : PowerOffStalls s :=
  (State.teardownIfActive_none h).2

/-- A command faults only where one of its primitives never completes (60_exceptions R249). -/
theorem exec_fault {i : Instr} {s : State} {f : Fault} (e : exec i s = .fault f) : f = .transferStalled ∧ Stalls i s := by
  by_cases hl : IsLifecycle i
  · cases i with
    | endInst =>
      rcases exec_end_cases s with ⟨ht, e'⟩ | ⟨-, u, -, e'⟩ <;> cases e'.symm.trans e
      exact ⟨rfl, .inr (.inl ⟨rfl, powerOffStalls_of_not_teardownAnswered ht⟩)⟩
    | beginInst bus addr w h vcc =>
      rcases exec_begin_cases bus addr w h vcc s with ⟨-, e'⟩ | ⟨mode, hv, ht, e'⟩ | ⟨mode, u, hv, ht, hu, e'⟩
      · cases e'.symm.trans e
      · cases e'.symm.trans e
        exact ⟨rfl, .inr (.inr ⟨bus, addr, w, h, vcc, mode, rfl, hv, .inl (powerOffStalls_of_not_teardownAnswered ht)⟩)⟩
      · have hans : ∀ k, (u.allocate bus addr w h mode).answerAt k = s.answerAt (teardownAnswers s + k) := hu.answers
        rcases State.bringUp_cases (u.allocate bus addr w h mode) bus addr h mode with
          ⟨-, v, e'', -⟩ | ⟨-, -, v, e'', -⟩ | ⟨-, -, -, -, -, -, -, v, e'', -⟩ | ⟨j, hj, hok, hnever, e''⟩ <;>
          cases e''.symm.trans (e'.symm.trans e)
        exact ⟨rfl, .inr (.inr ⟨bus, addr, w, h, vcc, mode, rfl, hv, .inr ⟨ht, j, hj, fun k hk => (hans k).symm.trans (hok k hk),
          (hans j).symm.trans hnever⟩⟩)⟩
    | _ => exact hl.elim
  · rcases exec_cases (s := s) hl with ⟨-, e'⟩ | ⟨-, -, d, r, -, e'⟩ | ⟨-, -, -, -, e'⟩ | ⟨-, -, -, e'⟩ |
      ⟨-, -, -, u, e', -⟩ | ⟨-, -, -, u, j, p, r, e', -⟩ | ⟨ha, hs, hv, e', hstall⟩ <;> cases e'.symm.trans e
    exact ⟨rfl, .inl ⟨hs, ha, hv, hstall⟩⟩

/-- A step that neither serves the reset input nor is halted is what its fetch finds; it is refused for PRINT or a foreign word. -/
theorem step_refused {s : State} {r : Refusal} (e : step s = .refused r) :
    r = .cursorRange ∨ (r = .hostInterleave ∧ s.host.interleaveAt ≠ none) := by
  cases hr : s.resetInput with
  | some stream =>
    cases hu : s.teardownIfActive with
    | some u => cases (step_reset hr hu).symm.trans e
    | none => cases (step_reset_stalled hr hu).symm.trans e
  | none =>
    cases hf : s.faulted with
    | true => simp [step, hr, hf] at e
    | false =>
      rw [step_fetch hr hf] at e
      cases he : s.fetch with
      | run i u => rw [he] at e; exact .inl (exec_refused e).1
      | illegal hdr => rw [he] at e; cases e
      | waiting => rw [he] at e; cases e
      | interleaved => rw [he] at e; cases e; exact .inr ⟨rfl, interleaveAt_of_fetch_interleaved he⟩

/-- A step is held by the teardown of the reset input or by the command at CP, whose stalling does not depend on the latch that
the fetch loads. -/
theorem step_stalled {s : State} (e : step s = .fault .transferStalled) :
    (s.resetInput ≠ none ∧ PowerOffStalls s) ∨
    (s.resetInput = none ∧ ∃ i rest, decode (s.host.words.drop s.cp) = .command i rest ∧ Stalls i s) := by
  cases hr : s.resetInput with
  | some stream =>
    by_cases ht : TeardownAnswered s
    · obtain ⟨u, hu, -⟩ := State.teardownIfActive_some ht
      cases (step_reset hr hu).symm.trans e
    · exact .inl ⟨nofun, powerOffStalls_of_not_teardownAnswered ht⟩
  | none =>
    cases hf : s.faulted with
    | true => simp [step, hr, hf] at e
    | false =>
      rw [step_fetch hr hf] at e
      cases he : s.fetch with
      | run i u =>
        rw [he] at e
        obtain ⟨hdr, xs, rest, hw, hd, -, rfl⟩ := fetch_run he
        exact .inr ⟨rfl, i, rest, hw.symm ▸ hd, (exec_fault e).2⟩
      | illegal hdr => rw [he] at e; cases e
      | waiting => rw [he] at e; cases e
      | interleaved => rw [he] at e; cases e

/-- Settles O16: the four clauses are what a command and a step can be refused for and held by. -/
theorem onlyTheSpecsStops : Obligations.OnlyTheSpecsStops :=
  ⟨fun _ _ _ e => exec_refused e, fun _ _ e => step_refused e, fun _ _ _ e => exec_fault e, fun _ e => step_stalled e⟩

/-- The bring-up whose first primitive without success never completes (40_lifecycle R102). -/
theorem State.bringUp_never {s : State} (bus addr h : Word) (mode : Vcc) {j : Nat} (hj : j < 28)
    (hk : ∀ k, k < j → s.answerAt k = .ok) (hn : s.answerAt j = .never) :
    s.bringUp bus addr h mode = .fault .transferStalled := by
  have hne : s.answerAt j ≠ .ok := by simp [hn]
  rcases State.bringUp_cases s bus addr h mode with
    ⟨hok, -⟩ | ⟨r, hr, -⟩ | ⟨i, p, r, -, -, hok, hr, -⟩ | ⟨-, -, -, -, e⟩
  · exact absurd (hok j hj) hne
  · obtain rfl : 0 = j := firstNotOk_unique (by simp) (by simp [hr]) hk hne
    exact nomatch hr.symm.trans hn
  · obtain rfl : i = j := firstNotOk_unique hok (by simp [hr]) hk hne
    exact nomatch hr.symm.trans hn
  · exact e

theorem PowerOffStalls.not_teardownAnswered {s : State} (h : PowerOffStalls s) : ¬ TeardownAnswered s :=
  fun ht => ht h.1 h.2

/-- A command one of whose primitives never completes is held (40_lifecycle R102). -/
theorem exec_of_stalls {i : Instr} {s : State} (h : Stalls i s) : exec i s = .fault .transferStalled := by
  rcases h with ⟨hs, ha, hv, j, hj, hok, hn⟩ | ⟨rfl, hp⟩ | ⟨bus, addr, w, h, vcc, mode, rfl, hv, hp | ⟨ht, j, hj, hok, hn⟩⟩
  · rw [Nat.zero_add] at hn
    rw [exec_sync hs ha hv, State.issueAll_never hj (fun k hk => by simpa using hok k hk) hn]
    rfl
  · rcases exec_end_cases s with ⟨-, e⟩ | ⟨ht, -⟩
    · exact e
    · exact absurd ht hp.not_teardownAnswered
  · rcases exec_begin_cases bus addr w h vcc s with ⟨hn, -⟩ | ⟨-, -, -, e⟩ | ⟨-, -, -, ht, -⟩
    · exact absurd hv (hn mode)
    · exact e
    · exact absurd ht hp.not_teardownAnswered
  · obtain ⟨u, hu, e⟩ := exec_begin_valid (bus := bus) hv ht
    rw [e]
    exact State.bringUp_never bus addr h mode hj (fun k hk => (hu.answers k).trans (hok k hk)) ((hu.answers j).trans hn)

/-- Settles O54: the command is held (`exec_of_stalls`), the step that fetches it with it, and so is the teardown of the reset
input. -/
theorem stalledFrameHoldsTheEngine : Obligations.StalledFrameHoldsTheEngine := by
  refine ⟨fun i s h => exec_of_stalls h, fun s i rest hs hd h => ?_, fun s stream hr hp =>
    step_reset_stalled hr (State.teardownIfActive_none hp.not_teardownAnswered).1⟩
  obtain ⟨hdr, xs, -, hw, -, -⟩ := decode_command.mp hd
  rw [step_fetch hs.no_reset hs.not_faulted,
    fetch_command hw (hw ▸ hd) (hs.interleavedBelow _) (hs.interleavedBelow _)]
  exact exec_of_stalls h

end Sys2Proof.Machine
end

section
/-! SUPPORT. Proof of the statement of 10_state on FAULT. That no command reads or writes FAULT is said as a commutation: setting it
before a command or after it is the same. -/

namespace Sys2Proof.Machine

/-- The state with FAULT set to `b`. -/
def State.setFault (b : Bool) (s : State) : State := { s with faulted := b }

/-- What a command answers, with a map over the next state. -/
def mapNext (g : State → State) : Result → Result
  | .next s => .next (g s)
  | .fault f => .fault f
  | .refused r => .refused r

/-! ## Bus primitives beside FAULT -/

theorem State.dropAnswer_setFault (s : State) (b : Bool) : (s.setFault b).dropAnswer = s.dropAnswer.setFault b := by
  cases h : s.answers <;> simp [State.dropAnswer, State.setFault, h]

theorem State.issue_setFault (s : State) (p : BusPrim) (b : Bool) :
    (s.setFault b).issue p = (s.issue p).map (.setFault b) := by
  have hans : (s.setFault b).answerAt 0 = s.answerAt 0 := rfl
  unfold State.issue
  rw [hans, State.dropAnswer_setFault]
  split <;> rfl

theorem State.issueAll_setFault (s : State) (ps : List BusPrim) (b : Bool) :
    (s.setFault b).issueAll ps = (s.issueAll ps).map (.setFault b) := by
  induction ps generalizing s with
  | nil => rfl
  | cons p ps ih => rw [State.issueAll, State.issueAll, State.issue_setFault, BusResult.map_andThen ih]

theorem State.teardownIfActive_setFault (s : State) (b : Bool) :
    (s.setFault b).teardownIfActive = s.teardownIfActive.map (.setFault b) := by
  have hissue : (s.setFault b).issue (.cmdFrame (s.setFault b).cfg.cmd.displayOff) =
      (s.issue (.cmdFrame s.cfg.cmd.displayOff)).map (.setFault b) := s.issue_setFault _ b
  have hactive : (s.setFault b).active = s.active := rfl
  unfold State.teardownIfActive State.teardown
  rw [hissue, hactive]
  split
  · cases s.issue (.cmdFrame s.cfg.cmd.displayOff) <;> rfl
  · rfl

theorem State.bringUp_setFault (s : State) (bus addr h : Word) (mode : Vcc) (b : Bool) :
    (s.setFault b).bringUp bus addr h mode = mapNext (.setFault b) (s.bringUp bus addr h mode) := by
  unfold State.bringUp
  rw [State.issue_setFault]
  cases s.issue (.openBus bus) with
  | stalled => rfl
  | fail s1 => rfl
  | ok s1 =>
    have hinit : ∀ s2 : State, (s2.setFault b).sendSeq (initSeq (s2.setFault b).cfg.cmd (sext32 h) mode) =
        (s2.sendSeq (initSeq s2.cfg.cmd (sext32 h) mode)).map (.setFault b) := by
      intro s2
      rw [State.sendSeq_eq, State.sendSeq_eq]
      exact s2.issueAll_setFault _ b
    have hbind := State.issue_setFault { s1 with busOpen := true } (.bindAddr (BitVec.ofInt 7 (sext32 addr))) b
    have hseq := BusResult.map_andThen (k := fun s2 => s2.sendSeq (initSeq s2.cfg.cmd (sext32 h) mode)) hinit
      (State.issue { s1 with busOpen := true } (.bindAddr (BitVec.ofInt 7 (sext32 addr))))
    have hopen : ({ s1.setFault b with busOpen := true } : State) = State.setFault b { s1 with busOpen := true } := rfl
    rw [← hbind] at hseq
    simp only [BusResult.map]
    rw [hopen, hseq]
    generalize BusResult.andThen _ _ = r
    cases r <;> rfl

/-! ## Commands beside FAULT -/

theorem exec_lifecycle_setFault {i : Instr} (hl : IsLifecycle i) (s : State) (b : Bool) :
    exec i (s.setFault b) = mapNext (.setFault b) (exec i s) := by
  cases i with
  | endInst =>
    simp only [exec, execEndInst, State.teardownIfActive_setFault]
    cases s.teardownIfActive <;> rfl
  | beginInst bus addr w h vcc =>
    have hcfg : (s.setFault b).cfg = s.cfg := rfl
    simp only [exec, execBeginInst, State.teardownIfActive_setFault, hcfg]
    cases validGeometry s.cfg.fbCapacity (sext32 w) (sext32 h) (sext32 addr) (sext32 vcc) with
    | none => rfl
    | some mode =>
      cases s.teardownIfActive with
      | none => rfl
      | some u => exact (u.allocate bus addr w h mode).bringUp_setFault bus addr h mode b
  | _ => exact hl.elim

theorem exec_sync_setFault {i : Instr} {s : State} (hi : IsSync i) (ha : s.active = true) (hv : ArgumentsValid i) (b : Bool) :
    exec i (s.setFault b) = mapNext (.setFault b) (exec i s) := by
  have heffect : ∀ u, syncEffect i (State.setFault b u) = (syncEffect i u).setFault b := by
    intro u
    unfold syncEffect
    split <;> rfl
  have hissue : (s.setFault b).issueAll (syncPrims (s.setFault b).cfg.cmd (s.setFault b).handle i) =
      (s.issueAll (syncPrims s.cfg.cmd s.handle i)).map (.setFault b) := s.issueAll_setFault _ b
  rw [exec_sync hi ha hv, exec_sync (s := s.setFault b) hi ha hv, hissue]
  cases s.issueAll (syncPrims s.cfg.cmd s.handle i) with
  | ok u => exact congrArg (fun u : State => (.next (u.done i.len) : Result)) (heffect u)
  | fail u => rfl
  | stalled => rfl

theorem exec_offBus_setFault {i : Instr} {s : State} (hl : ¬ IsLifecycle i) (hs : ¬ IsSync i) (ha : s.active = true) (b : Bool) :
    exec i (s.setFault b) = mapNext (.setFault b) (exec i s) := by
  rcases exec_offBus hl hs ha with ⟨d, r, hrow, e⟩ | ⟨hrow, -, e⟩
  · rw [e]
    exact exec_offBus_some (s := s.setFault b) ha hrow
  · rcases exec_offBus (s := s.setFault b) hl hs ha with ⟨d, r, hrow', -⟩ | ⟨-, -, e'⟩
    · cases hrow.symm.trans hrow'
    · rw [e, e']
      rfl

/-- No command reads or writes FAULT (10_state R22). -/
theorem exec_setFault (i : Instr) (s : State) (b : Bool) :
    exec i (s.setFault b) = mapNext (.setFault b) (exec i s) := by
  by_cases hl : IsLifecycle i
  · exact exec_lifecycle_setFault hl s b
  · rcases Bool.eq_false_or_eq_true s.active with ha | ha
    · by_cases hs : IsSync i
      · by_cases hv : ArgumentsValid i
        · exact exec_sync_setFault hs ha hv b
        · rw [exec_badArgument ha hv, exec_badArgument (s := s.setFault b) ha hv]
          rfl
      · exact exec_offBus_setFault hl hs ha b
    · rw [exec_inactive hl ha, exec_inactive (s := s.setFault b) hl ha]
      rfl

/-- Settles O10: a halted engine is the first test of `step`; by `step_cases` FAULT is set in an illegal header alone and cleared
by the reset alone, and commands pass it by (`exec_setFault`). -/
theorem faultHaltsTheEngine : Obligations.FaultHaltsTheEngine := by
  refine ⟨fun s hf hr => by simp [step, hr, hf], fun s t e hf ht => ?_, fun s t e hf => ?_, fun i s t b e => ?_⟩
  · rcases step_cases e with ⟨stream, u, -, -, -, rfl⟩ | ⟨hr, -, hdr, xs, w, hw, herr, -⟩ | ⟨-, -, i, l, -, he⟩
    · cases ht
    · exact ⟨hr, hdr, xs, hw, illegalHeader_of_decodeHeader_error herr⟩
    · obtain ⟨u, st, r, hb, rfl, -⟩ := exec_next he
      exact nomatch ht.symm.trans (hb.faulted.trans hf)
  · rcases step_cases e with ⟨stream, u, hr, -, -, rfl⟩ | ⟨-, hn, -⟩ | ⟨-, hn, -⟩
    · exact ⟨by rw [hr]; nofun, rfl⟩
    · exact nomatch hf.symm.trans hn
    · exact nomatch hf.symm.trans hn
  · obtain ⟨u, st, r, hb, rfl, -⟩ := exec_next e
    exact ⟨hb.faulted, (exec_setFault i s b).trans (by rw [e]; rfl)⟩

end Sys2Proof.Machine
end

section
/-! SUPPORT. Proofs of the statements of 40_lifecycle on BEGIN's bus trace and the getters, and of 41_pixel. -/

namespace Sys2Proof.Machine

/-! ## BEGIN's bus trace -/

/-- Bringing an instance up adds its 28 primitives, or a front part whose last one failed and then the closing, which comes only
when the bus had been opened (40_lifecycle R108, R109). -/
theorem State.bringUp_trace {s t : State} {bus addr h : Word} {mode : Vcc} (e : s.bringUp bus addr h mode = .next t) :
    t.busTrace = s.busTrace ++ allOk (beginPrims s.cfg.cmd bus addr h mode) ∨
    ∃ j p n, (beginPrims s.cfg.cmd bus addr h mode)[j]? = some p ∧
      t.busTrace = s.busTrace ++ allOk ((beginPrims s.cfg.cmd bus addr h mode).take j) ++ [⟨p, .fail n⟩] ++
        (if j = 0 then [] else [⟨.closeBus, .ok⟩]) := by
  rcases State.bringUp_cases s bus addr h mode with
    ⟨-, v, e', b⟩ | ⟨r, -, v, e', b⟩ | ⟨j, p, r, hj, hpos, -, -, v, e', b⟩ | ⟨j, -, -, -, e'⟩ <;> cases e'.symm.trans e
  · exact .inl b.busTrace
  · refine .inr ⟨0, .openBus bus, min r (BusPrim.openBus bus).frame.length, rfl, ?_⟩
    rw [State.complete_busTrace, State.freeHandle_busTrace, b.busTrace, if_pos rfl, List.append_nil, List.take_zero, allOk,
      List.map_nil, List.append_nil]
    rfl
  · refine .inr ⟨j, p, min r p.frame.length, hj, ?_⟩
    rw [State.complete_busTrace, State.release_busTrace, b.busTrace, if_neg hpos.ne', ← List.append_assoc]
    rfl

/-- Settles O25: BEGIN's trace is the teardown's (`TornDown.issued`) and then the bring-up's (`State.bringUp_trace`). -/
theorem beginBusTrace : Obligations.BeginBusTrace := by
  intro bus addr w h vcc s t e
  rcases exec_begin_cases bus addr w h vcc s with ⟨hn, e'⟩ | ⟨-, -, -, e'⟩ | ⟨mode, u, hv, -, hu, e'⟩
  · cases e'.symm.trans e
    exact .inl ⟨hn, rfl⟩
  · cases e'.symm.trans e
  · refine .inr ⟨mode, hv, ?_⟩
    have htrace := State.bringUp_trace (e'.symm.trans e)
    rw [State.allocate_busTrace, State.allocate_cfg, hu.issued.trace, hu.cfg] at htrace
    exact htrace

/-! ## Commands off the bus -/

theorem State.drawn_completes_result (s : State) (d : DisplayHandle) (len : Nat) (r : Word) :
    Completes s (s.drawn d len r) len .ok r :=
  ⟨rfl, rfl, rfl, rfl, rfl, rfl, rfl, rfl⟩

/-- A command off the bus completes with OK, the RESULT of its row and the instance of its row. -/
theorem exec_offBus_completes {i : Instr} {s : State} {d : DisplayHandle} {r : Word} (ha : s.active = true)
    (e : offBus s.cfg.glyph s.handle i = some (d, r)) :
    ∃ t, exec i s = .next t ∧ Completes s t i.len .ok r ∧ NoBus s t ∧ t.active = s.active ∧ t.handle = d :=
  ⟨s.drawn d i.len r, exec_offBus_some ha e, s.drawn_completes_result d _ r, s.drawn_noBus d _ r, rfl, rfl⟩

/-- A command that only reads completes with OK, what it read and the same instance. -/
theorem exec_offBus_reads {i : Instr} {s : State} {r : Word} (ha : s.active = true)
    (e : offBus s.cfg.glyph s.handle i = some (s.handle, r)) :
    ∃ t, exec i s = .next t ∧ NoBus s t ∧ SameInstance s t ∧ Completes s t i.len .ok r := by
  obtain ⟨t, he, hc, hb, hactive, hhandle⟩ := exec_offBus_completes ha e
  exact ⟨t, he, hb, ⟨hactive, hhandle⟩, hc⟩

/-- A getter whose value fits a word gives that value. -/
theorem exec_getter {i : Instr} {s : State} {n : Nat} (hn : n < 4294967296) (ha : s.active = true)
    (e : offBus s.cfg.glyph s.handle i = some (s.handle, BitVec.ofNat 32 n)) :
    ∃ t, exec i s = .next t ∧ Completes s t i.len .ok t.result ∧ t.result.toNat = n ∧ NoBus s t ∧ SameInstance s t := by
  obtain ⟨t, he, hb, hs, hc⟩ := exec_offBus_reads ha e
  exact ⟨t, he, hc.result.symm ▸ hc, by rw [hc.result, BitVec.toNat_ofNat, Nat.mod_eq_of_lt hn], hb, hs⟩

/-- Settles O27: both are rows of `offBus` that only read. -/
theorem geometryGetters : Obligations.GeometryGetters := fun _ ha hw hh =>
  ⟨exec_getter hw ha rfl, exec_getter hh ha rfl⟩

/-- A command that draws completes with OK and RESULT 0 and its drawing. -/
theorem exec_draws {i : Instr} {s : State} {d : DisplayHandle} {S : Int → Int → Prop} {c : Color} (ha : s.active = true)
    (e : offBus s.cfg.glyph s.handle i = some (d, 0)) (hd : Drawn s.handle d S c) :
    ∃ t, exec i s = .next t ∧ Completes s t i.len .ok 0 ∧ NoBus s t ∧ t.active = s.active ∧ Drawn s.handle t.handle S c := by
  obtain ⟨t, he, hc, hb, hactive, rfl⟩ := exec_offBus_completes ha e
  exact ⟨t, he, hc, hb, hactive, hd⟩

/-! ## Pixel access -/

/-- Settles O29: the drawing is one `plot`. -/
theorem setPixelPaintsOnePixel : Obligations.SetPixelPaintsOnePixel := fun c _ _ _ ha hw =>
  exec_draws ha rfl (DisplayHandle.plot_drawn _ _ c hw)

theorem toNat_toInt {v : Word} (h : 0 ≤ v.toInt) : v.toInt.toNat = v.toNat := by
  rw [BitVec.toInt_eq_toNat_cond] at h ⊢
  have := v.isLt
  split at h <;> omega

/-- A pixel whose coordinates are operands, by the operands' values (20_memory R51). -/
theorem DisplayHandle.pixel_word {d : DisplayHandle} {x y : Word} (h : d.InBounds x.toInt y.toInt) :
    d.pixel x.toInt y.toInt = (d.fb.read (x.toNat + (y.toNat / 8) * d.width)).getLsbD (y.toNat % 8) := by
  rw [DisplayHandle.pixel_eq h, DisplayHandle.pixIndex, pixBit, toNat_toInt h.1, toNat_toInt h.2.2.1]

/-- Settles O30: inside the panel the pixel is its bit, outside it reads as off. -/
theorem getPixelReadsTheBit : Obligations.GetPixelReadsTheBit := by
  intro x y s ha
  have hr : (if s.handle.pixel x.toInt y.toInt then (1 : Word) else 0) =
      if 0 ≤ x.toInt ∧ x.toInt < s.handle.width ∧ 0 ≤ y.toInt ∧ y.toInt < s.handle.height ∧
        (s.handle.fb.read (x.toNat + (y.toNat / 8) * s.handle.width)).getLsbD (y.toNat % 8) = true then 1 else 0 := by
    refine if_congr ?_ rfl rfl
    by_cases hin : s.handle.InBounds x.toInt y.toInt
    · rw [DisplayHandle.pixel_word hin]
      exact ⟨fun h => ⟨hin.1, hin.2.1, hin.2.2.1, hin.2.2.2, h⟩, fun h => h.2.2.2.2⟩
    · rw [DisplayHandle.pixel_outside hin]
      exact ⟨nofun, fun ⟨h1, h2, h3, h4, _⟩ => absurd ⟨h1, h2, h3, h4⟩ hin⟩
  rw [← hr]
  exact exec_offBus_reads ha rfl

/-- Settles O31: 0x00 is written over the addresses of the framebuffer (`Memory.foldl_clear`). -/
theorem clearBlanksTheBuffer : Obligations.ClearBlanksTheBuffer := by
  intro s ha hw
  obtain ⟨hwf, hread⟩ := Memory.foldl_clear (List.range s.handle.fbSize) hw
  obtain ⟨t, he, hc, hb, hactive, hhandle⟩ := exec_offBus_completes (i := .clear) ha rfl
  refine ⟨t, he, hc, hb, hactive, by rw [hhandle], ?_⟩
  rw [hhandle]
  refine ⟨hwf, fun a hlt => ?_, fun a hge => ?_⟩
  · exact (hread a).trans (if_pos (List.mem_range.mpr hlt))
  · exact (hread a).trans (if_neg fun h => hge (List.mem_range.mp h))

/-! ## The pixel laws -/

/-- The bits of the framebuffer after a `plot`: its pixel's alone may change (41_pixel R131). -/
theorem DisplayHandle.plot_bit {d : DisplayHandle} {x y : Int} {c : Color} (hw : d.fb.wf) {a k : Nat}
    (h : ¬ (a = d.pixIndex x y ∧ k = pixBit y)) : ((d.plot x y c).fb.read a).getLsbD k = (d.fb.read a).getLsbD k := by
  unfold DisplayHandle.plot
  split
  · rw [Memory.read_write hw]
    split
    · next ha =>
      rw [paint_bit, if_neg fun hk => h ⟨ha, hk⟩, ha]
    · rfl
  · rfl

/-- Inverting a pixel twice restores the framebuffer (41_pixel R136). -/
theorem DisplayHandle.plot_inverse_twice {d : DisplayHandle} {x y : Int} (hw : d.fb.wf) (hin : d.InBounds x y) :
    ((d.plot x y .inverse).plot x y .inverse).fb = d.fb := by
  have hplot : ∀ m : Memory, DisplayHandle.plot { d with fb := m } x y .inverse =
      { d with fb := m.write (d.pixIndex x y) (m.read (d.pixIndex x y) ^^^ pixMask y) } := fun m => if_pos hin
  rw [hplot d.fb, hplot]
  refine Memory.ext_read (Memory.write_wf (Memory.write_wf hw)) hw fun a => ?_
  simp only [Memory.read_write (Memory.write_wf hw), Memory.read_write hw, if_true, BitVec.xor_assoc, BitVec.xor_self,
    BitVec.xor_zero]
  split
  · next ha => rw [ha]
  · rfl

/-- A pixel of the panel that is painted and then read (41_pixel R136). -/
theorem exec_setPixel_getPixel {x y : Word} {s : State} (ha : s.active = true) (hw : s.handle.fb.wf)
    (hin : s.handle.InBounds x.toInt y.toInt) (c : Color) :
    ∃ t u, exec (.setPixel c x y) s = .next t ∧ exec (.getPixel x y) t = .next u ∧ u.status = .ok ∧
      u.result = if lights c (s.handle.pixel x.toInt y.toInt) then 1 else 0 := by
  obtain ⟨t, he, -, -, hactive, hd⟩ := setPixelPaintsOnePixel c x y s ha hw
  obtain ⟨u, hu, -, -, hc⟩ := exec_offBus_reads (i := .getPixel x y) (hactive.trans ha) rfl
  refine ⟨t, u, he, hu, hc.status, ?_⟩
  rw [hc.result, hd.inside _ _ hin ⟨rfl, rfl⟩]

/-- Settles O32: inside the panel, painting and reading meet in one bit (`exec_setPixel_getPixel`, `plot_inverse_twice`,
`plot_bit`); outside it `plot` does nothing. -/
theorem pixelLaws : Obligations.PixelLaws := by
  intro x y s ha hw
  have hset : ∀ (c : Color) (s : State), s.active = true →
      exec (.setPixel c x y) s = .next (s.drawn (s.handle.plot x.toInt y.toInt c) 3 0) :=
    fun _ _ ha => exec_offBus_some ha rfl
  refine ⟨fun hin => ⟨exec_setPixel_getPixel ha hw hin .on, exec_setPixel_getPixel ha hw hin .off,
    ⟨_, _, hset .inverse s ha, hset .inverse _ ha, DisplayHandle.plot_inverse_twice hw hin⟩, fun c t e a k hak => ?_⟩,
    fun hout => ⟨fun c => ⟨_, hset c s ha, ?_⟩, ?_⟩⟩
  · cases (hset c s ha).symm.trans e
    refine DisplayHandle.plot_bit hw fun h => hak ?_
    rwa [DisplayHandle.pixIndex, pixBit, toNat_toInt hin.1, toNat_toInt hin.2.2.1] at h
  · rw [State.complete_handle, DisplayHandle.plot, if_neg hout]
  · obtain ⟨u, hu, -, -, hc⟩ := exec_offBus_reads (i := .getPixel x y) ha rfl
    exact ⟨u, hu, hc.status, by rw [hc.result, DisplayHandle.pixel_outside hout]; rfl⟩

end Sys2Proof.Machine
end

section
/-! SUPPORT. Proofs of the statements of 42_raster: each shape is the spec's set, the line's list has no gap, and what the commands
draw in colour on over an all-off buffer. -/

namespace Sys2Proof.Machine

/-! ## Rectangles -/

theorem rectFill_iff {x y w h px py : Int} :
    RectFill x y w h px py ↔ x ≤ px ∧ px < x + w ∧ y ≤ py ∧ py < y + h := by
  constructor
  · rintro ⟨i, j, hi, hiw, hj, hjh, rfl, rfl⟩
    omega
  · intro hp
    exact ⟨px - x, py - y, by omega, by omega, by omega, by omega, by omega, by omega⟩

theorem rectOutline_iff {x y w h px py : Int} :
    RectOutline x y w h px py ↔ (x ≤ px ∧ px < x + w ∧ y ≤ py ∧ py < y + h) ∧
      (px - x = 0 ∨ px - x = w - 1 ∨ py - y = 0 ∨ py - y = h - 1) := by
  constructor
  · rintro ⟨i, j, hi, hiw, hj, hjh, hedge, rfl, rfl⟩
    omega
  · rintro ⟨hp, hedge⟩
    exact ⟨px - x, py - y, by omega, by omega, by omega, by omega, hedge, by omega, by omega⟩

/-- Settles O35: the border pixels are the pixels of the block that the filter of `rectOutline` keeps. -/
theorem drawRectDrawsTheOutline : Obligations.DrawRectDrawsTheOutline := fun c _ _ _ _ _ ha hw =>
  exec_draws ha rfl (DisplayHandle.window_drawn c hw fun px py => by rw [rectOutline_iff, decide_eq_true_iff])

/-- Painting a whole block of the panel. -/
theorem DisplayHandle.rectFill_drawn {d : DisplayHandle} (x y w h : Int) (c : Color) (hw : d.fb.wf) :
    Drawn d (d.apply (d.rectFill x y w h) c) (RectFill x y w h) c :=
  (DisplayHandle.apply_drawn c hw (d.window_nodup x y w h)).congr fun px py hb => by
    rw [DisplayHandle.mem_window, rectFill_iff, and_iff_right hb]

/-- Settles O36: FILLRECT applies its colour to the whole block. -/
theorem fillRectFillsTheRectangle : Obligations.FillRectFillsTheRectangle := fun c _ _ _ _ _ ha hw =>
  exec_draws ha rfl (DisplayHandle.rectFill_drawn _ _ _ _ c hw)

/-- Colour on over an all-off buffer lights the pixels of the set on the panel, and no others. -/
theorem Drawn.lit_iff {d d' : DisplayHandle} {S : Int → Int → Prop} (h : Drawn d d' S .on)
    (hoff : ∀ px py, d.pixel px py = false) (px py : Int) : d'.pixel px py = true ↔ d.InBounds px py ∧ S px py := by
  by_cases hp : d.InBounds px py ∧ S px py
  · exact ⟨fun _ => hp, fun _ => h.inside px py hp.1 hp.2⟩
  · rw [h.outside px py hp, hoff]
    exact ⟨nofun, fun h => absurd h hp⟩

/-- Settles O37: the lit pixels are the product of two integer intervals, of `w` and of `h` elements. -/
theorem fillRectPixelCount : Obligations.FillRectPixelCount := by
  intro x y w h s ha hw hoff
  obtain ⟨t, he, -, -, -, hd⟩ := fillRectFillsTheRectangle .on x y w h s ha hw
  have hlit := hd.lit_iff hoff
  refine ⟨t, he, fun hw0 hh0 hx hy hxw hyh => ?_, fun hempty px py => ?_⟩
  · have hmem : ∀ p : Int × Int, p ∈ Finset.Ico x.toInt (x.toInt + w.toInt) ×ˢ Finset.Ico y.toInt (y.toInt + h.toInt) ↔
        x.toInt ≤ p.1 ∧ p.1 < x.toInt + w.toInt ∧ y.toInt ≤ p.2 ∧ p.2 < y.toInt + h.toInt := fun p => by
      rw [Finset.mem_product, Finset.mem_Ico, Finset.mem_Ico, and_assoc]
    refine ⟨_, fun p => ?_, ?_, hmem⟩
    · rw [hmem, hlit, rectFill_iff]
      refine ⟨fun hp => ⟨?_, hp⟩, fun hp => hp.2⟩
      unfold DisplayHandle.InBounds
      omega
    · rw [Finset.card_product, Int.card_Ico, Int.card_Ico, add_sub_cancel_left, add_sub_cancel_left, Nat.cast_mul,
        Int.toNat_of_nonneg hw0.le, Int.toNat_of_nonneg hh0.le]
  · refine Bool.eq_false_of_not_eq_true fun hp => ?_
    have hfill := rectFill_iff.mp ((hlit px py).mp hp).2
    omega

/-! ## Circles -/

/-- Settles O38: the listed points are CircleSet (`mem_circlePoints`). -/
theorem drawCircleDrawsTheOutline : Obligations.DrawCircleDrawsTheOutline := fun c _ _ _ _ ha hw =>
  exec_draws ha rfl (DisplayHandle.onPanel_drawn c hw fun _ _ => mem_circlePoints)

theorem discSet_iff {x0 y0 r px py : Int} :
    DiscSet x0 y0 r px py ↔ (x0 - r ≤ px ∧ px < x0 - r + (2 * r + 1) ∧ y0 - r ≤ py ∧ py < y0 - r + (2 * r + 1)) ∧
      (px - x0) * (px - x0) + (py - y0) * (py - y0) ≤ r * r := by
  constructor
  · rintro ⟨dx, dy, hx, hx', hy, hy', hd, rfl, rfl⟩
    rw [add_sub_cancel_left, add_sub_cancel_left]
    exact ⟨by omega, hd⟩
  · rintro ⟨hp, hd⟩
    exact ⟨px - x0, py - y0, by omega, by omega, by omega, by omega, hd, by omega, by omega⟩

/-- Settles O39: the disc is the part of its bounding square that the filter of `discSet` keeps. -/
theorem fillCircleFillsTheDisc : Obligations.FillCircleFillsTheDisc := fun c _ _ _ _ ha hw =>
  exec_draws ha rfl (DisplayHandle.window_drawn c hw fun px py => by rw [discSet_iff, decide_eq_true_iff])

/-- The circle is symmetric in both axes and both diagonals (42_raster R157): it depends on the absolute offsets alone, and not on
their order. -/
theorem circleSet_symmetric {x0 y0 r dx dy ex ey : Int} (h : (|ex| = |dx| ∧ |ey| = |dy|) ∨ (|ex| = |dy| ∧ |ey| = |dx|)) :
    CircleSet x0 y0 r (x0 + dx) (y0 + dy) ↔ CircleSet x0 y0 r (x0 + ex) (y0 + ey) := by
  rw [circleSet_abs, circleSet_abs]
  refine exists_congr fun x => exists_congr fun y => exists_congr fun d => and_congr_right fun _ => and_congr_right fun _ => ?_
  rcases h with ⟨hx, hy⟩ | ⟨hx, hy⟩
  · rw [hx, hy]
  · rw [hx, hy, or_comm, and_comm, @and_comm (|dx| = |x|)]

/-- The offsets of the disc lie in its bounding square (42_raster R157). -/
theorem discSet_of_sq_le {x0 y0 r dx dy : Int} (hr : 0 ≤ r) (h : dx * dx + dy * dy ≤ r * r) :
    DiscSet x0 y0 r (x0 + dx) (y0 + dy) := by
  obtain ⟨hx, hx'⟩ := abs_le_of_sq_le_sq' (a := dx) (b := r) (by nlinarith [mul_self_nonneg dy]) hr
  obtain ⟨hy, hy'⟩ := abs_le_of_sq_le_sq' (a := dy) (b := r) (by nlinarith [mul_self_nonneg dx]) hr
  exact ⟨dx, dy, hx, hx', hy, hy', h, rfl, rfl⟩

/-- Settles O40: on an all-off buffer the lit pixels are the set's (`Drawn.lit_iff`), and the two sets are symmetric and round. -/
theorem circleSymmetryAndDisc : Obligations.CircleSymmetryAndDisc := by
  intro x0 y0 r s ha hw hoff
  obtain ⟨t, he, -, -, -, hd⟩ := drawCircleDrawsTheOutline .on x0 y0 r s ha hw
  obtain ⟨u, hu, -, -, -, hf⟩ := fillCircleFillsTheDisc .on x0 y0 r s ha hw
  have hsym : ∀ dx dy ex ey : Int, s.handle.InBounds (x0.toInt + dx) (y0.toInt + dy) →
      s.handle.InBounds (x0.toInt + ex) (y0.toInt + ey) → ((|ex| = |dx| ∧ |ey| = |dy|) ∨ (|ex| = |dy| ∧ |ey| = |dx|)) →
      t.handle.pixel (x0.toInt + dx) (y0.toInt + dy) = t.handle.pixel (x0.toInt + ex) (y0.toInt + ey) := by
    intro dx dy ex ey hb hb' habs
    rw [Bool.eq_iff_iff, hd.lit_iff hoff, hd.lit_iff hoff, and_iff_right hb, and_iff_right hb']
    exact circleSet_symmetric habs
  refine ⟨⟨t, he, fun dx dy hb => ⟨fun hb' => ?_, fun hb' => ?_, fun hb' => ?_, fun hb' => ?_⟩⟩,
    u, hu, fun hr dx dy hb => ?_⟩
  · exact hsym dx dy (-dx) dy hb hb' (.inl ⟨abs_neg dx, rfl⟩)
  · exact hsym dx dy dx (-dy) hb hb' (.inl ⟨rfl, abs_neg dy⟩)
  · exact hsym dx dy dy dx hb hb' (.inr ⟨rfl, rfl⟩)
  · exact hsym dx dy (-dy) (-dx) hb hb' (.inr ⟨abs_neg dy, abs_neg dx⟩)
  · rw [hf.lit_iff hoff, and_iff_right hb]
    refine ⟨fun hdisc => ?_, fun h => discSet_of_sq_le hr h⟩
    simpa using (discSet_iff.mp hdisc).2

/-! ## Lines -/

/-- Settles O33: the listed points are LineSet (`mem_linePoints`). -/
theorem drawLineDrawsLineSet : Obligations.DrawLineDrawsLineSet := fun c _ _ _ _ _ ha hw =>
  exec_draws ha rfl (DisplayHandle.onPanel_drawn c hw fun _ _ => mem_linePoints)

/-- One step of a line from `p` to `q`, to a neighbour and towards the end (42_raster R151). -/
def LineStep (x0 y0 x1 y1 : Int) (p q : Int × Int) : Prop :=
  (q.1 - p.1 = 0 ∨ q.1 - p.1 = (if x0 < x1 then 1 else -1)) ∧
  (q.2 - p.2 = 0 ∨ q.2 - p.2 = (if y0 < y1 then 1 else -1)) ∧ q ≠ p

/-- How far a point lies along the longer axis from the first endpoint. -/
def lineProgress (x0 y0 x1 y1 : Int) (p : Int × Int) : Int :=
  if |y1 - y0| ≤ |x1 - x0| then (p.1 - x0) * (if x0 < x1 then 1 else -1) else (p.2 - y0) * (if y0 < y1 then 1 else -1)

theorem LineAt.progress {x0 y0 x1 y1 a b x y err : Int} (h : LineAt x0 y0 x1 y1 a b x y err) :
    lineProgress x0 y0 x1 y1 (x, y) = lineLead x0 y0 x1 y1 a b := by
  unfold lineProgress lineLead
  rw [h.x_eq, h.y_eq]
  split_ifs <;> ring

/-- A list that starts in `p`, at `lead` along the longer axis, ends in the second endpoint `n` steps later, and has no gap. -/
structure LineRun (x0 y0 x1 y1 : Int) (p : Int × Int) (lead : Int) (n : Nat) (points : List (Int × Int)) : Prop where
  first : points.head? = some p
  last : points.getLast? = some (x1, y1)
  steps : points.IsChain (LineStep x0 y0 x1 y1)
  progress : points.map (lineProgress x0 y0 x1 y1) = (List.range (n + 1)).map fun (k : Nat) => lead + (k : Int)

/-- One more point in front. -/
theorem LineRun.cons {x0 y0 x1 y1 lead : Int} {p q : Int × Int} {n : Nat} {points : List (Int × Int)}
    (h : LineRun x0 y0 x1 y1 q (lead + 1) n points) (hp : lineProgress x0 y0 x1 y1 p = lead)
    (hstep : LineStep x0 y0 x1 y1 p q) : LineRun x0 y0 x1 y1 p lead (n + 1) (p :: points) where
  first := rfl
  last := by
    obtain ⟨r, rest, rfl⟩ := List.exists_cons_of_ne_nil (l := points) (by rintro rfl; exact nomatch h.first)
    rw [List.getLast?_cons_cons]
    exact h.last
  steps := List.isChain_cons.mpr ⟨fun r hr => by rw [h.first] at hr; cases hr; exact hstep, h.steps⟩
  progress := by
    rw [List.map_cons, hp, h.progress, List.range_succ_eq_map (n := n + 1), List.map_cons, List.map_map]
    refine congrArg₂ List.cons (by simp) (List.map_congr_left fun k _ => ?_)
    simp only [Function.comp_apply, Nat.cast_succ]
    ring

/-- The loop from a point of the line, with as many iterations left as the longer axis still needs (42_raster R151). -/
theorem LineAt.run {x0 y0 x1 y1 : Int} (n : Nat) {a b x y err : Int} (h : LineAt x0 y0 x1 y1 a b x y err)
    (h0 : 0 ≤ lineLead x0 y0 x1 y1 a b) (hn : max |x1 - x0| |y1 - y0| - lineLead x0 y0 x1 y1 a b = n) :
    LineRun x0 y0 x1 y1 (x, y) (lineLead x0 y0 x1 y1 a b) n (lineLoopOf x0 y0 x1 y1 (n + 1) x y err) := by
  induction n generalizing a b x y err with
  | zero =>
    obtain ⟨rfl, rfl⟩ := h.ends.mpr (by omega)
    rw [lineLoopOf, lineLoop, if_pos ⟨rfl, rfl⟩]
    exact ⟨rfl, rfl, List.isChain_singleton _, by simp [h.progress]⟩
  | succ n ih =>
    have hne : ¬ (x = x1 ∧ y = y1) := fun e => by have := h.ends.mp e; omega
    obtain ⟨a', b', h', hlead, hlong⟩ := h.next (by omega)
    have hrun := ih h' (by omega) (by omega)
    rw [hlead] at hrun
    rw [lineLoopOf, lineLoop, if_neg hne]
    refine hrun.cons h.progress ⟨?_, ?_, fun e => ?_⟩
    · dsimp only; split_ifs <;> omega
    · dsimp only; split_ifs <;> omega
    · have := h'.progress.symm.trans (e ▸ h.progress)
      omega

/-- Settles O34: the points are those of `linePoints`; the run from the first endpoint (`LineAt.run`) gives the ends, the steps and
the number of points, which are distinct because each lies one further along the longer axis. -/
theorem lineHasNoGaps : Obligations.LineHasNoGaps := by
  intro x0 y0 x1 y1
  have hmax : 0 ≤ max |x1 - x0| |y1 - y0| := le_max_of_le_left (abs_nonneg _)
  have hlead : lineLead x0 y0 x1 y1 0 0 = 0 := ite_self 0
  have hstart : LineAt x0 y0 x1 y1 0 0 x0 y0 (|x1 - x0| - |y1 - y0|) :=
    ⟨.start _ _ (abs_nonneg _) (abs_nonneg _), by ring, by ring⟩
  have hrun := hstart.run (max |x1 - x0| |y1 - y0|).toNat hlead.ge (by omega)
  rw [← linePoints_eq] at hrun
  refine ⟨linePoints x0 y0 x1 y1, fun p => mem_linePoints, ?_, ?_, hrun.first, hrun.last, hrun.steps⟩
  · refine List.Nodup.of_map (lineProgress x0 y0 x1 y1) ?_
    rw [hrun.progress]
    exact List.nodup_range.map fun j k e => by simpa using e
  · have hlen := congrArg List.length hrun.progress
    rw [List.length_map, List.length_map, List.length_range] at hlen
    rw [hlen]
    omega

end Sys2Proof.Machine
end

section
/-! SUPPORT. Proofs of the statements of 43_glyph_text: what a glyph draws, the setters, and where PRINT's cursor goes. -/

namespace Sys2Proof.Machine

/-! ## Glyphs -/

/-- Settles O41: the drawing is `drawChar` at the effective scale, which writes the framebuffer only. -/
theorem drawGlyphDrawsTheCell : Obligations.DrawGlyphDrawsTheCell := by
  intro c b x y ch scale s ha hw
  obtain ⟨t, he, hc, hb, hactive, hhandle⟩ := exec_offBus_completes (i := .drawGlyph c b x y ch scale) ha rfl
  have hdraws : DrawsChar s.cfg.glyph s.handle t.handle x.toInt y.toInt ch.toNat c b (effScale scale.toInt) :=
    hhandle ▸ DisplayHandle.drawChar_draws hw
  exact ⟨t, he, hc, hb, hactive, hdraws, hdraws.registers⟩

theorem glyphColumn_outside (rom : GlyphRom) {ch : Nat} (h : ch < 32 ∨ 126 < ch) (i : Nat) : glyphColumn rom ch i = 0 :=
  dif_neg fun ⟨h1, h2, _⟩ => by omega

theorem glyphColumn_inside (rom : GlyphRom) {ch i : Nat} (h1 : 32 ≤ ch) (h2 : ch ≤ 126) (hi : i ≤ 4) :
    some (glyphColumn rom ch i) = rom[(ch - 32) * 5 + i]? := by
  have hlt : (ch - 32) * 5 + i < 475 := by omega
  rw [glyphColumn, dif_pos ⟨h1, h2, hi⟩, Vector.getElem?_eq_getElem hlt]

/-- DrawChar leaves every pixel alone that is in neither glyph set, and with equal colours every one not of the glyph
(43_glyph_text R184). -/
theorem DrawsChar.pixel_eq {rom : GlyphRom} {d d' : DisplayHandle} {x y : Int} {ch : Nat} {c b : Color} {s : Nat}
    (h : DrawsChar rom d d' x y ch c b s) {px py : Int} (hfg : ¬ GlyphPixels true rom x y ch s px py)
    (hbg : b ≠ c → ¬ GlyphPixels false rom x y ch s px py) : d'.pixel px py = d.pixel px py := by
  obtain ⟨d1, hglyph, hsame, hback⟩ := h
  have h1 := hglyph.outside px py fun hp => hfg hp.2
  by_cases hbc : b = c
  · rw [hsame hbc, h1]
  · rw [(hback hbc).outside px py fun hp => hbg hbc hp.2, h1]

/-- Settles O42: the glyph bit of a pixel of the cell decides between the two sets (`glyphPixels_iff`), and DRAWGLYPH paints these
two sets only. -/
theorem glyphCell : Obligations.GlyphCell := by
  refine ⟨fun rom x y ch s px py _ => ⟨fun ⟨hfg, hbg⟩ => ?_, ?_⟩, fun rom ch i h => glyphColumn_outside rom h i,
    fun rom ch i h1 h2 hi => glyphColumn_inside rom h1 h2 hi, fun c b x y ch scale s t ha hw e => ?_⟩
  · exact nomatch (glyphPixels_iff.mp hfg).2.symm.trans (glyphPixels_iff.mp hbg).2
  · rw [glyphPixels_iff, glyphPixels_iff, ← and_or_left]
    exact and_iff_left (Bool.eq_false_or_eq_true _)
  · obtain ⟨u, hu, -, -, -, hdraws, -⟩ := drawGlyphDrawsTheCell c b x y ch scale s ha hw
    cases hu.symm.trans e
    exact ⟨fun px py hout => hdraws.pixel_eq (fun h => hout (glyphPixels_iff.mp h).1)
      fun _ h => hout (glyphPixels_iff.mp h).1, fun hbc px py hout => hdraws.pixel_eq hout fun h => absurd hbc h⟩

/-! ## The text state -/

/-- Settles O43: each setter is its row of `offBus`. -/
theorem textSetters : Obligations.TextSetters :=
  ⟨fun _ _ _ ha => exec_offBus_completes ha rfl, fun _ _ ha => exec_offBus_completes ha rfl,
    fun _ _ _ ha => exec_offBus_completes ha rfl⟩

/-! ## PRINT within the cursor's range -/

/-- The cursor has room for `m` more glyphs on its line and for `n` more lines (43_glyph_text R189, R190). -/
structure CursorFits (d : DisplayHandle) (m n : Nat) : Prop where
  x : max d.cursorX.toInt 0 + 6 * d.textScale * m < 2147483648
  y : d.cursorY.toInt + 8 * d.textScale * n < 2147483648

theorem CursorFits.mono {d : DisplayHandle} {m n m' n' : Nat} (h : CursorFits d m n) (hm : m' ≤ m) (hn : n' ≤ n) :
    CursorFits d m' n' where
  x := by
    have : (6 * d.textScale * m' : Int) ≤ 6 * d.textScale * m := by gcongr
    have := h.x
    omega
  y := by
    have : (8 * d.textScale * n' : Int) ≤ 8 * d.textScale * n := by gcongr
    have := h.y
    omega

/-- A register holds every value of its range. -/
theorem exists_word_of_inCursorRange {v : Int} (h : InCursorRange v) : ∃ w : Word, w.toInt = v := by
  obtain ⟨w, hw⟩ := Option.ne_none_iff_exists'.mp (mt cur_none.mp (not_not.mpr h))
  exact ⟨w, (cur_some.mp hw).2⟩

/-- With room for a line the cursor moves to the next one. -/
theorem CursorFits.newLine {d : DisplayHandle} {m n : Nat} (h : CursorFits d m (n + 1)) :
    ∃ y : Word, d.newLine = some { d with cursorX := 0, cursorY := y } ∧
      CursorFits { d with cursorX := 0, cursorY := y } m n := by
  have hy := h.y
  have hx := h.x
  push_cast at hy
  rw [mul_add, mul_one] at hy
  have hlow := d.cursorY.le_toInt
  have hn : 0 ≤ (8 * d.textScale * n : Int) := by positivity
  obtain ⟨y, hyv⟩ := exists_word_of_inCursorRange (v := d.cursorY.toInt + 8 * d.textScale)
    ⟨by omega, by omega⟩
  refine ⟨y, DisplayHandle.newLine_some.mpr ⟨y, ⟨by omega, by omega⟩, hyv, rfl⟩, ?_, ?_⟩
  · show max 0 0 + (6 * d.textScale * m : Int) < 2147483648
    omega
  · show y.toInt + (8 * d.textScale * n : Int) < 2147483648
    omega

/-- The wrap takes at most one line. -/
theorem CursorFits.wrapFirst {d : DisplayHandle} {m n : Nat} (h : CursorFits d m (n + 1)) :
    ∃ d0, d.wrapFirst = some d0 ∧ CursorFits d0 m n := by
  unfold DisplayHandle.wrapFirst
  split
  · obtain ⟨y, hy, hfits⟩ := h.newLine
    exact ⟨_, hy, hfits⟩
  · exact ⟨d, rfl, h.mono le_rfl (Nat.le_succ n)⟩

/-- With room for a glyph the cursor advances past it. -/
theorem CursorFits.putChar {d : DisplayHandle} {m n : Nat} (h : CursorFits d (m + 1) n) (rom : GlyphRom) (ch : Byte) :
    ∃ d1, d.putChar rom ch = some d1 ∧ CursorFits d1 m n := by
  have hx := h.x
  push_cast at hx
  rw [mul_add, mul_one] at hx
  have hlow := d.cursorX.le_toInt
  have hm : 0 ≤ (6 * d.textScale * m : Int) := by positivity
  have hrange : InCursorRange (d.cursorX.toInt + 6 * d.textScale) := ⟨by omega, by omega⟩
  obtain ⟨x, hxv⟩ := exists_word_of_inCursorRange hrange
  obtain ⟨fb, hput⟩ := DisplayHandle.putChar_withFb hrange hxv rom ch d.fb
  refine ⟨_, hput, ?_, h.y⟩
  show max x.toInt 0 + (6 * d.textScale * m : Int) < 2147483648
  omega

/-- The loop of PRINT has a result where each byte has room for a glyph and for a line. -/
theorem CursorFits.printBytes (rom : GlyphRom) (text : List Byte) {d : DisplayHandle}
    (h : CursorFits d text.length text.length) : ∃ d', d.printBytes rom text = some d' := by
  induction text generalizing d with
  | nil => exact ⟨d, rfl⟩
  | cons ch rest ih =>
    rw [List.length_cons] at h
    by_cases h10 : ch = 10
    · subst h10
      obtain ⟨y, hy, hfits⟩ := h.newLine
      rw [DisplayHandle.printBytes_newline hy]
      exact ih (hfits.mono (Nat.le_succ _) le_rfl)
    · by_cases h13 : ch = 13
      · subst h13
        rw [DisplayHandle.printBytes_carriageReturn]
        refine ih ⟨?_, (h.mono le_rfl (Nat.le_succ _)).y⟩
        have hx := (h.mono (Nat.le_succ _) le_rfl).x
        show max 0 0 + (6 * d.textScale * rest.length : Int) < 2147483648
        omega
      · obtain ⟨d0, hwrap, hfits⟩ := h.wrapFirst
        by_cases hy : sext32 d0.cursorY ≥ d0.height
        · exact ⟨d0, DisplayHandle.printBytes_stop h10 h13 hwrap hy rom rest⟩
        · obtain ⟨d1, hput, hfits1⟩ := hfits.putChar rom ch
          rw [DisplayHandle.printBytes_draw h10 h13 hwrap hy hput]
          exact ih hfits1

/-- Settles O45: the text has at most `n` bytes, so the loop has a result (`CursorFits.printBytes`), and PRINT completes with it. -/
theorem printCompletes : Obligations.PrintCompletes := by
  intro n payload s ha hw hx hy
  have hlen : (textBytes n payload).length ≤ n.toNat := List.length_take_le _ _
  obtain ⟨d, hloop⟩ := (CursorFits.mono ⟨hx, hy⟩ hlen hlen).printBytes s.cfg.glyph (textBytes n payload)
  rcases exec_print_cases n payload ha with ⟨d', hloop', he⟩ | ⟨hnone, -⟩
  · cases hloop.symm.trans hloop'
    exact ⟨_, he, s.drawn_completes d _, s.drawn_noBus d _ 0, rfl, DisplayHandle.printBytes_prints hw hloop,
      DisplayHandle.printBytes_registers hloop⟩
  · cases hloop.symm.trans hnone

/-! ## The cursor without the glyphs -/

/-- Neither the glyph table nor the framebuffer has a part in where the loop of PRINT leaves the other registers
(43_glyph_text R191), whatever the form of the framebuffer. -/
theorem DisplayHandle.printBytes_withFb {rom : GlyphRom} {text : List Byte} {d d' : DisplayHandle}
    (h : d.printBytes rom text = some d') (rom' : GlyphRom) (m : Memory) :
    ∃ m', DisplayHandle.printBytes { d with fb := m } rom' text = some { d' with fb := m' } := by
  induction text generalizing d m with
  | nil => cases h; exact ⟨m, rfl⟩
  | cons ch rest ih =>
    simp only [DisplayHandle.printBytes] at h
    split at h
    · next h10 =>
      subst h10
      split at h
      · cases h
      · next d1 hline =>
        obtain ⟨y, hrange, hy, rfl⟩ := DisplayHandle.newLine_some.mp hline
        obtain ⟨m', hrest⟩ := ih h m
        exact ⟨m', (DisplayHandle.printBytes_newline (DisplayHandle.newLine_withFb hrange hy m) _ _).trans hrest⟩
    · next h10 =>
      split at h
      · next h13 =>
        subst h13
        obtain ⟨m', hrest⟩ := ih h m
        exact ⟨m', (DisplayHandle.printBytes_carriageReturn _ _ _).trans hrest⟩
      · next h13 =>
        split at h
        · cases h
        · next d0 hwrap =>
          have hwrap' := DisplayHandle.wrapFirst_some.mpr ((DisplayHandle.wrapFirst_some.mp hwrap).withFb m)
          split at h
          · next hy => cases h; exact ⟨m, DisplayHandle.printBytes_stop h10 h13 hwrap' hy _ _⟩
          · next hy =>
            split at h
            · cases h
            · next d1 hput =>
              obtain ⟨x, hrange, hx, rfl⟩ := DisplayHandle.putChar_some.mp hput
              obtain ⟨m1, hput'⟩ := DisplayHandle.putChar_withFb hrange hx rom' ch m
              obtain ⟨m', hrest⟩ := ih h m1
              rw [DisplayHandle.drawChar_registers] at hrest
              exact ⟨m', (DisplayHandle.printBytes_draw h10 h13 hwrap' hy hput' _).trans hrest⟩

/-- PRINT leaves the cursor in the same place, whatever the glyph table and the framebuffer (43_glyph_text R191). -/
theorem exec_print_cursor {n : Word} {payload : List Word} {s t : State} (e : exec (.print n payload) s = .next t)
    (rom : GlyphRom) (m : Memory) :
    ∃ u, exec (.print n payload)
        { s with cfg := { s.cfg with glyph := rom }, handle := { s.handle with fb := m } } = .next u ∧
      u.handle.cursorX = t.handle.cursorX ∧ u.handle.cursorY = t.handle.cursorY := by
  rcases Bool.eq_false_or_eq_true s.active with ha | ha
  · rcases exec_print_cases n payload ha with ⟨d, hloop, he⟩ | ⟨-, he⟩ <;> cases he.symm.trans e
    obtain ⟨m', hloop'⟩ := DisplayHandle.printBytes_withFb hloop rom m
    exact ⟨_, exec_offBus_some ha (congrArg (Option.map fun d => (d, 0)) hloop'), rfl, rfl⟩
  · cases (exec_inactive (i := .print n payload) id ha).symm.trans e
    exact ⟨_, exec_inactive id ha, rfl, rfl⟩

/-- A glyph that needs no wrap, above the bottom edge: the cursor advances by `6*s` (43_glyph_text R189). -/
theorem DisplayHandle.printBytes_glyph {d : DisplayHandle} {ch : Byte} {x : Word} (h10 : ch ≠ 10) (h13 : ch ≠ 13)
    (hwrap : ¬ WrapNeeded d) (hy : d.cursorY.toInt < d.height) (hrange : InCursorRange (d.cursorX.toInt + 6 * d.textScale))
    (hx : x.toInt = d.cursorX.toInt + 6 * d.textScale) (rom : GlyphRom) (rest : List Byte) :
    ∃ m, d.printBytes rom (ch :: rest) = DisplayHandle.printBytes { d with fb := m, cursorX := x } rom rest := by
  obtain ⟨m, hput⟩ := DisplayHandle.putChar_withFb hrange hx rom ch d.fb
  exact ⟨m, DisplayHandle.printBytes_draw h10 h13 (DisplayHandle.wrapFirst_some.mpr (.inr ⟨hwrap, rfl⟩))
    (not_le_of_gt hy) hput rest⟩

/-- A panel on which the two texts of R191 fit: 128 wide, at least two text rows high, at scale 1. -/
structure FitsExample (d : DisplayHandle) : Prop where
  width : d.width = 128
  height : 16 ≤ d.height
  scale : d.textScale = 1

/-- A glyph of R191's texts, at a cursor `(a, b)` that they reach. -/
theorem FitsExample.glyph {d : DisplayHandle} (h : FitsExample d) {a b x : Word} {ch : Byte} (ha : d.cursorX = a)
    (hb : d.cursorY = b) (hroom : 0 ≤ a.toInt ∧ a.toInt ≤ 6 ∧ b.toInt ≤ 8) (hx : x.toInt = a.toInt + 6)
    (hch : ch ≠ 10 ∧ ch ≠ 13) (rom : GlyphRom) (rest : List Byte) :
    ∃ m, d.printBytes rom (ch :: rest) = DisplayHandle.printBytes { d with fb := m, cursorX := x } rom rest := by
  obtain ⟨hw, hh, hs⟩ := h
  refine DisplayHandle.printBytes_glyph hch.1 hch.2 (fun hwrap => ?_) (by rw [hb]; omega) ?_ (by rw [ha, hs]; omega) rom rest
  · have := hwrap.2
    rw [ha, hw, hs] at this
    omega
  · rw [ha, hs]
    exact ⟨by omega, by omega⟩

/-- The text "AB" (43_glyph_text R191). -/
theorem FitsExample.printBytes_AB {d : DisplayHandle} (h : FitsExample d) (hx : d.cursorX = 0) (hy : d.cursorY = 0)
    (rom : GlyphRom) (rest : List Byte) :
    ∃ m, d.printBytes rom (0x41 :: 0x42 :: rest) = DisplayHandle.printBytes { d with fb := m, cursorX := 12 } rom rest := by
  obtain ⟨m1, h1⟩ := h.glyph (x := 6) (ch := 0x41) hx hy (by decide) (by decide) (by decide) rom (0x42 :: rest)
  obtain ⟨m2, h2⟩ := FitsExample.glyph (d := { d with fb := m1, cursorX := 6 }) ⟨h.width, h.height, h.scale⟩
    (a := 6) (x := 12) (ch := 0x42) rfl hy (by decide) (by decide) (by decide) rom rest
  exact ⟨m2, h1.trans h2⟩

/-- The text "AB\nC" (43_glyph_text R191). -/
theorem FitsExample.printBytes_ABnC {d : DisplayHandle} (h : FitsExample d) (hx : d.cursorX = 0) (hy : d.cursorY = 0)
    (rom : GlyphRom) :
    ∃ m, d.printBytes rom [0x41, 0x42, 0x0A, 0x43] = some { d with fb := m, cursorX := 6, cursorY := 8 } := by
  obtain ⟨m1, h1⟩ := h.printBytes_AB hx hy rom [0x0A, 0x43]
  have hline : DisplayHandle.newLine { d with fb := m1, cursorX := 12 } =
      some { d with fb := m1, cursorX := 0, cursorY := 8 } :=
    DisplayHandle.newLine_some.mpr ⟨8, by rw [hy, h.scale]; exact ⟨by decide, by decide⟩, by rw [hy, h.scale]; decide, rfl⟩
  obtain ⟨m2, h2⟩ := FitsExample.glyph (d := { d with fb := m1, cursorX := 0, cursorY := 8 }) ⟨h.width, h.height, h.scale⟩
    (a := 0) (b := 8) (x := 6) (ch := 0x43) rfl rfl (by decide) (by decide) (by decide) rom []
  exact ⟨m2, h1.trans ((DisplayHandle.printBytes_newline hline rom [0x43]).trans h2)⟩

/-- Settles O46: the loop's cursor by `printBytes_withFb`, and the two texts of R191 glyph by glyph. -/
theorem printCursorIgnoresGlyphs : Obligations.PrintCursorIgnoresGlyphs := by
  refine ⟨fun n payload s rom m t e => exec_print_cursor e rom m, fun s ha hw hh hx hy hs => ⟨?_, ?_⟩⟩
  · obtain ⟨m, hloop⟩ := FitsExample.printBytes_ABnC ⟨hw, hh, hs⟩ hx hy s.cfg.glyph
    exact ⟨_, exec_offBus_some ha (congrArg (Option.map fun d => (d, 0)) hloop), rfl, rfl⟩
  · obtain ⟨m, hloop⟩ := FitsExample.printBytes_AB ⟨hw, hh, hs⟩ hx hy s.cfg.glyph []
    exact ⟨_, exec_offBus_some ha (congrArg (Option.map fun d => (d, 0)) hloop), rfl, hy⟩

end Sys2Proof.Machine
end

section
/-! SUPPORT. Proofs of the statements of 44_display_sync, and of 10_state on which command writes which register. -/

namespace Sys2Proof.Machine

/-! ## Display sync when every primitive succeeds, and at the first failure -/

/-- A successful display-sync command writes CONTRAST at most (44_display_sync R213, R216). -/
theorem syncEffect_handle (i : Instr) (s : State) :
    (syncEffect i s).handle = { s.handle with contrast := (syncEffect i s).handle.contrast } := by
  unfold syncEffect
  split <;> rfl

theorem syncEffect_eq_self {i : Instr} (h : ∀ v, i ≠ .setContrast v) (s : State) : syncEffect i s = s := by
  unfold syncEffect
  split
  · next v => exact absurd rfl (h v)
  · rfl

theorem syncEffect_active (i : Instr) (s : State) : (syncEffect i s).active = s.active := by
  unfold syncEffect
  split <;> rfl

theorem syncEffect_busOpen (i : Instr) (s : State) : (syncEffect i s).busOpen = s.busOpen := by
  unfold syncEffect
  split <;> rfl

theorem syncEffect_issued {s u : State} {es : List BusEvent} {n : Nat} (i : Instr) (h : Issued s u es n) :
    Issued s (syncEffect i u) es n := by
  unfold syncEffect
  split
  · exact ⟨h.trace, h.answers⟩
  · exact h

/-- A display-sync command whose primitives succeed, in one equation (44_display_sync). -/
theorem exec_sync_ok {i : Instr} {s : State} (hi : IsSync i) (ha : s.active = true) (hv : ArgumentsValid i)
    (hk : ∀ k, k < (syncPrims s.cfg.cmd s.handle i).length → s.answerAt k = .ok) :
    ∃ u, exec i s = .next ((syncEffect i u).complete i.len .ok 0) ∧
      Bused s u (allOk (syncPrims s.cfg.cmd s.handle i)) (syncPrims s.cfg.cmd s.handle i).length := by
  obtain ⟨u, hrun, b⟩ := State.issueAll_ok hk
  exact ⟨u, by rw [exec_sync hi ha hv, hrun]; rfl, b⟩

/-- Settles O52: the primitives leave the instance alone (`Bused`), and the effect after them is on CONTRAST alone. -/
theorem syncCommandCompletes : Obligations.SyncCommandCompletes := by
  intro i s hi ha hv hk
  obtain ⟨u, he, b⟩ := exec_sync_ok hi ha hv hk
  refine ⟨_, he, (b.before.trans (syncEffect_before i u)).completes i.len .ok, (syncEffect_active i u).trans b.active,
    (syncEffect_busOpen i u).trans b.busOpen, ?_, fun hne => ?_, (syncEffect_issued i b.issued).complete i.len .ok 0⟩
  · rw [State.complete_handle, ← b.handle]
    exact syncEffect_handle i u
  · rw [State.complete_handle, syncEffect_eq_self hne, b.handle]

/-- Settles O53: the sequence ends at its first failure (`State.issueAll_fail`), and the command with it. -/
theorem failedFrameEndsTheCommand : Obligations.FailedFrameEndsTheCommand := by
  intro i s j reached p hi ha hv hp hk hf
  obtain ⟨u, hrun, b⟩ := State.issueAll_fail hp hk hf
  exact ⟨u.complete i.len .ioError 0, by rw [exec_sync hi ha hv, hrun]; rfl, b.before.completes i.len .ioError,
    ⟨b.active, b.handle⟩, b.busOpen, b.issued.complete i.len .ioError 0⟩

/-- A display-sync command other than SETCONTRAST whose primitives succeed leaves the instance as it was. -/
theorem exec_sync_same {i : Instr} {s : State} (hi : IsSync i) (hne : ∀ v, i ≠ .setContrast v) (ha : s.active = true)
    {ps : List BusPrim} (hps : syncPrims s.cfg.cmd s.handle i = ps) (hk : ∀ k, k < ps.length → s.answerAt k = .ok) :
    ∃ t, exec i s = .next t ∧ Completes s t i.len .ok 0 ∧ SameInstance s t ∧ t.busOpen = s.busOpen ∧
      Issued s t (allOk ps) ps.length := by
  subst hps
  have hv : ArgumentsValid i := by
    by_contra hv
    obtain ⟨v, rfl⟩ := eq_setContrast_of_not_argumentsValid hv
    exact hne v rfl
  obtain ⟨t, he, hc, hactive, hopen, -, hhandle, hissued⟩ := syncCommandCompletes i s hi ha hv hk
  exact ⟨t, he, hc, ⟨hactive, hhandle hne⟩, hopen, hissued⟩

/-! ## The commands one by one -/

/-- Settles O47: the seven primitives are those of `syncPrims`. -/
theorem flushSendsTheFramebuffer : Obligations.FlushSendsTheFramebuffer := fun _ ha hk =>
  exec_sync_same (i := .flush) trivial nofun ha rfl hk

/-- Settles O49: INVERT has one primitive; DIM two or none. -/
theorem polarityAndDimming : Obligations.PolarityAndDimming := by
  refine ⟨fun flag s ha h0 => exec_sync_same (i := .invert flag) trivial nofun ha rfl fun k hk => ?_,
    fun flag s ha hk => ?_⟩
  · rwa [Nat.lt_one_iff.mp hk]
  · by_cases hflag : flag = 0
    · rw [if_pos hflag, if_pos hflag]
      exact exec_sync_same (i := .dim flag) trivial nofun ha (if_pos hflag) nofun
    · rw [if_neg hflag, if_neg hflag]
      obtain ⟨h0, h1⟩ := hk hflag
      refine exec_sync_same (i := .dim flag) trivial nofun ha (if_neg hflag) fun k hlt => ?_
      match k, hlt with
      | 0, _ => exact h0
      | 1, _ => exact h1

/-- A value that SETCONTRAST takes fits CONTRAST (44_display_sync R216). -/
theorem toNat_byteOf {v : Int} (h0 : 0 ≤ v) (h1 : v ≤ 255) : ((byteOf v).toNat : Int) = v := by
  rw [byteOf, BitVec.toNat_ofInt]
  omega

/-- Settles O50: the two frames carry the value that `syncEffect` then stores; other values are refused before any frame
(`exec_badArgument`). -/
theorem setContrastStoresTheValue : Obligations.SetContrastStoresTheValue := by
  refine ⟨fun v s ha h0 h1 hk0 hk1 => ?_, fun v s ha hv => ?_⟩
  · have hk : ∀ k, k < 2 → s.answerAt k = .ok := fun k hlt =>
      match k, hlt with
      | 0, _ => hk0
      | 1, _ => hk1
    obtain ⟨u, he, b⟩ := exec_sync_ok (i := .setContrast v) trivial ha ⟨h0, h1⟩ hk
    refine ⟨_, he, (b.before.trans (syncEffect_before _ u)).completes 2 .ok, b.active, b.busOpen, toNat_byteOf h0 h1, ?_, ?_⟩
    · rw [← b.handle]
      rfl
    · have hissued := (syncEffect_issued (.setContrast v) b.issued).complete 2 .ok 0
      rw [syncPrims, ← byteOf_toInt] at hissued
      exact hissued
  · have hbad : ¬ ArgumentsValid (.setContrast v) := by
      rintro ⟨h0, h1⟩
      rcases hv with rfl | hv
      · exact absurd h1 (by decide)
      · omega
    exact ⟨_, exec_badArgument ha hbad, rfl, rfl, rfl⟩

/-- Settles O51: with the default fillers each sequence is that of `syncPrims`. -/
theorem scrollCommandsSendTheirBytes : Obligations.ScrollCommandsSendTheirBytes := by
  intro start stop s ha hk h00 hFF h01 sends
  have key : ∀ (i : Instr) (bytes : List Byte), IsSync i → (∀ v, i ≠ .setContrast v) →
      syncPrims s.cfg.cmd s.handle i = bytes.map .cmdFrame → bytes.length ≤ 10 → sends i i.len bytes := by
    intro i bytes hi hne hps hlen
    have hsame := exec_sync_same hi hne ha hps fun k hlt => hk k (by rw [List.length_map] at hlt; omega)
    rwa [List.length_map] at hsame
  refine ⟨key _ _ trivial nofun ?_ (by simp), key _ _ trivial nofun ?_ (by simp), key _ _ trivial nofun ?_ (by simp),
    key _ _ trivial nofun ?_ (by simp), key _ _ trivial nofun rfl (by simp)⟩
  all_goals simp only [syncPrims, h00, hFF, h01]

/-! ## FLUSH's trace -/

/-- What a FLUSH that completes has added to the bus trace (44_display_sync R211). -/
theorem flush_trace {s t : State} (ha : s.active = true) (e : exec .flush s = .next t) :
    t.busTrace = s.busTrace ++ allOk (syncPrims s.cfg.cmd s.handle .flush) ∨
    ∃ j p n, j < 7 ∧ (syncPrims s.cfg.cmd s.handle .flush)[j]? = some p ∧
      t.busTrace = s.busTrace ++ allOk ((syncPrims s.cfg.cmd s.handle .flush).take j) ++ [⟨p, .fail n⟩] := by
  rw [exec_sync (i := .flush) trivial ha trivial] at e
  rcases State.issueAll_cases s (syncPrims s.cfg.cmd s.handle .flush) with
    ⟨-, u, hrun, b⟩ | ⟨j, p, r, hp, -, -, u, hrun, b⟩ | ⟨j, -, -, -, hrun⟩ <;> rw [hrun] at e <;> cases e
  · exact .inl b.busTrace
  · refine .inr ⟨j, p, min r p.frame.length, (List.getElem?_eq_some_iff.mp hp).1, hp, ?_⟩
    rw [List.append_assoc]
    exact b.busTrace

/-- A data frame of FLUSH that succeeded carries the framebuffer as it was at the start (44_display_sync R211). -/
theorem flush_dataFrame {s t : State} (ha : s.active = true) (e : exec .flush s = .next t) {events : List BusEvent}
    {bytes : List Byte} (ht : t.busTrace = s.busTrace ++ events) (hmem : ⟨.dataFrame bytes, .ok⟩ ∈ events) :
    bytes = (List.range (s.handle.width * (s.handle.height / 8))).map s.handle.fb.read := by
  have hprim : BusPrim.dataFrame bytes ∈ syncPrims s.cfg.cmd s.handle .flush := by
    rcases flush_trace ha e with h | ⟨j, p, n, -, -, h⟩
    · rw [List.append_cancel_left (ht.symm.trans h)] at hmem
      exact forall_allOk (Q := (· ∈ syncPrims s.cfg.cmd s.handle .flush)) (fun _ hp => hp) _ hmem
    · rw [List.append_assoc] at h
      rw [List.append_cancel_left (ht.symm.trans h)] at hmem
      rcases List.mem_append.mp hmem with hmem | hmem
      · exact forall_allOk (Q := (· ∈ syncPrims s.cfg.cmd s.handle .flush)) (fun _ hp => List.mem_of_mem_take hp) _ hmem
      · exact nomatch List.mem_singleton.mp hmem
  rcases List.mem_append.mp hprim with hcmd | hdata
  · obtain ⟨b, -, hb⟩ := List.mem_map.mp hcmd
    cases hb
  · exact BusPrim.dataFrame.inj (List.mem_singleton.mp hdata)

/-- Settles O48: the trace by `flush_trace`, the bytes by `flush_dataFrame`, which after CLEAR are zeros. -/
theorem flushBusTrace : Obligations.FlushBusTrace := by
  refine ⟨fun s t ha e => flush_trace ha e, fun s t ha e events bytes ht hmem => ?_,
    fun s t u ha hw hclear e events bytes ht hmem => ?_⟩
  · rw [flush_dataFrame ha e ht hmem]
    refine ⟨by rw [List.length_map, List.length_range], fun a b hb => ?_⟩
    obtain ⟨hlt, rfl⟩ := List.getElem?_eq_some_iff.mp hb
    rw [List.getElem_map, List.getElem_range]
  · obtain ⟨t', ht', -, -, hactive, hhandle, -, hzero, -⟩ := clearBlanksTheBuffer s ha hw
    cases ht'.symm.trans hclear
    have hwidth : t.handle.width = s.handle.width := by rw [hhandle]
    have hheight : t.handle.height = s.handle.height := by rw [hhandle]
    rw [flush_dataFrame (hactive.trans ha) e ht hmem, hwidth, hheight]
    refine List.eq_replicate_iff.mpr ⟨by rw [List.length_map, List.length_range], fun b hb => ?_⟩
    obtain ⟨a, hlt, rfl⟩ := List.mem_map.mp hb
    exact hzero a (List.mem_range.mp hlt)

/-! ## Which command writes which register -/

/-- `d'` is `d` after command `i`, which was neither BEGIN nor END: what R42's table lets it write (10_state R42). -/
structure RegisterFrame (i : Instr) (d d' : DisplayHandle) : Prop where
  fixed : d' = { d with
    fb := d'.fb, contrast := d'.contrast, cursorX := d'.cursorX, cursorY := d'.cursorY, textScale := d'.textScale,
    textColor := d'.textColor, textBg := d'.textBg }
  contrast : (∀ v, i ≠ .setContrast v) → d'.contrast = d.contrast
  cursor : (∀ x y, i ≠ .setCursor x y) → (∀ n p, i ≠ .print n p) → d'.cursorX = d.cursorX ∧ d'.cursorY = d.cursorY
  scale : (∀ v, i ≠ .setTextSize v) → d'.textScale = d.textScale
  colors : (∀ c b, i ≠ .setTextColor c b) → d'.textColor = d.textColor ∧ d'.textBg = d.textBg
  fb : i.opcode ∉ [.setPixel, .clear, .drawLine, .drawRect, .fillRect, .drawCircle, .fillCircle, .drawGlyph, .print] →
    d'.fb = d.fb

theorem RegisterFrame.refl (i : Instr) (d : DisplayHandle) : RegisterFrame i d d :=
  ⟨rfl, fun _ => rfl, fun _ _ => ⟨rfl, rfl⟩, fun _ => rfl, fun _ => ⟨rfl, rfl⟩, fun _ => rfl⟩

/-- A drawing command writes the framebuffer only. -/
theorem RegisterFrame.of_fb {i : Instr} {d d' : DisplayHandle} (h : d' = { d with fb := d'.fb })
    (hi : i.opcode ∈ [Opcode.setPixel, .clear, .drawLine, .drawRect, .fillRect, .drawCircle, .fillCircle, .drawGlyph, .print]) :
    RegisterFrame i d d' := by
  obtain ⟨m, rfl⟩ : ∃ m, d' = { d with fb := m } := ⟨_, h⟩
  exact ⟨rfl, fun _ => rfl, fun _ _ => ⟨rfl, rfl⟩, fun _ => rfl, fun _ => ⟨rfl, rfl⟩, fun hn => absurd hi hn⟩

/-- The rows of the commands off the bus keep to R42's table. -/
theorem offBus_frame {rom : GlyphRom} {i : Instr} {d d' : DisplayHandle} {r : Word} (e : offBus rom d i = some (d', r)) :
    RegisterFrame i d d' := by
  cases i with
  | print n payload =>
    obtain ⟨d1, hloop, he⟩ := Option.map_eq_some_iff.mp e
    cases he
    obtain ⟨m, x, y, rfl⟩ : ∃ m x y, d' = { d with fb := m, cursorX := x, cursorY := y } :=
      ⟨_, _, _, DisplayHandle.printBytes_registers hloop⟩
    exact ⟨rfl, fun _ => rfl, fun _ hp => absurd rfl (hp n payload), fun _ => rfl, fun _ => ⟨rfl, rfl⟩,
      fun hn => absurd (by simp [Instr.opcode]) hn⟩
  | beginInst | endInst | flush | invert | dim | setContrast | scrollRight | scrollLeft | scrollDiagRight | scrollDiagLeft
    | stopScroll => cases e
  | getWidth | getHeight | getPixel => cases e; exact .refl _ d
  | setPixel => cases e; exact .of_fb (d.plot_registers _ _ _) (by simp [Instr.opcode])
  | clear => cases e; exact .of_fb rfl (by simp [Instr.opcode])
  | drawLine | drawRect | fillRect | drawCircle | fillCircle =>
    cases e; exact .of_fb (d.apply_registers _ _) (by simp [Instr.opcode])
  | drawGlyph => cases e; exact .of_fb (d.drawChar_registers _ _ _ _ _ _ _) (by simp [Instr.opcode])
  | setCursor x y =>
    cases e
    exact ⟨rfl, fun _ => rfl, fun hc => absurd rfl (hc x y), fun _ => rfl, fun _ => ⟨rfl, rfl⟩, fun _ => rfl⟩
  | setTextSize v =>
    cases e
    exact ⟨rfl, fun _ => rfl, fun _ _ => ⟨rfl, rfl⟩, fun hs => absurd rfl (hs v), fun _ => ⟨rfl, rfl⟩, fun _ => rfl⟩
  | setTextColor c b =>
    cases e
    exact ⟨rfl, fun _ => rfl, fun _ _ => ⟨rfl, rfl⟩, fun _ => rfl, fun hs => absurd rfl (hs c b), fun _ => rfl⟩

/-- The effect of a display-sync command keeps to R42's table. -/
theorem syncEffect_frame (i : Instr) (s : State) : RegisterFrame i s.handle (syncEffect i s).handle := by
  unfold syncEffect
  split
  · next v => exact ⟨rfl, fun hv => absurd rfl (hv v), fun _ _ => ⟨rfl, rfl⟩, fun _ => rfl, fun _ => ⟨rfl, rfl⟩, fun _ => rfl⟩
  · exact .refl i _

/-- Every command but BEGIN and END keeps ACTIVE, BUS_OPEN and what R42's table does not let it write. -/
theorem exec_frame {i : Instr} {s t : State} (hl : ¬ IsLifecycle i) (e : exec i s = .next t) :
    t.active = s.active ∧ t.busOpen = s.busOpen ∧ RegisterFrame i s.handle t.handle := by
  rcases exec_cases (s := s) hl with ⟨-, e'⟩ | ⟨-, -, d, r, hrow, e'⟩ | ⟨-, -, -, -, e'⟩ | ⟨-, -, -, e'⟩ |
    ⟨-, -, -, u, e', -, b⟩ | ⟨-, -, -, u, j, p, r, e', -, -, -, b⟩ | ⟨-, -, -, e', -⟩ <;> cases e'.symm.trans e
  · exact ⟨rfl, rfl, .refl i _⟩
  · exact ⟨rfl, rfl, offBus_frame hrow⟩
  · exact ⟨rfl, rfl, .refl i _⟩
  · exact ⟨(syncEffect_active i u).trans b.active, (syncEffect_busOpen i u).trans b.busOpen, b.handle ▸ syncEffect_frame i u⟩
  · exact ⟨b.active, b.busOpen, b.handle.symm ▸ RegisterFrame.refl i s.handle⟩

/-- Settles O56: the table of `RegisterFrame`, register by register. -/
theorem registerWriters : Obligations.RegisterWriters := by
  intro i s t e hend hbegin
  obtain ⟨hactive, hopen, hf⟩ := exec_frame (not_isLifecycle hend hbegin) e
  exact ⟨hactive, hopen, congrArg (·.width) hf.fixed, congrArg (·.height) hf.fixed, congrArg (·.vcc) hf.fixed,
    congrArg (·.busId) hf.fixed, congrArg (·.devAddr) hf.fixed, congrArg (·.wrap) hf.fixed, hf.contrast, hf.cursor, hf.scale,
    hf.colors, hf.fb⟩

end Sys2Proof.Machine
end
